-- ==== Sys2Proof/Word.lean ====
section
/-! DEFINITION. The block's value types (00_scope.md R9): bytes, 32-bit words, byte strings of a fixed length and the
eight-word hash state. -/

namespace Sys2Proof

/-- `u8` (R9). -/
abbrev Byte := BitVec 8

/-- `u32` (R9). -/
abbrev Word := BitVec 32

/-- A byte string of exactly `n` bytes, index 0 first (R7, R9). -/
structure Bytes (n : Nat) where
  toList : List Byte
  length_eq : toList.length = n
deriving DecidableEq, Repr

/-- `S[0..7]`, a SHA-256 state of eight words (R7, R100); also the compressor's working variables `a..h`, in that
order (R35, R108). -/
structure HashState where
  s0 : Word
  s1 : Word
  s2 : Word
  s3 : Word
  s4 : Word
  s5 : Word
  s6 : Word
  s7 : Word
deriving DecidableEq, Repr

/-- `zeros(n)` (R9). -/
def Bytes.zeros (n : Nat) : Bytes n := ⟨List.replicate n 0#8, List.length_replicate⟩

/-- The state of eight zero words. -/
def HashState.zero : HashState := ⟨0, 0, 0, 0, 0, 0, 0, 0⟩

end Sys2Proof
end

