-- ==== Sys2Proof/Config.lean ====
section
/-! DEFINITION. The parameters the spec leaves open (00_scope.md R8). They are fixed before reset and no step changes
them (70_reset_and_hazards.md R252); the machine's state carries them, so that every statement about all states covers
every choice of them (log 4). -/

namespace Sys2Proof

/-- Whether bytes before the header marker are ignored or rejected (R8, D4). -/
inductive LeadPolicy where
  | skip
  | strict
deriving DecidableEq, Repr

/-- Whether the block has the `CANCEL` input (R8, D12). -/
inductive CancelHook where
  | absent
  | present
deriving DecidableEq, Repr

/-- `RX_BUF_LEN`, `LEAD_POLICY`, `CANCEL_HOOK` (R8). -/
structure Params where
  rxBufLen : Nat
  leadPolicy : LeadPolicy
  cancelHook : CancelHook
deriving DecidableEq, Repr

/-- The defaults of R8. -/
def Params.default : Params := ⟨256, .skip, .absent⟩

/-- R8: `1 ≤ RX_BUF_LEN ≤ 65535`. -/
abbrev Params.wf (p : Params) : Prop := 1 ≤ p.rxBufLen ∧ p.rxBufLen ≤ 65535

end Sys2Proof
end

