-- ==== Sys2Proof/Machine/Operands.lean ====
section
/-! DEFINITION. Every operand form of the spec: byte order (00_scope.md R10, 20_memory.md R51 to R53), hex digits (R12),
the fixed texts of the frames (R73, R80, R81), the block layouts (30_encoding.md R74 to R78) and the assembly rules of
R82. -/

namespace Sys2Proof.Machine

/-! ## Byte strings -/

/-- `F[lo .. lo+n-1]`, as many of those bytes as `F` has (R9). -/
def slice (F : List Byte) (lo n : Nat) : List Byte := (F.drop lo).take n

/-- The string as one of exactly `n` bytes, or none if it has another length. -/
def Bytes.ofList? (n : Nat) (l : List Byte) : Option (Bytes n) :=
  if h : l.length = n then some ⟨l, h⟩ else none

/-! ## Byte order (R10, R51) -/

/-- `be32` (R10). -/
def be32 (b0 b1 b2 b3 : Byte) : Word := b0 ++ b1 ++ b2 ++ b3

/-- `le32` (R10). -/
def le32 (b0 b1 b2 b3 : Byte) : Word := b3 ++ b2 ++ b1 ++ b0

/-- `be32_bytes` (R10). -/
def be32Bytes (x : Word) : List Byte :=
  [x.extractLsb' 24 8, x.extractLsb' 16 8, x.extractLsb' 8 8, x.extractLsb' 0 8]

/-- `le32_bytes` (R10). -/
def le32Bytes (x : Word) : List Byte :=
  [x.extractLsb' 0 8, x.extractLsb' 8 8, x.extractLsb' 16 8, x.extractLsb' 24 8]

/-- The `k` low bytes of a number, least significant first. -/
def bytesLE : Nat → Nat → List Byte
  | 0, _ => []
  | k + 1, n => BitVec.ofNat 8 n :: bytesLE k (n / 256)

/-- The `k` low bytes of a number, most significant first; `be64_bytes` is `bytesBE 8` (R10). -/
def bytesBE (k n : Nat) : List Byte := (bytesLE k n).reverse

/-- The number whose bytes, least significant first, are `B`; `le256` for 32 bytes (R10). -/
def leNat : List Byte → Nat
  | [] => 0
  | b :: r => b.toNat + 256 * leNat r

/-- `be64_bytes` (R10). -/
def be64Bytes (n : Nat) : List Byte := bytesBE 8 n

/-- A big-endian string of bytes as a number. -/
def beNat (B : List Byte) : Nat := leNat B.reverse

/-- A string as big-endian words; a block of 64 bytes gives the 16 words `M[t]` (R74, R106). -/
def wordsBE : List Byte → List Word
  | b0 :: b1 :: b2 :: b3 :: r => be32 b0 b1 b2 b3 :: wordsBE r
  | _ => []

/-- `SER(S)` (R78): big-endian per word, word 0 first. -/
def ser (S : HashState) : Bytes 32 :=
  ⟨be32Bytes S.s0 ++ be32Bytes S.s1 ++ be32Bytes S.s2 ++ be32Bytes S.s3 ++
    be32Bytes S.s4 ++ be32Bytes S.s5 ++ be32Bytes S.s6 ++ be32Bytes S.s7, rfl⟩

/-! ## Hex (R12, R82) -/

/-- `hexval` (R12): none for a byte that is no hex digit (U12). -/
def hexval (c : Byte) : Option Nat :=
  let v := c.toNat
  if 0x30 ≤ v ∧ v ≤ 0x39 then some (v - 0x30)
  else if 0x61 ≤ v ∧ v ≤ 0x66 then some (v - 0x61 + 10)
  else if 0x41 ≤ v ∧ v ≤ 0x46 then some (v - 0x41 + 10)
  else none

/-- Whether a byte is a hex digit (R12); uppercase counts (D5). -/
def isHexDigit (c : Byte) : Bool := (hexval c).isSome

/-- `hexchar` (R12): the lowercase digit of a value below 16. -/
def hexchar (v : Nat) : Byte := if v < 10 then BitVec.ofNat 8 (0x30 + v) else BitVec.ofNat 8 (0x61 + (v - 10))

/-- The pairs of R82 decoded in order, high nibble first; none where a character is no hex digit or one is left over. -/
def hexDecodePairs : List Byte → Option (List Byte)
  | [] => some []
  | [_] => none
  | hi :: lo :: r =>
    match hexval hi, hexval lo, hexDecodePairs r with
    | some h, some l, some out => some (BitVec.ofNat 8 (h * 16 + l) :: out)
    | _, _, _ => none

/-- The number written by a string of hex digits, most significant first (R205); none where one is no hex digit. -/
def hexNumber : List Byte → Option Nat
  | [] => some 0
  | c :: r =>
    match hexval c, hexNumber r with
    | some v, some n => some (v * 16 ^ r.length + n)
    | _, _ => none

/-- `HASH_HEX` (R203): two lowercase characters per byte, byte 0 first. -/
def hashHex : List Byte → List Byte
  | [] => []
  | b :: r => hexchar (b.toNat / 16) :: hexchar (b.toNat % 16) :: hashHex r

theorem hashHex_length (B : List Byte) : (hashHex B).length = 2 * B.length := by
  induction B with
  | nil => rfl
  | cons b r ih => simp only [hashHex, List.length_cons, ih]; omega

/-- `NONCE_HEX` (R202): the most significant nibble first. -/
def nonceHex (n : Word) : List Byte :=
  [hexchar (n.extractLsb' 28 4).toNat, hexchar (n.extractLsb' 24 4).toNat,
   hexchar (n.extractLsb' 20 4).toNat, hexchar (n.extractLsb' 16 4).toNat,
   hexchar (n.extractLsb' 12 4).toNat, hexchar (n.extractLsb' 8 4).toNat,
   hexchar (n.extractLsb' 4 4).toNat, hexchar (n.extractLsb' 0 4).toNat]

/-! ## The fixed texts of the frames (R73, R80, R81) -/

/-- `'"'` -/
def quote : Byte := 0x22#8

/-- `'}'`, which ends a frame (R171). -/
def rbrace : Byte := 0x7D#8

/-- `MH`, the header marker (R80, R174). -/
def headerMarker : List Byte :=
  [0x7B#8, 0x22#8, 0x68#8, 0x65#8, 0x61#8, 0x64#8, 0x65#8, 0x72#8, 0x22#8, 0x3A#8, 0x22#8]

/-- `MT`, the target marker (R80, R174). -/
def targetMarker : List Byte :=
  [0x2C#8, 0x22#8, 0x74#8, 0x61#8, 0x72#8, 0x67#8, 0x65#8, 0x74#8, 0x22#8, 0x3A#8, 0x22#8]

/-- The ten bytes that open a share frame (R81). -/
def nonceMarker : List Byte :=
  [0x7B#8, 0x22#8, 0x6E#8, 0x6F#8, 0x6E#8, 0x63#8, 0x65#8, 0x22#8, 0x3A#8, 0x22#8]

/-- The ten bytes between a share frame's nonce and its hash (R81). -/
def hashMarker : List Byte :=
  [0x22#8, 0x2C#8, 0x22#8, 0x68#8, 0x61#8, 0x73#8, 0x68#8, 0x22#8, 0x3A#8, 0x22#8]

/-- The three bytes that end a share frame (R81). -/
def shareEnd : List Byte := [0x22#8, 0x7D#8, 0x0A#8]

/-- The 249 bytes of a job frame with these hex characters (R80). -/
def jobFrameText (headerHex : Bytes 160) (targetHex : Bytes 64) : List Byte :=
  headerMarker ++ headerHex.toList ++ [quote] ++ targetMarker ++ targetHex.toList ++ [quote, rbrace]

/-- `SHARE_ENCODE`'s text, 95 bytes (R81, R200). -/
def shareText (n : Word) (hash : Bytes 32) : Bytes 95 :=
  ⟨nonceMarker ++ nonceHex n ++ hashMarker ++ hashHex hash.toList ++ shareEnd, by
    simp [nonceMarker, nonceHex, hashMarker, hashHex_length, hash.length_eq, shareEnd]⟩

/-! ## Block layouts (R75 to R77) -/

/-- `BLK1(hdr)` (R75). -/
def blk1 (hdr : Bytes 80) : Bytes 64 :=
  ⟨slice hdr.toList 0 64, by simp [slice, hdr.length_eq]⟩

/-- The padding that follows the 16 header bytes of `BLK2` (R76). -/
def blk2Pad : List Byte := [0x80#8] ++ List.replicate 39 0#8 ++ be64Bytes 640

/-- `BLK2(hdr)`, also the tail block (R76). -/
def blk2 (hdr : Bytes 80) : Bytes 64 :=
  ⟨slice hdr.toList 64 16 ++ blk2Pad, by
    simp [slice, hdr.length_eq, blk2Pad, be64Bytes, bytesBE, bytesLE]⟩

/-- `BLK3(d1)` (R77). -/
def blk3 (d1 : Bytes 32) : Bytes 64 :=
  ⟨d1.toList ++ [0x80#8] ++ List.replicate 23 0#8 ++ be64Bytes 256, by
    simp [d1.length_eq, be64Bytes, bytesBE, bytesLE]⟩

/-- `TAIL[12..15] <- le32_bytes(n)` (R82, R144, R147). -/
def setTailNonce (tail : Bytes 64) (n : Word) : Bytes 64 :=
  ⟨slice tail.toList 0 12 ++ le32Bytes n ++ slice tail.toList 16 48, by
    simp [slice, tail.length_eq, le32Bytes]⟩

/-- `hdr_n = hdr[0..75] ‖ le32_bytes(n)` (R149). -/
def headerWithNonce (hdr : Bytes 80) (n : Word) : Bytes 80 :=
  ⟨slice hdr.toList 0 76 ++ le32Bytes n, by simp [slice, hdr.length_eq, le32Bytes]⟩

end Sys2Proof.Machine
end

