-- ==== Sys2Proof/Syntax.lean ====
section
/-! DEFINITION. The operations of the block: one constructor of `Instr` per row of opcode_table.json, with the operands
of 30_encoding.md R71, and the operation ids of R70. -/

namespace Sys2Proof

/-- The operations that have an OPID (R71). The two wire frames of R80 and R81 have none. -/
inductive Opid where
  | compress
  | hashHeader
  | hash32
  | doubleHash
  | meetsTarget
  | prepMidstate
  | trialDigest
  | hexDecode
  | jobParse
  | shareEncode
  | rxByte
  | frameParse
  | startSearch
  | trial
  | emitShare
  | reportExhausted
  | cancelSearch
  | statusRead
  | sha256Ref
  | shareDecodeRef
deriving DecidableEq, Repr

/-- An operation with its operands (R71; frames R80, R81). A controller step has no operand: its operands are the fixed
state elements (R38). -/
inductive Instr where
  /-- `COMPRESS` 0x01 (R110) -/
  | compress (state : HashState) (block : Bytes 64)
  /-- `HASH_HEADER` 0x02 (R112) -/
  | hashHeader (header : Bytes 80)
  /-- `HASH32` 0x03 (R113) -/
  | hash32 (d1 : Bytes 32)
  /-- `DOUBLE_HASH` 0x04 (R114) -/
  | doubleHash (header : Bytes 80)
  /-- `MEETS_TARGET` 0x05 (R130) -/
  | meetsTarget (hash target : Bytes 32)
  /-- `PREP_MIDSTATE` 0x06 (R143) -/
  | prepMidstate (header : Bytes 80)
  /-- `TRIAL_DIGEST` 0x07 (R144) -/
  | trialDigest (midstate : HashState) (tail : Bytes 64) (nonce : Word)
  /-- `HEX_DECODE` 0x08 (R175): `chars` are the `2n` characters -/
  | hexDecode (chars : List Byte) (n : Nat)
  /-- `JOB_PARSE` 0x09 (R180) -/
  | jobParse (frame : List Byte)
  /-- `SHARE_ENCODE` 0x0A (R200) -/
  | shareEncode (nonce : Word) (hash : Bytes 32)
  /-- `RX_BYTE` 0x10 (R172) -/
  | rxByte
  /-- `FRAME_PARSE` 0x11 (R184, R185) -/
  | frameParse
  /-- `START_SEARCH` 0x12 (R145) -/
  | startSearch
  /-- `TRIAL` 0x13 (R147) -/
  | trial
  /-- `EMIT_SHARE` 0x14 (R151) -/
  | emitShare
  /-- `REPORT_EXHAUSTED` 0x15 (R152) -/
  | reportExhausted
  /-- `CANCEL_SEARCH` 0x16 (R153) -/
  | cancelSearch
  /-- `STATUS_READ` 0x20 (R41) -/
  | statusRead (index : Nat)
  /-- `SHA256_REF` 0xF0 (R118) -/
  | sha256Ref (message : List Byte)
  /-- `SHARE_DECODE_REF` 0xF1 (R205) -/
  | shareDecodeRef (text : List Byte)
  /-- `JOB_FRAME` (R80): the 160 header characters and the 64 target characters -/
  | jobFrame (headerHex : Bytes 160) (targetHex : Bytes 64)
  /-- `SHARE_FRAME` (R81) -/
  | shareFrame (nonce : Word) (hash : Bytes 32)
deriving DecidableEq, Repr

/-- A field of the job message, the one a `MalformedJob` names (R182, R220). -/
inductive JobField where
  | header
  | target
deriving DecidableEq, Repr

/-- Why a byte string is no operation of the block. -/
inductive DecodeError where
  /-- there is no byte at all -/
  | empty
  /-- the first byte is a reserved OPID (R72, U17) -/
  | reservedOpid (code : Byte)
  /-- the operation's operands are not all there (log 1) -/
  | truncated (op : Opid)
  /-- a status read with an index above 2 (R41, U16) -/
  | statusIndex (index : Nat)
  /-- a message length of 2^61 bytes or more (R118) -/
  | messageTooLong (length : Nat)
  /-- a job frame without the shape of R80 -/
  | badJobFrame (field : JobField)
  /-- a share frame without the shape of R81 -/
  | badShareFrame
deriving DecidableEq, Repr

end Sys2Proof
end

