-- ==== Sys2Proof/WellFormed.lean ====
section
/-! DEFINITION. Which terms of `Instr` stand for an operation the spec describes. Fixed-size operands are right by their
type; what is left is checked here. -/

namespace Sys2Proof

/-- The shape R71, R41, R80, R118 and R175 give the operands; the bounds on lengths are those of the model's command
encoding (log 1). -/
def WellFormed : Instr → Bool
  | .compress _ _ => true
  | .hashHeader _ => true
  | .hash32 _ => true
  | .doubleHash _ => true
  | .meetsTarget _ _ => true
  | .prepMidstate _ => true
  | .trialDigest _ _ _ => true
  | .hexDecode chars n => chars.length == 2 * n && decide (n < 2 ^ 32)
  | .jobParse frame => decide (frame.length < 2 ^ 16)
  | .shareEncode _ _ => true
  | .rxByte => true
  | .frameParse => true
  | .startSearch => true
  | .trial => true
  | .emitShare => true
  | .reportExhausted => true
  | .cancelSearch => true
  | .statusRead index => decide (index ≤ 2)
  | .sha256Ref message => decide (message.length < 2 ^ 61)
  | .shareDecodeRef text => decide (text.length < 2 ^ 32)
  | .jobFrame headerHex targetHex =>
    headerHex.toList.all Machine.isHexDigit && targetHex.toList.all Machine.isHexDigit
  | .shareFrame _ _ => true

end Sys2Proof
end

