-- ==== Sys2Proof/Decode.lean ====
section
/-! DEFINITION. From the bytes of a harness command or of a wire frame to an operation, and back.
The OPID bytes are 30_encoding.md R71's, the frames R80's and R81's. The spec gives operands no encoding, since no
channel of the block carries an OPID (R70): the operand bytes that follow an OPID are the model's (log 1), in the order
of R71's operand column, words big-endian, a count or length before the string it counts. -/

namespace Sys2Proof

open Machine

/-- The operation ids of R71 (opcode_table.json). -/
def opcodeTable : List (Byte × Opid) :=
  [(0x01#8, .compress), (0x02#8, .hashHeader), (0x03#8, .hash32), (0x04#8, .doubleHash), (0x05#8, .meetsTarget),
   (0x06#8, .prepMidstate), (0x07#8, .trialDigest), (0x08#8, .hexDecode), (0x09#8, .jobParse), (0x0A#8, .shareEncode),
   (0x10#8, .rxByte), (0x11#8, .frameParse), (0x12#8, .startSearch), (0x13#8, .trial), (0x14#8, .emitShare),
   (0x15#8, .reportExhausted), (0x16#8, .cancelSearch), (0x20#8, .statusRead), (0xF0#8, .sha256Ref),
   (0xF1#8, .shareDecodeRef)]

/-- The operation a byte names; none for a reserved OPID (R72). -/
def opidOf (b : Byte) : Option Opid := (opcodeTable.find? (fun row => row.1 == b)).map (·.2)

/-- An operation's OPID (R71). -/
def opidCode : Opid → Byte
  | .compress => 0x01#8
  | .hashHeader => 0x02#8
  | .hash32 => 0x03#8
  | .doubleHash => 0x04#8
  | .meetsTarget => 0x05#8
  | .prepMidstate => 0x06#8
  | .trialDigest => 0x07#8
  | .hexDecode => 0x08#8
  | .jobParse => 0x09#8
  | .shareEncode => 0x0A#8
  | .rxByte => 0x10#8
  | .frameParse => 0x11#8
  | .startSearch => 0x12#8
  | .trial => 0x13#8
  | .emitShare => 0x14#8
  | .reportExhausted => 0x15#8
  | .cancelSearch => 0x16#8
  | .statusRead => 0x20#8
  | .sha256Ref => 0xF0#8
  | .shareDecodeRef => 0xF1#8

/-! ## Operand readers -/

/-- The next `n` bytes and the rest; none if there are fewer. -/
def takeList (n : Nat) (bs : List Byte) : Option (List Byte × List Byte) :=
  if n ≤ bs.length then some (bs.take n, bs.drop n) else none

/-- The next `n` bytes as a string of that length. -/
def takeBytes (n : Nat) (bs : List Byte) : Option (Bytes n × List Byte) :=
  if h : n ≤ bs.length then some (⟨bs.take n, by simp [h]⟩, bs.drop n) else none

/-- The next four bytes as a big-endian word. -/
def takeWord : List Byte → Option (Word × List Byte)
  | b0 :: b1 :: b2 :: b3 :: r => some (be32 b0 b1 b2 b3, r)
  | _ => none

/-- The next 32 bytes as a state, word 0 first. -/
def takeState (bs : List Byte) : Option (HashState × List Byte) := do
  let (s0, bs) ← takeWord bs
  let (s1, bs) ← takeWord bs
  let (s2, bs) ← takeWord bs
  let (s3, bs) ← takeWord bs
  let (s4, bs) ← takeWord bs
  let (s5, bs) ← takeWord bs
  let (s6, bs) ← takeWord bs
  let (s7, bs) ← takeWord bs
  return (⟨s0, s1, s2, s3, s4, s5, s6, s7⟩, bs)

/-- The next `k` bytes as a big-endian number. -/
def takeNat (k : Nat) (bs : List Byte) : Option (Nat × List Byte) :=
  (takeList k bs).map fun p => (beNat p.1, p.2)

/-! ## The decoder -/

/-- The operands of an operation (R71); none where they are not all there. -/
def readOperands (op : Opid) (bs : List Byte) : Option (Instr × List Byte) :=
  match op with
  | .compress => do
    let (st, bs) ← takeState bs
    let (blk, bs) ← takeBytes 64 bs
    return (.compress st blk, bs)
  | .hashHeader => do
    let (hdr, bs) ← takeBytes 80 bs
    return (.hashHeader hdr, bs)
  | .hash32 => do
    let (d1, bs) ← takeBytes 32 bs
    return (.hash32 d1, bs)
  | .doubleHash => do
    let (hdr, bs) ← takeBytes 80 bs
    return (.doubleHash hdr, bs)
  | .meetsTarget => do
    let (hash, bs) ← takeBytes 32 bs
    let (target, bs) ← takeBytes 32 bs
    return (.meetsTarget hash target, bs)
  | .prepMidstate => do
    let (hdr, bs) ← takeBytes 80 bs
    return (.prepMidstate hdr, bs)
  | .trialDigest => do
    let (mid, bs) ← takeState bs
    let (tail, bs) ← takeBytes 64 bs
    let (n, bs) ← takeWord bs
    return (.trialDigest mid tail n, bs)
  | .hexDecode => do
    let (n, bs) ← takeNat 4 bs
    let (chars, bs) ← takeList (2 * n) bs
    return (.hexDecode chars n, bs)
  | .jobParse => do
    let (n, bs) ← takeNat 2 bs
    let (frame, bs) ← takeList n bs
    return (.jobParse frame, bs)
  | .shareEncode => do
    let (n, bs) ← takeWord bs
    let (hash, bs) ← takeBytes 32 bs
    return (.shareEncode n hash, bs)
  | .rxByte => some (.rxByte, bs)
  | .frameParse => some (.frameParse, bs)
  | .startSearch => some (.startSearch, bs)
  | .trial => some (.trial, bs)
  | .emitShare => some (.emitShare, bs)
  | .reportExhausted => some (.reportExhausted, bs)
  | .cancelSearch => some (.cancelSearch, bs)
  | .statusRead => do
    let (index, bs) ← takeNat 1 bs
    return (.statusRead index, bs)
  | .sha256Ref => do
    let (n, bs) ← takeNat 8 bs
    let (message, bs) ← takeList n bs
    return (.sha256Ref message, bs)
  | .shareDecodeRef => do
    let (n, bs) ← takeNat 4 bs
    let (text, bs) ← takeList n bs
    return (.shareDecodeRef text, bs)

/-- Operand values the spec refuses by name: a status index above 2 (R41), a message of 2^61 bytes or more (R118). -/
def checkOperands : Instr → Except DecodeError Unit
  | .statusRead index => if index ≤ 2 then .ok () else .error (.statusIndex index)
  | .sha256Ref message => if message.length < 2 ^ 61 then .ok () else .error (.messageTooLong message.length)
  | _ => .ok ()

/-- A job frame (R80): every fixed byte and every hex digit at its offset, checked in frame order (D6). -/
def decodeJobFrame (bs : List Byte) : Except DecodeError (Instr × List Byte) :=
  match Bytes.ofList? 160 (slice bs 11 160), Bytes.ofList? 64 (slice bs 183 64) with
  | none, _ => .error (.badJobFrame .header)
  | some hh, t? =>
    if ¬(slice bs 0 11 = headerMarker ∧ hh.toList.all isHexDigit ∧ slice bs 171 1 = [quote]) then
      .error (.badJobFrame .header)
    else match t? with
      | none => .error (.badJobFrame .target)
      | some th =>
        if slice bs 172 11 = targetMarker ∧ th.toList.all isHexDigit ∧ slice bs 247 2 = [quote, rbrace] then
          .ok (.jobFrame hh th, bs.drop 249)
        else .error (.badJobFrame .target)

/-- A byte is one of the lowercase hex digits an encoder prints (R81, `LHEX` of R85). -/
def isLowerHexDigit (c : Byte) : Bool :=
  match hexval c with
  | some v => hexchar v == c
  | none => false

/-- A share frame (R81): lowercase digits only. -/
def decodeShareFrame (bs : List Byte) : Except DecodeError (Instr × List Byte) :=
  if slice bs 0 10 = nonceMarker ∧ slice bs 18 10 = hashMarker ∧ slice bs 92 3 = shareEnd ∧
      (slice bs 10 8).all isLowerHexDigit ∧ (slice bs 28 64).all isLowerHexDigit then
    match hexNumber (slice bs 10 8), hexDecodePairs (slice bs 28 64) with
    | some n, some h =>
      match Bytes.ofList? 32 h with
      | some hash => .ok (.shareFrame (BitVec.ofNat 32 n) hash, bs.drop 95)
      | none => .error .badShareFrame
    | _, _ => .error .badShareFrame
  else .error .badShareFrame

/-- The operation a byte string begins with, and the bytes after it. A wire frame is known by its opening marker (R80,
R81), every other operation by its OPID (R71); `{` is no OPID, so the two never meet. -/
def decode (bs : List Byte) : Except DecodeError (Instr × List Byte) :=
  if slice bs 0 11 = headerMarker then decodeJobFrame bs
  else if slice bs 0 10 = nonceMarker then decodeShareFrame bs
  else match bs with
    | [] => .error .empty
    | b :: rest =>
      match opidOf b with
      | none => .error (.reservedOpid b)
      | some op =>
        match readOperands op rest with
        | none => .error (.truncated op)
        | some (i, rest) =>
          match checkOperands i with
          | .ok () => .ok (i, rest)
          | .error e => .error e

/-! ## The encoder -/

/-- The 32 bytes of a state, word 0 first. -/
def encodeState (s : HashState) : List Byte := (ser s).toList

/-- The bytes of an operation: the inverse of `decode` on well-formed terms. -/
def encode : Instr → List Byte
  | .compress st blk => opidCode .compress :: (encodeState st ++ blk.toList)
  | .hashHeader hdr => opidCode .hashHeader :: hdr.toList
  | .hash32 d1 => opidCode .hash32 :: d1.toList
  | .doubleHash hdr => opidCode .doubleHash :: hdr.toList
  | .meetsTarget hash target => opidCode .meetsTarget :: (hash.toList ++ target.toList)
  | .prepMidstate hdr => opidCode .prepMidstate :: hdr.toList
  | .trialDigest mid tail n => opidCode .trialDigest :: (encodeState mid ++ tail.toList ++ be32Bytes n)
  | .hexDecode chars n => opidCode .hexDecode :: (bytesBE 4 n ++ chars)
  | .jobParse frame => opidCode .jobParse :: (bytesBE 2 frame.length ++ frame)
  | .shareEncode n hash => opidCode .shareEncode :: (be32Bytes n ++ hash.toList)
  | .rxByte => [opidCode .rxByte]
  | .frameParse => [opidCode .frameParse]
  | .startSearch => [opidCode .startSearch]
  | .trial => [opidCode .trial]
  | .emitShare => [opidCode .emitShare]
  | .reportExhausted => [opidCode .reportExhausted]
  | .cancelSearch => [opidCode .cancelSearch]
  | .statusRead index => opidCode .statusRead :: bytesBE 1 index
  | .sha256Ref message => opidCode .sha256Ref :: (bytesBE 8 message.length ++ message)
  | .shareDecodeRef text => opidCode .shareDecodeRef :: (bytesBE 4 text.length ++ text)
  | .jobFrame headerHex targetHex => jobFrameText headerHex targetHex
  | .shareFrame n hash => (shareText n hash).toList

/-! ## A row of the opcode table as bytes -/

/-- The length of the longest operation of fixed length (`TRIAL_DIGEST`: OPID, 32, 64 and 4 operand bytes). -/
def longestFixed : Nat := 101

/-- `'0'`, the hex digit of a zero operand in a frame. -/
def digit0 : Byte := 0x30#8

/-- The bytes of a row of opcode_table.json whose bits are `w`, every operand zero. A row of one byte is its OPID and
zero operand bytes. The two wire-frame rows give only their opening marker, and write its first byte leftmost: the rest
of the frame is R80's or R81's fixed text with the digit `0` for every operand (log 13). -/
def layoutWord (nbits w : Nat) : List Byte :=
  let le := bytesLE (nbits / 8) w
  if le = headerMarker ∨ le.reverse = headerMarker then
    jobFrameText ⟨List.replicate 160 digit0, by simp⟩ ⟨List.replicate 64 digit0, by simp⟩
  else if le = nonceMarker ∨ le.reverse = nonceMarker then (shareText 0 (Bytes.zeros 32)).toList
  else le ++ List.replicate (longestFixed - le.length) 0#8

/-- What the decoder reads from a row of the opcode table. -/
def decodeTableWord (nbits w : Nat) : Option Instr :=
  match decode (layoutWord nbits w) with
  | .ok (i, _) => some i
  | .error _ => none

end Sys2Proof
end

