-- ==== Sys2Proof/Machine/State.lean ====
section
/-! DEFINITION. The block's state (10_state.md), its inputs, and what an observer of it sees; the reasons a step can
stop; the state after reset (R42). -/

namespace Sys2Proof.Machine

/-- `CTRL_STATE` (R21). The reserved codes 5..7 are held by no state and have no constructor (log 15). -/
inductive CtrlState where
  | idle
  | midstatePrepared
  | searching
  | found
  | exhausted
deriving DecidableEq, Repr

/-- `LAST_OUTCOME` (R32). The reserved codes 7..15 are never written and have no constructor (log 15). -/
inductive LastOutcome where
  | none
  | found
  | exhausted
  | bufferOverflow
  | malformedJob
  | transportFailure
  | cancelled
deriving DecidableEq, Repr

/-- The direction of a transport failure (R34). -/
inductive Channel where
  | rx
  | tx
deriving DecidableEq, Repr

/-- The errors of the block (R220). -/
inductive BlockError where
  | bufferOverflow
  | malformedJob (field : JobField)
  | transportFailure (channel : Channel)
deriving DecidableEq, Repr

/-- The seven controller steps (R141). -/
inductive CtrlStep where
  | rxByte
  | frameParse
  | startSearch
  | trial
  | emitShare
  | reportExhausted
  | cancelSearch
deriving DecidableEq, Repr

/-- An indexed store of bytes: cells with strictly rising indices. An index with no cell holds no value (log 8). -/
abbrev Memory := List Host.Cell

/-- The transport's answer to one `RxRead` (R55, U5). -/
inductive RxAnswer where
  | byte (b : Byte)
  | fail
deriving DecidableEq, Repr

/-- The transport's answer to one `TxWrite` (R56, U6): on `fail` the transport has received the first `received` bytes
of the string, or all of it if it is shorter (log 6). -/
inductive TxAnswer where
  | ok
  | fail (received : Nat)
deriving DecidableEq, Repr

/-- One string passed to `TxWrite`, and how many of its first bytes reached the transport (R56, R140, R250). -/
structure TxRecord where
  message : List Byte
  received : Nat
deriving DecidableEq, Repr

/-- The answer of a unit, port or reference operation: the result column of R71. -/
inductive OpResult where
  /-- `COMPRESS` -/
  | hashState (S : HashState)
  /-- `HASH_HEADER`, `HASH32`, `DOUBLE_HASH`, `TRIAL_DIGEST`, `SHA256_REF` -/
  | digest (d : Bytes 32)
  /-- `MEETS_TARGET` -/
  | bool (b : Bool)
  /-- `PREP_MIDSTATE` -/
  | midstate (mid : HashState) (tail : Bytes 64)
  /-- `HEX_DECODE` -/
  | bytes (B : List Byte)
  /-- `HEX_DECODE` answering `NOT_HEX` -/
  | notHex
  /-- `JOB_PARSE` -/
  | job (header : Bytes 80) (target : Bytes 32)
  /-- `JOB_PARSE` answering `MalformedJob(field)` -/
  | malformedJob (field : JobField)
  /-- `SHARE_ENCODE` -/
  | text (t : Bytes 95)
  /-- `STATUS_READ` -/
  | word (w : Word)
  /-- `SHARE_DECODE_REF` -/
  | share (nonce : Word) (hash : Bytes 32)
  /-- `SHARE_DECODE_REF` rejecting -/
  | reject
deriving DecidableEq, Repr

/-- What a reset does to the step it abandons (R250, U19): whether a byte the transport was delivering is lost, and how
many bytes of a share message had reached the transport. -/
structure Abandoned where
  rxLost : Bool
  txReceived : Nat
deriving DecidableEq, Repr

/-- What happens at one turn: the controller moves, or the surroundings act (R41, R37, R55, R56, R70, R250; log 3). -/
inductive Turn where
  /-- the controller takes its enabled step (R141) -/
  | controller
  /-- a harness or a status reader names an operation by its bytes (R70, R41) -/
  | command (bytes : List Byte)
  /-- a reset (R250) -/
  | reset (abandoned : Abandoned)
  /-- the environment drives the `CANCEL` level (R37) -/
  | driveCancel (level : Bool)
  /-- the transport makes an answer to a read available (R55) -/
  | rxAnswer (a : RxAnswer)
  /-- the transport makes an answer to a write available (R56) -/
  | txAnswer (a : TxAnswer)
deriving DecidableEq, Repr

/-- A state element a rule can read while it is unwritten (R42). -/
inductive Element where
  | jobTarget
  | midstate
  | tail
  | shareNonce
  | shareHash
  | rxBuf
deriving DecidableEq, Repr

/-- Why the model stops with a fault (R229). -/
inductive Fault where
  /-- A rule would read an element that is unwritten: "A model must fault on reading one (not return zero)" (R258; R11,
  R42, R229, U8 to U10). Raised by `frameComplete`'s readers (RX_BYTE, FRAME_PARSE and the controller's choice of a step),
  TRIAL, EMIT_SHARE, SHARE_FRAME. Safe: no state a run reaches raises it. -/
  | unwritten (element : Element)
deriving DecidableEq, Repr

/-- Why the model refuses (R229): the request is outside its domain and nothing is changed. -/
inductive Refusal where
  /-- An instruction that has no meaning yet. Raised by no arm of `exec`. Safe. -/
  | notModelled (mnemonic : String)
  /-- A harness command whose bytes are no operation of R71: a reserved OPID (R72, U17), a status index above 2 (U16),
  operand bytes missing, a frame not shaped as R80 or R81 say (log 1). Raised by the command turn of `step`. Safe. -/
  | undecodable (e : DecodeError)
  /-- A controller step named from outside while its guard does not hold (R72, U18). Raised by the seven steps. Safe. -/
  | guardNotHeld (op : CtrlStep)
  /-- SHARE_FRAME with another share than the one the block holds (R72, log 12). Safe. -/
  | shareNotHeld
  /-- STATUS_READ with an index above 2 (R41, U16). Safe. -/
  | statusIndex (index : Nat)
  /-- HEX_DECODE of a string that has not `2n` characters (R175, log 18). Safe. -/
  | hexLength
  /-- SHA256_REF of 2^61 bytes or more (R118, log 18). Safe. -/
  | messageTooLong
deriving DecidableEq, Repr

/-- The block and its surroundings. The first group is R252's parameters, the second R20 (a)'s persistent state, then
R20 (c)'s input; the last group is the model's own (log 2, 3, 5, 17). Transient state (R20 (b)) is local to the
operations (log 16). `none` in a buffer is the spec's own state "unwritten" (R42, log 7). -/
structure State where
  /-- `RX_BUF_LEN`, `LEAD_POLICY`, `CANCEL_HOOK` (R8, R252) -/
  params : Params
  /-- `CTRL_STATE` (R21) -/
  ctrlState : CtrlState
  /-- `JOB_VALID` (R22) -/
  jobValid : Bool
  /-- `MID_VALID` (R23) -/
  midValid : Bool
  /-- `JOB_HEADER` (R24) -/
  jobHeader : Option (Bytes 80)
  /-- `JOB_TARGET` (R24) -/
  jobTarget : Option (Bytes 32)
  /-- `JOB_SEQ` (R25) -/
  jobSeq : Word
  /-- `MIDSTATE` (R26) -/
  midstate : Option HashState
  /-- `TAIL` (R27) -/
  tail : Option (Bytes 64)
  /-- `NONCE` (R28) -/
  nonce : Word
  /-- `SHARE_NONCE` (R29) -/
  shareNonce : Option Word
  /-- `SHARE_HASH` (R29) -/
  shareHash : Option (Bytes 32)
  /-- `RXBUF` (R30) -/
  rxBuf : Memory
  /-- `RX_COUNT` (R30) -/
  rxCount : BitVec 16
  /-- `LAST_OUTCOME` (R32) -/
  lastOutcome : LastOutcome
  /-- `ERR_FIELD` (R33); none is `NONE` -/
  errField : Option JobField
  /-- `ERR_CHANNEL` (R34); none is `NONE` -/
  errChannel : Option Channel
  /-- `CANCEL` (R37) -/
  cancel : Bool
  /-- the answers to reads the transport has ready, oldest first (R55, R64) -/
  rx : List RxAnswer
  /-- the answers to writes the transport has ready, oldest first (R56) -/
  txAnswers : List TxAnswer
  /-- the writes made so far, oldest first (R56, R140) -/
  txLog : List TxRecord
  /-- the number of RX bytes consumed so far (R140) -/
  rxConsumed : Nat
  /-- the answer of the last unit, port or reference operation (R71) -/
  result : Option OpResult
  /-- the turns to come; when it is empty the controller moves (log 3) -/
  schedule : List Turn
deriving DecidableEq, Repr

/-- The state after reset of a block with these parameters (R42, R250). -/
def State.resetWith (p : Params) : State where
  params := p
  ctrlState := .idle
  jobValid := false
  midValid := false
  jobHeader := none
  jobTarget := none
  jobSeq := 0
  midstate := none
  tail := none
  nonce := 0
  shareNonce := none
  shareHash := none
  rxBuf := []
  rxCount := 0
  lastOutcome := .none
  errField := none
  errChannel := none
  cancel := false
  rx := []
  txAnswers := []
  txLog := []
  rxConsumed := 0
  result := none
  schedule := []

/-- The machine right after reset (R42), with the default parameters of R8. -/
def State.reset : State := State.resetWith Params.default

end Sys2Proof.Machine
end

