-- ==== Sys2Proof/Machine/Ops.lean ====
section
/-! DEFINITION. The named operations over the block's storage, the transport and the errors, used by every meaning. -/

namespace Sys2Proof.Machine

/-! ## Indexed storage -/

/-- The canonical form: strictly rising indices. -/
def Memory.wf : Memory → Bool
  | [] => true
  | (k, _) :: r => r.all (fun c => decide (k < c.1)) && Memory.wf r

/-- The byte at an index; none where nothing has been written. -/
def Memory.read : Memory → Nat → Option Byte
  | [], _ => none
  | (k, v) :: r, a => if k = a then some v else Memory.read r a

/-- The store with this byte at this index. -/
def Memory.write : Memory → Nat → Byte → Memory
  | [], a, v => [(a, v)]
  | (k, w) :: r, a, v =>
    if a < k then (a, v) :: (k, w) :: r
    else if a = k then (a, v) :: r
    else (k, w) :: Memory.write r a v

/-- The `n` bytes from index `a` on; none where one of them is unwritten. -/
def Memory.readFrom (m : Memory) (a : Nat) : Nat → Option (List Byte)
  | 0 => some []
  | n + 1 =>
    match Memory.read m a, Memory.readFrom m (a + 1) n with
    | some b, some r => some (b :: r)
    | _, _ => none

/-! ## The receive buffer (R30, R43) -/

/-- `frame_complete := RX_COUNT > 0 ∧ RXBUF[RX_COUNT-1] = '}'` (R43, R171); none where that byte is unwritten. -/
def frameComplete (s : State) : Option Bool :=
  if s.rxCount = 0 then some false
  else (Memory.read s.rxBuf (s.rxCount.toNat - 1)).map fun b => b == rbrace

/-- The frame `RXBUF[0..RX_COUNT-1]` (R171); none where a byte of it is unwritten. -/
def receivedFrame (s : State) : Option (List Byte) := Memory.readFrom s.rxBuf 0 s.rxCount.toNat

/-- `JOB_VALID <- 0; MID_VALID <- 0` where a frame begins (R172). -/
def beginIngestion (s : State) : State :=
  if s.rxCount = 0 then { s with jobValid := false, midValid := false } else s

/-- `RXBUF[RX_COUNT] <- b; RX_COUNT <- RX_COUNT + 1` (R172). -/
def storeRx (b : Byte) (s : State) : State :=
  { s with rxBuf := Memory.write s.rxBuf s.rxCount.toNat b, rxCount := s.rxCount + 1 }

/-! ## Transport access (R55, R56) -/

/-- `RxRead()`: the transport's answer, taken off the stream; none while it gives none (R55, R57). -/
def rxRead (s : State) : Option (RxAnswer × State) :=
  match s.rx with
  | [] => none
  | .byte b :: r => some (.byte b, { s with rx := r, rxConsumed := s.rxConsumed + 1 })
  | .fail :: r => some (.fail, { s with rx := r })

/-- How many bytes of `S` the transport has received once it has answered (R56). -/
def TxAnswer.received (a : TxAnswer) (S : List Byte) : Nat :=
  match a with
  | .ok => S.length
  | .fail k => min k S.length

/-- `TxWrite(S)`: whether it succeeded, and the state after it; none while the transport gives no answer (R56). -/
def txWrite (S : List Byte) (s : State) : Option (Bool × State) :=
  match s.txAnswers with
  | [] => none
  | a :: r =>
    some (a == .ok, { s with txAnswers := r, txLog := s.txLog ++ [⟨S, a.received S⟩] })

/-- The bytes passed to `TxWrite` so far (R140); for a write that a reset abandoned, as `abandonWrite` records it (log 17). -/
def State.txPassed (s : State) : List Byte := s.txLog.flatMap (·.message)

/-- The bytes the transport has received so far (R56). -/
def State.txWire (s : State) : List Byte := s.txLog.flatMap fun r => r.message.take r.received

/-! ## Errors (60_exceptions.md) -/

/-- The `LAST_OUTCOME` of an error (R220). -/
def BlockError.outcome : BlockError → LastOutcome
  | .bufferOverflow => .bufferOverflow
  | .malformedJob _ => .malformedJob
  | .transportFailure _ => .transportFailure

/-- The `ERR_FIELD` of an error, else `NONE` (R221). -/
def BlockError.field : BlockError → Option JobField
  | .malformedJob f => some f
  | _ => none

/-- The `ERR_CHANNEL` of an error, else `NONE` (R221). -/
def BlockError.channel : BlockError → Option Channel
  | .transportFailure c => some c
  | _ => none

/-- Taking an error, `raise E(info)` (R221): outcome, field and channel recorded, the partial frame discarded, the
controller back in `IDLE`. What the step wrote before stands. Nothing is saved and there is no return (R228): the next
step is `RX_BYTE`. -/
def raiseError (e : BlockError) (s : State) : State :=
  { s with
    lastOutcome := e.outcome
    errField := e.field
    errChannel := e.channel
    rxCount := 0
    ctrlState := .idle }

/-! ## Step selection (R141) -/

/-- The one enabled controller step (R141); none where the choice would read an unwritten byte of `RXBUF`. -/
def selectStep (s : State) : Option CtrlStep :=
  match s.ctrlState with
  | .idle => (frameComplete s).map fun c => if c then .frameParse else .rxByte
  | .midstatePrepared => some .startSearch
  | .searching =>
    if s.params.cancelHook = .present ∧ s.cancel = true then some .cancelSearch else some .trial
  | .found => some .emitShare
  | .exhausted => some .reportExhausted

/-- A controller step runs where it is the enabled one; named from outside where it is not, it is refused (R72, U18). Where
the choice would read an unwritten byte of `RXBUF` only the two steps whose guard is `frame_complete` (R172, R184) read it,
and fault (R258, R229). -/
def guarded (c : CtrlStep) (s : State) (body : Host.Outcome State Fault Refusal) :
    Host.Outcome State Fault Refusal :=
  match selectStep s with
  | none => if c = .rxByte ∨ c = .frameParse then .fault (.unwritten .rxBuf) else .refused (.guardNotHeld c)
  | some d => if d = c then body else .refused (.guardNotHeld c)

/-- The answer of a unit, port or reference operation: it changes nothing else (R70, R116, R41). -/
def answer (r : OpResult) (s : State) : State := { s with result := some r }

/-! ## The surroundings (R37, R55, R56, R250) -/

/-- The environment drives `CANCEL` (R37); the input does not exist without the hook (log 9). -/
def driveCancel (level : Bool) (s : State) : State :=
  { s with cancel := if s.params.cancelHook = .present then level else s.cancel }

/-- The transport has one more answer to a read. -/
def offerRx (answers : List RxAnswer) (s : State) : State := { s with rx := s.rx ++ answers }

/-- The transport has one more answer to a write. -/
def offerTx (a : TxAnswer) (s : State) : State := { s with txAnswers := s.txAnswers ++ [a] }

/-- What a reset leaves of an abandoned `RX_BYTE`: the byte the transport was delivering may be lost; the block keeps
none (R250, log 10). DESIGN CHOICE (log 10, log 17): whether a byte lost so counts among R140's RX bytes consumed the spec does
not say; here it leaves the stream and is not counted (`resetEvent` keeps `rxConsumed`). -/
def abandonRead (lost : Bool) (s : State) : List RxAnswer :=
  if lost = true ∧ selectStep s = some .rxByte then s.rx.tail else s.rx

/-- What a reset leaves of an abandoned `EMIT_SHARE`: any prefix of its message may have reached the transport (R250,
U19, log 10). DESIGN CHOICE (log 10, log 17): whether that write counts among R140's bytes passed to `TxWrite` the spec does
not say; here no message is recorded where 0 bytes arrived, and the whole 95-byte message as passed, with the prefix as what
arrived, where 1 byte or more did. -/
def abandonWrite (received : Nat) (s : State) : List TxRecord :=
  match s.ctrlState, s.shareNonce, s.shareHash with
  | .found, some n, some h =>
    if received = 0 then s.txLog
    else s.txLog ++ [⟨(shareText n h).toList, min received (shareText n h).toList.length⟩]
  | _, _, _ => s.txLog

/-- A reset (R250): every state element takes its value of R42; parameters, inputs and what has been observed stay. DESIGN
CHOICE (log 10, log 17): `rxConsumed` stays as it was also where the abandoned `RX_BYTE` loses a byte, and `txLog` is as
`abandonWrite` says. -/
def resetEvent (a : Abandoned) (s : State) : State :=
  { State.resetWith s.params with
    cancel := s.cancel
    rx := abandonRead a.rxLost s
    txAnswers := s.txAnswers
    txLog := abandonWrite a.txReceived s
    rxConsumed := s.rxConsumed
    result := s.result
    schedule := s.schedule }

end Sys2Proof.Machine
end

