-- ==== Sys2Proof/Machine/Comparator.lean ====
section
/-! DEFINITION. The Target Comparator (41_comparator.md): `MEETS_TARGET`. -/

namespace Sys2Proof.Machine

/-- The scan of R130 over pairs (hash byte, target byte), the highest index first: the first difference decides, equality
is accepted. -/
def scanDown : List (Byte × Byte) → Bool
  | [] => true
  | (h, t) :: r => if h ≠ t then decide (h.toNat < t.toNat) else scanDown r

/-- `MEETS_TARGET(hash, target)` (R130): index 31 down to 0 (R132). -/
def meetsTarget (hash target : Bytes 32) : Bool := scanDown (hash.toList.zip target.toList).reverse

/-- `MEETS_TARGET` (R130). -/
def execMeetsTarget (hash target : Bytes 32) (s : State) : Host.Outcome State Fault Refusal :=
  .next (answer (.bool (meetsTarget hash target)) s)

end Sys2Proof.Machine
end

