-- ==== Sys2Proof/Machine/HashEngine.lean ====
section
/-! DEFINITION. The Hash Engine (40_hash_engine.md): SHA-256's compression, the header double hash, the general
reference function, and the meanings of `COMPRESS`, `HASH_HEADER`, `HASH32`, `DOUBLE_HASH`, `SHA256_REF`. -/

namespace Sys2Proof.Machine

/-! ## Constants -/

/-- `H0` (R101). -/
def h0 : HashState :=
  ⟨0x6a09e667, 0xbb67ae85, 0x3c6ef372, 0xa54ff53a, 0x510e527f, 0x9b05688c, 0x1f83d9ab, 0x5be0cd19⟩

/-- `K[0..63]` (R102), row by row. -/
def roundConstants : List Word :=
  [0x428a2f98, 0x71374491, 0xb5c0fbcf, 0xe9b5dba5, 0x3956c25b, 0x59f111f1, 0x923f82a4, 0xab1c5ed5] ++
  [0xd807aa98, 0x12835b01, 0x243185be, 0x550c7dc3, 0x72be5d74, 0x80deb1fe, 0x9bdc06a7, 0xc19bf174] ++
  [0xe49b69c1, 0xefbe4786, 0x0fc19dc6, 0x240ca1cc, 0x2de92c6f, 0x4a7484aa, 0x5cb0a9dc, 0x76f988da] ++
  [0x983e5152, 0xa831c66d, 0xb00327c8, 0xbf597fc7, 0xc6e00bf3, 0xd5a79147, 0x06ca6351, 0x14292967] ++
  [0x27b70a85, 0x2e1b2138, 0x4d2c6dfc, 0x53380d13, 0x650a7354, 0x766a0abb, 0x81c2c92e, 0x92722c85] ++
  [0xa2bfe8a1, 0xa81a664b, 0xc24b8b70, 0xc76c51a3, 0xd192e819, 0xd6990624, 0xf40e3585, 0x106aa070] ++
  [0x19a4c116, 0x1e376c08, 0x2748774c, 0x34b0bcb5, 0x391c0cb3, 0x4ed8aa4a, 0x5b9cca4f, 0x682e6ff3] ++
  [0x748f82ee, 0x78a5636f, 0x84c87814, 0x8cc70208, 0x90befffa, 0xa4506ceb, 0xbef9a3f7, 0xc67178f2]

/-! ## Logical functions (R10, R103 to R105) -/

/-- `ROTR` (R10). -/
def rotr (x : Word) (n : Nat) : Word := (x >>> n) ||| (x <<< (32 - n))

/-- `Ch` (R103). -/
def ch (x y z : Word) : Word := (x &&& y) ^^^ (~~~x &&& z)

/-- `Maj` (R103). -/
def maj (x y z : Word) : Word := (x &&& y) ^^^ (x &&& z) ^^^ (y &&& z)

/-- `Σ0` (R104). -/
def bigSigma0 (x : Word) : Word := rotr x 2 ^^^ rotr x 13 ^^^ rotr x 22

/-- `Σ1` (R104). -/
def bigSigma1 (x : Word) : Word := rotr x 6 ^^^ rotr x 11 ^^^ rotr x 25

/-- `σ0` (R105). -/
def smallSigma0 (x : Word) : Word := rotr x 7 ^^^ rotr x 18 ^^^ (x >>> 3)

/-- `σ1` (R105). -/
def smallSigma1 (x : Word) : Word := rotr x 17 ^^^ rotr x 19 ^^^ (x >>> 10)

/-! ## Compression (R106 to R110) -/

/-- The next schedule word `W[t]` from the words before it, newest first: `W[t-2]`, `W[t-7]`, `W[t-15]`, `W[t-16]`
stand at places 1, 6, 14, 15 (R107). -/
def nextScheduleWord (w : List Word) : Word :=
  smallSigma1 (w.getD 1 0) + w.getD 6 0 + smallSigma0 (w.getD 14 0) + w.getD 15 0

/-- `n` more schedule words, newest first (R107). -/
def extendSchedule : Nat → List Word → List Word
  | 0, w => w
  | n + 1, w => extendSchedule n (nextScheduleWord w :: w)

/-- The message schedule `W[0..63]` of a block (R106, R107). -/
def messageSchedule (B : Bytes 64) : List Word := (extendSchedule 48 (wordsBE B.toList).reverse).reverse

/-- One round (R108) on the working variables `a..h` (here `s0..s7`), with `K[t]` and `W[t]`. -/
def compressRound (v : HashState) (kw : Word × Word) : HashState :=
  let t1 := v.s7 + bigSigma1 v.s4 + ch v.s4 v.s5 v.s6 + kw.1 + kw.2
  let t2 := bigSigma0 v.s0 + maj v.s0 v.s1 v.s2
  ⟨t1 + t2, v.s0, v.s1, v.s2, v.s3 + t1, v.s4, v.s5, v.s6⟩

/-- The working variables after the 64 rounds (R108). -/
def rounds (S : HashState) (B : Bytes 64) : HashState := (roundConstants.zip (messageSchedule B)).foldl compressRound S

/-- The feed-forward: addition word by word (R109). -/
def feedForward (S v : HashState) : HashState :=
  ⟨S.s0 + v.s0, S.s1 + v.s1, S.s2 + v.s2, S.s3 + v.s3, S.s4 + v.s4, S.s5 + v.s5, S.s6 + v.s6, S.s7 + v.s7⟩

/-- `COMPRESS(S, B)` (R110). -/
def compress (S : HashState) (B : Bytes 64) : HashState := feedForward S (rounds S B)

/-! ## The two fixed message shapes -/

/-- `HASH_HEADER` (R112): pass 1. -/
def hashHeader (hdr : Bytes 80) : Bytes 32 := ser (compress (compress h0 (blk1 hdr)) (blk2 hdr))

/-- `HASH32` (R113): pass 2. -/
def hash32 (d1 : Bytes 32) : Bytes 32 := ser (compress h0 (blk3 d1))

/-- `DOUBLE_HASH` (R114). -/
def doubleHash (hdr : Bytes 80) : Bytes 32 := hash32 (hashHeader hdr)

/-! ## The reference function (R118) -/

/-- `z`, the least number of zero bytes that fills the last block (R118). -/
def padZeros (len : Nat) : Nat := (119 - len % 64) % 64

/-- `P`, the padded message (R118). -/
def padMessage (M : List Byte) : List Byte :=
  M ++ [0x80#8] ++ List.replicate (padZeros M.length) 0#8 ++ be64Bytes (8 * M.length)

/-- The 64 bytes of `P` from its start; a string of another length than a block's is filled with zeros, which never
happens to a padded message. -/
def firstBlock (P : List Byte) : Bytes 64 :=
  ⟨P.take 64 ++ List.replicate (64 - P.length) 0#8, by simp; omega⟩

/-- `n` blocks of `P` compressed in order (R118). -/
def compressBlocks : Nat → HashState → List Byte → HashState
  | 0, S, _ => S
  | n + 1, S, P => compressBlocks n (compress S (firstBlock P)) (P.drop 64)

/-- `SHA256_REF` (R118). -/
def sha256Ref (M : List Byte) : Bytes 32 :=
  let P := padMessage M
  ser (compressBlocks (P.length / 64) h0 P)

/-! ## Meanings -/

/-- `COMPRESS` (R110). -/
def execCompress (S : HashState) (B : Bytes 64) (s : State) : Host.Outcome State Fault Refusal :=
  .next (answer (.hashState (compress S B)) s)

/-- `HASH_HEADER` (R112). -/
def execHashHeader (hdr : Bytes 80) (s : State) : Host.Outcome State Fault Refusal :=
  .next (answer (.digest (hashHeader hdr)) s)

/-- `HASH32` (R113). -/
def execHash32 (d1 : Bytes 32) (s : State) : Host.Outcome State Fault Refusal :=
  .next (answer (.digest (hash32 d1)) s)

/-- `DOUBLE_HASH` (R114). -/
def execDoubleHash (hdr : Bytes 80) (s : State) : Host.Outcome State Fault Refusal :=
  .next (answer (.digest (doubleHash hdr)) s)

/-- `SHA256_REF` (R118), for messages below 2^61 bytes. -/
def execSha256Ref (M : List Byte) (s : State) : Host.Outcome State Fault Refusal :=
  if M.length < 2 ^ 61 then .next (answer (.digest (sha256Ref M)) s) else .refused .messageTooLong

end Sys2Proof.Machine
end

