-- ==== Sys2Proof/Machine/SearchController.lean ====
section
/-! DEFINITION. The nonce search (42_search_controller.md): `PREP_MIDSTATE`, `TRIAL_DIGEST`, `START_SEARCH`, `TRIAL`,
`REPORT_EXHAUSTED`, `CANCEL_SEARCH`. -/

namespace Sys2Proof.Machine

/-- `PREP_MIDSTATE(hdr)` (R143). -/
def prepMidstate (hdr : Bytes 80) : HashState × Bytes 64 := (compress h0 (blk1 hdr), blk2 hdr)

/-- `TRIAL_DIGEST(mid, tail, n)` (R144): the midstate is read, never written (R255). -/
def trialDigest (mid : HashState) (tail : Bytes 64) (n : Word) : Bytes 32 :=
  hash32 (ser (compress mid (setTailNonce tail n)))

/-- The last nonce, 0xFFFFFFFF (R7). -/
def lastNonce : Word := 0xFFFFFFFF

/-- What a trial's digest decides (R147): found, exhausted, or the next nonce. -/
def endTrial (d : Bytes 32) (hit : Bool) (s : State) : State :=
  if hit then { s with shareNonce := some s.nonce, shareHash := some d, ctrlState := .found }
  else if s.nonce = lastNonce then { s with ctrlState := .exhausted }
  else { s with nonce := s.nonce + 1 }

/-! ## Meanings -/

/-- `PREP_MIDSTATE` (R143), as a unit function: it answers and writes no register (R70). -/
def execPrepMidstate (hdr : Bytes 80) (s : State) : Host.Outcome State Fault Refusal :=
  .next (answer (.midstate (prepMidstate hdr).1 (prepMidstate hdr).2) s)

/-- `TRIAL_DIGEST` (R144). -/
def execTrialDigest (mid : HashState) (tail : Bytes 64) (n : Word) (s : State) :
    Host.Outcome State Fault Refusal :=
  .next (answer (.digest (trialDigest mid tail n)) s)

/-- `START_SEARCH` (R145). -/
def execStartSearch (s : State) : Host.Outcome State Fault Refusal :=
  guarded .startSearch s (.next { s with nonce := 0, ctrlState := .searching })

/-- `TRIAL` (R147). -/
def execTrial (s : State) : Host.Outcome State Fault Refusal :=
  guarded .trial s <|
    match s.tail, s.midstate, s.jobTarget with
    | none, _, _ => .fault (.unwritten .tail)
    | _, none, _ => .fault (.unwritten .midstate)
    | _, _, none => .fault (.unwritten .jobTarget)
    | some tail, some mid, some tgt =>
      let tail := setTailNonce tail s.nonce
      let d := trialDigest mid tail s.nonce
      .next (endTrial d (meetsTarget d tgt) { s with tail := some tail })

/-- `REPORT_EXHAUSTED` (R152). -/
def execReportExhausted (s : State) : Host.Outcome State Fault Refusal :=
  guarded .reportExhausted s (.next { s with lastOutcome := .exhausted, ctrlState := .idle })

/-- `CANCEL_SEARCH` (R153). -/
def execCancelSearch (s : State) : Host.Outcome State Fault Refusal :=
  guarded .cancelSearch s (.next { s with lastOutcome := .cancelled, ctrlState := .idle })

end Sys2Proof.Machine
end

