-- ==== Sys2Proof/Machine/JobParser.lean ====
section
/-! DEFINITION. The job ingestion parser (43_job_parser.md): `HEX_DECODE`, `JOB_PARSE`, `RX_BYTE`, `FRAME_PARSE`. -/

namespace Sys2Proof.Machine

/-- `HEX_DECODE(C, n)` (R175): none is `NOT_HEX`. -/
def hexDecode (C : List Byte) (n : Nat) : Option (Bytes n) :=
  match hexDecodePairs C with
  | some out => Bytes.ofList? n out
  | none => none

/-- The least place at which the header marker stands (R176, `SKIP`). -/
def findHeaderMarker : List Byte → Option Nat
  | [] => none
  | b :: r => if slice (b :: r) 0 11 = headerMarker then some 0 else (findHeaderMarker r).map (· + 1)

/-- Where the header marker is (R176), by `LEAD_POLICY`. -/
def locateHeader (p : LeadPolicy) (F : List Byte) : Option Nat :=
  match p with
  | .strict => if slice F 0 11 = headerMarker then some 0 else none
  | .skip => findHeaderMarker F

/-- The target part of R180, once the header part has decoded to `hdr` (R178, R179). -/
def parseTarget (F : List Byte) (m : Nat) (hdr : Bytes 80) : Except JobField (Bytes 80 × Bytes 32) :=
  if ¬(m + 183 ≤ F.length) ∨ slice F (m + 172) 11 ≠ targetMarker then .error .target
  else if ¬(m + 249 ≤ F.length) then .error .target
  else match hexDecode (slice F (m + 183) 64) 32 with
    | none => .error .target
    | some tgt =>
      if slice F (m + 247) 1 ≠ [quote] ∨ slice F (m + 248) 1 ≠ [rbrace] then .error .target
      else .ok (hdr, tgt)

/-- `JOB_PARSE(F, n)` (R180): the checks in the spec's order, the first failure naming the field (R182). -/
def jobParse (p : LeadPolicy) (F : List Byte) : Except JobField (Bytes 80 × Bytes 32) :=
  match locateHeader p F with
  | none => .error .header
  | some m =>
    if ¬(m + 172 ≤ F.length) then .error .header
    else match hexDecode (slice F (m + 11) 160) 80 with
      | none => .error .header
      | some hdr => if slice F (m + 171) 1 ≠ [quote] then .error .header else parseTarget F m hdr

/-- What `RX_BYTE` does with the byte it has read (R172): store it, and overflow where the buffer is full with no `}`
(R222). -/
def ingestByte (b : Byte) (s : State) : State :=
  let s := storeRx b s
  if b ≠ rbrace ∧ s.rxCount.toNat = s.params.rxBufLen then raiseError .bufferOverflow s else s

/-- The success arm of `FRAME_PARSE` (R185). -/
def acceptJob (hdr : Bytes 80) (tgt : Bytes 32) (s : State) : State :=
  let (mid, tail) := prepMidstate hdr
  { s with
    jobHeader := some hdr
    jobTarget := some tgt
    jobSeq := s.jobSeq + 1
    jobValid := true
    midstate := some mid
    tail := some tail
    midValid := true
    lastOutcome := .none
    errField := none
    errChannel := none
    rxCount := 0
    ctrlState := .midstatePrepared }

/-! ## Meanings -/

/-- `HEX_DECODE` (R175). -/
def execHexDecode (C : List Byte) (n : Nat) (s : State) : Host.Outcome State Fault Refusal :=
  if C.length = 2 * n then
    match hexDecode C n with
    | some out => .next (answer (.bytes out.toList) s)
    | none => .next (answer .notHex s)
  else .refused .hexLength

/-- `JOB_PARSE` (R180), under the block's `LEAD_POLICY`. -/
def execJobParse (F : List Byte) (s : State) : Host.Outcome State Fault Refusal :=
  match jobParse s.params.leadPolicy F with
  | .ok (hdr, tgt) => .next (answer (.job hdr tgt) s)
  | .error f => .next (answer (.malformedJob f) s)

/-- `RX_BYTE` (R172). While the transport gives no answer the block waits and nothing changes (R55, R237). -/
def execRxByte (s : State) : Host.Outcome State Fault Refusal :=
  guarded .rxByte s <|
    match rxRead (beginIngestion s) with
    | none => .next s
    | some (.fail, t) => .next (raiseError (.transportFailure .rx) t)
    | some (.byte b, t) => .next (ingestByte b t)

/-- `FRAME_PARSE` (R184, R185). -/
def execFrameParse (s : State) : Host.Outcome State Fault Refusal :=
  guarded .frameParse s <|
    match receivedFrame s with
    | none => .fault (.unwritten .rxBuf)
    | some F =>
      match jobParse s.params.leadPolicy F with
      | .error f => .next (raiseError (.malformedJob f) s)
      | .ok (hdr, tgt) => .next (acceptJob hdr tgt s)

end Sys2Proof.Machine
end

