-- ==== Sys2Proof/Machine/ShareEncoder.lean ====
section
/-! DEFINITION. The share encoder (44_share_encoder.md): `SHARE_ENCODE`, the reference decoder `SHARE_DECODE_REF`, and the
step that hands the share to the transport, `EMIT_SHARE` (42_search_controller.md R151). -/

namespace Sys2Proof.Machine

/-- `SHARE_ENCODE(n, hash)` (R200). -/
def shareEncode (n : Word) (hash : Bytes 32) : Bytes 95 := shareText n hash

/-- `SHARE_DECODE_REF(S)` (R205): none is `reject`. -/
def shareDecodeRef (S : List Byte) : Option (Word × Bytes 32) :=
  if S.length = 95 ∧ slice S 0 10 = nonceMarker ∧ slice S 18 10 = hashMarker ∧ slice S 92 3 = shareEnd then
    match hexNumber (slice S 10 8), hexDecodePairs (slice S 28 64) with
    | some n, some h => (Bytes.ofList? 32 h).map fun hash => (BitVec.ofNat 32 n, hash)
    | _, _ => none
  else none

/-- What follows the transport's answer to the share (R151): the share is not retained, and the job cycle ends in `FOUND`
or in `TransportFailure(TX)` (R224). -/
def endEmission (ok : Bool) (s : State) : State :=
  let s := { s with shareNonce := none, shareHash := none }
  if ok then { s with lastOutcome := .found, ctrlState := .idle }
  else raiseError (.transportFailure .tx) s

/-- The body of `EMIT_SHARE` (R151). While the transport gives no answer the block waits and nothing changes (R56). -/
def emitHeldShare (s : State) : Host.Outcome State Fault Refusal :=
  match s.shareNonce, s.shareHash with
  | none, _ => .fault (.unwritten .shareNonce)
  | _, none => .fault (.unwritten .shareHash)
  | some n, some h =>
    match txWrite (shareEncode n h).toList s with
    | none => .next s
    | some (ok, t) => .next (endEmission ok t)

/-! ## Meanings -/

/-- `SHARE_ENCODE` (R200). -/
def execShareEncode (n : Word) (hash : Bytes 32) (s : State) : Host.Outcome State Fault Refusal :=
  .next (answer (.text (shareEncode n hash)) s)

/-- `SHARE_DECODE_REF` (R205). -/
def execShareDecodeRef (S : List Byte) (s : State) : Host.Outcome State Fault Refusal :=
  match shareDecodeRef S with
  | some (n, hash) => .next (answer (.share n hash) s)
  | none => .next (answer .reject s)

/-- `EMIT_SHARE` (R151). -/
def execEmitShare (s : State) : Host.Outcome State Fault Refusal := guarded .emitShare s (emitHeldShare s)

end Sys2Proof.Machine
end

