-- ==== Sys2Proof/Machine/WireFrames.lean ====
section
/-! DEFINITION. The two wire frames as operations (30_encoding.md R80, R81): `JOB_FRAME`, `SHARE_FRAME`. -/

namespace Sys2Proof.Machine

/-- `JOB_FRAME` (R80): the host puts the 249 bytes of the frame on the transport's RX stream, behind what waits there. The
block takes them one `RX_BYTE` at a time, while it is in `IDLE` (R64, R172; log 11). -/
def execJobFrame (headerHex : Bytes 160) (targetHex : Bytes 64) (s : State) : Host.Outcome State Fault Refusal :=
  .next (offerRx ((jobFrameText headerHex targetHex).map .byte) s)

/-- `SHARE_FRAME` (R81): the one write of a share frame, made by `EMIT_SHARE` and by nothing else (R56, R201). Named with a
nonce and a hash, it is enabled where the block holds that share (R72, log 12). -/
def execShareFrame (n : Word) (hash : Bytes 32) (s : State) : Host.Outcome State Fault Refusal :=
  guarded .emitShare s <|
    match s.shareNonce, s.shareHash with
    | some m, some h => if m = n ∧ h = hash then emitHeldShare s else .refused .shareNotHeld
    | none, _ => .fault (.unwritten .shareNonce)
    | _, none => .fault (.unwritten .shareHash)

end Sys2Proof.Machine
end

