-- ==== Sys2Proof/Machine/Control.lean ====
section
/-! DEFINITION. How an operation comes to run: the controller's own step (R141), a command of the harness (R70), and how
the host places an operation so that the next step runs it (log 14). -/

namespace Sys2Proof.Machine

/-- The operation of a controller step (R141). -/
def CtrlStep.instr : CtrlStep → Instr
  | .rxByte => .rxByte
  | .frameParse => .frameParse
  | .startSearch => .startSearch
  | .trial => .trial
  | .emitShare => .emitShare
  | .reportExhausted => .reportExhausted
  | .cancelSearch => .cancelSearch

/-- The operation a turn runs: the controller's enabled step. -/
def fetchStep (s : State) : Except Fault Instr :=
  match selectStep s with
  | some c => .ok c.instr
  | none => .error (.unwritten .rxBuf)

/-- The operation a harness command names; bytes after its operands are ignored (log 1). -/
def fetchCommand (bs : List Byte) : Except Refusal Instr :=
  match decode bs with
  | .ok (i, _) => .ok i
  | .error e => .error (.undecodable e)

/-- The state with a job of zeros in its search registers where they are unwritten, as an accepted job leaves them. -/
def withSearchData (s : State) : State :=
  { s with
    jobValid := true
    midValid := true
    jobHeader := some (s.jobHeader.getD (Bytes.zeros 80))
    jobTarget := some (s.jobTarget.getD (Bytes.zeros 32))
    midstate := some (s.midstate.getD (prepMidstate (Bytes.zeros 80)).1)
    tail := some (s.tail.getD (prepMidstate (Bytes.zeros 80)).2) }

/-- The state with a share to emit and an answer of the transport to it. -/
def withShare (n : Word) (h : Bytes 32) (s : State) : State :=
  { s with
    ctrlState := .found
    shareNonce := some n
    shareHash := some h
    txAnswers := if s.txAnswers = [] then [.ok] else s.txAnswers }

/-- The selection under which an operation is the one the controller would take (R141), and the input it waits for; a unit
operation needs none (log 14). -/
def prepareFor (i : Instr) (s : State) : State :=
  match i with
  | .rxByte => { s with ctrlState := .idle, rxCount := 0, rx := if s.rx = [] then [.byte 0#8] else s.rx }
  | .frameParse => { s with ctrlState := .idle, rxBuf := Memory.write s.rxBuf 0 rbrace, rxCount := 1 }
  | .startSearch => { withSearchData s with ctrlState := .midstatePrepared }
  | .trial => { withSearchData s with ctrlState := .searching, cancel := false }
  | .emitShare => withShare (s.shareNonce.getD 0) (s.shareHash.getD (Bytes.zeros 32)) s
  | .shareFrame n h => withShare n h s
  | .reportExhausted => { s with ctrlState := .exhausted, nonce := lastNonce }
  | .cancelSearch =>
    { withSearchData s with
      ctrlState := .searching
      cancel := true
      params := { s.params with cancelHook := .present } }
  | _ => s

/-- The operation of an opcode-table row placed so that the very next step runs it: its bytes as the next harness command,
and the selection it needs. -/
def placeWord (nbits w : Nat) (s : State) : State :=
  let t := match decodeTableWord nbits w with
    | some i => prepareFor i s
    | none => s
  { t with schedule := .command (layoutWord nbits w) :: s.schedule }

end Sys2Proof.Machine
end

