-- ==== Sys2Proof/Machine/Flags.lean ====
section
/-! DEFINITION. Status: the numeric codes of the coded registers (R21, R32 to R34), the status words of the port (R40)
and their reading back. The block's only flags are `JOB_VALID` and `MID_VALID` (R43); no operation sets a condition
code. -/

namespace Sys2Proof.Machine

/-- The code of `CTRL_STATE` (R21). -/
def CtrlState.code : CtrlState → BitVec 3
  | .idle => 0
  | .midstatePrepared => 1
  | .searching => 2
  | .found => 3
  | .exhausted => 4

/-- The code of `LAST_OUTCOME` (R32). -/
def LastOutcome.code : LastOutcome → BitVec 4
  | .none => 0
  | .found => 1
  | .exhausted => 2
  | .bufferOverflow => 3
  | .malformedJob => 4
  | .transportFailure => 5
  | .cancelled => 6

/-- The code of `ERR_FIELD` (R33). -/
def errFieldCode : Option JobField → BitVec 2
  | none => 0
  | some .header => 1
  | some .target => 2

/-- The code of `ERR_CHANNEL` (R34). -/
def errChannelCode : Option Channel → BitVec 2
  | none => 0
  | some .rx => 1
  | some .tx => 2

/-- The `CTRL_STATE` of a code; none for the reserved codes 5..7 (U13). -/
def CtrlState.ofCode? (c : BitVec 3) : Option CtrlState :=
  [CtrlState.idle, .midstatePrepared, .searching, .found, .exhausted].find? fun x => x.code == c

/-- The `LAST_OUTCOME` of a code; none for the reserved codes 7..15 (U14). -/
def LastOutcome.ofCode? (c : BitVec 4) : Option LastOutcome :=
  [LastOutcome.none, .found, .exhausted, .bufferOverflow, .malformedJob, .transportFailure, .cancelled].find?
    fun x => x.code == c

/-- The `ERR_FIELD` of a code; none for the reserved code 3 (U14). -/
def errFieldOfCode? (c : BitVec 2) : Option (Option JobField) :=
  [none, some .header, some .target].find? fun x => errFieldCode x == c

/-- The `ERR_CHANNEL` of a code; none for the reserved code 3 (U14). -/
def errChannelOfCode? (c : BitVec 2) : Option (Option Channel) :=
  [none, some .rx, some .tx].find? fun x => errChannelCode x == c

/-- Word 0 of the status port, `STATUS` (R40): from bit 31 down `RX_COUNT`, `ERR_CHANNEL`, `ERR_FIELD`,
`LAST_OUTCOME`, three reserved bits that read 0 (U15), `MID_VALID`, `JOB_VALID`, `CTRL_STATE`. -/
def statusWord (s : State) : Word :=
  s.rxCount ++ errChannelCode s.errChannel ++ errFieldCode s.errField ++ s.lastOutcome.code ++ 0#3 ++
    BitVec.ofBool s.midValid ++ BitVec.ofBool s.jobValid ++ s.ctrlState.code

/-- The word a status read of this index returns (R40); none for an index above 2 (R41). -/
def statusPort (index : Nat) (s : State) : Option Word :=
  match index with
  | 0 => some (statusWord s)
  | 1 => some s.jobSeq
  | 2 => some s.nonce
  | _ => none

/-- The fields of `STATUS` (R40). -/
structure StatusFields where
  ctrlState : CtrlState
  jobValid : Bool
  midValid : Bool
  lastOutcome : LastOutcome
  errField : Option JobField
  errChannel : Option Channel
  rxCount : BitVec 16
deriving DecidableEq, Repr

/-- What a `STATUS` word says; none where a field holds a reserved code (U13, U14) or a reserved bit is 1 (U15). -/
def readStatus (w : Word) : Option StatusFields :=
  match CtrlState.ofCode? (w.extractLsb' 0 3), LastOutcome.ofCode? (w.extractLsb' 8 4),
    errFieldOfCode? (w.extractLsb' 12 2), errChannelOfCode? (w.extractLsb' 14 2) with
  | some c, some o, some f, some ch =>
    if w.extractLsb' 5 3 = 0 then
      some ⟨c, w.getLsbD 3, w.getLsbD 4, o, f, ch, w.extractLsb' 16 16⟩
    else none
  | _, _, _, _ => none

end Sys2Proof.Machine
end

