-- ==== Sys2Proof/Machine/StatusPort.lean ====
section
/-! DEFINITION. The read-only status port (10_state.md R40, R41): `STATUS_READ`. -/

namespace Sys2Proof.Machine

/-- `STATUS_READ(i)` (R41): it answers the word and changes no state of the block; an index above 2 is refused (U16). -/
def execStatusRead (index : Nat) (s : State) : Host.Outcome State Fault Refusal :=
  match statusPort index s with
  | some w => .next (answer (.word w) s)
  | none => .refused (.statusIndex index)

end Sys2Proof.Machine
end

