-- ==== Sys2Proof/Machine/Dispatch.lean ====
section
/-! DEFINITION. One arm per operation of opcode_table.json, each one call of its meaning. -/

namespace Sys2Proof.Machine

def exec (i : Instr) (s : State) : Host.Outcome State Fault Refusal :=
  match i with
  -- unit functions
  | .compress st blk => Sys2Proof.Machine.execCompress st blk s
  | .hashHeader hdr => Sys2Proof.Machine.execHashHeader hdr s
  | .hash32 d1 => Sys2Proof.Machine.execHash32 d1 s
  | .doubleHash hdr => Sys2Proof.Machine.execDoubleHash hdr s
  | .meetsTarget hash target => Sys2Proof.Machine.execMeetsTarget hash target s
  | .prepMidstate hdr => Sys2Proof.Machine.execPrepMidstate hdr s
  | .trialDigest mid tail n => Sys2Proof.Machine.execTrialDigest mid tail n s
  | .hexDecode chars n => Sys2Proof.Machine.execHexDecode chars n s
  | .jobParse frame => Sys2Proof.Machine.execJobParse frame s
  | .shareEncode n hash => Sys2Proof.Machine.execShareEncode n hash s
  -- controller steps
  | .rxByte => Sys2Proof.Machine.execRxByte s
  | .frameParse => Sys2Proof.Machine.execFrameParse s
  | .startSearch => Sys2Proof.Machine.execStartSearch s
  | .trial => Sys2Proof.Machine.execTrial s
  | .emitShare => Sys2Proof.Machine.execEmitShare s
  | .reportExhausted => Sys2Proof.Machine.execReportExhausted s
  | .cancelSearch => Sys2Proof.Machine.execCancelSearch s
  -- status port
  | .statusRead index => Sys2Proof.Machine.execStatusRead index s
  -- reference functions
  | .sha256Ref message => Sys2Proof.Machine.execSha256Ref message s
  | .shareDecodeRef text => Sys2Proof.Machine.execShareDecodeRef text s
  -- wire frames
  | .jobFrame headerHex targetHex => Sys2Proof.Machine.execJobFrame headerHex targetHex s
  | .shareFrame n hash => Sys2Proof.Machine.execShareFrame n hash s

end Sys2Proof.Machine
end

