-- ==== Sys2Proof/Machine/Step.lean ====
section
/-! DEFINITION. One step of the machine: one turn (log 3). -/

namespace Sys2Proof.Machine

/-- The controller takes its enabled step (R141). -/
def controllerTurn (s : State) : Host.Outcome State Fault Refusal :=
  match fetchStep s with
  | .ok i => exec i s
  | .error f => .fault f

/-- A command of the harness (R70), which may come between any two steps (R41). -/
def commandTurn (bs : List Byte) (s : State) : Host.Outcome State Fault Refusal :=
  match fetchCommand bs with
  | .ok i => exec i s
  | .error r => .refused r

/-- One turn, with the turns after it still to come in `s`. -/
def takeTurn (turn : Turn) (s : State) : Host.Outcome State Fault Refusal :=
  match turn with
  | .controller => controllerTurn s
  | .command bs => commandTurn bs s
  | .reset a => .next (resetEvent a s)
  | .driveCancel level => .next (driveCancel level s)
  | .rxAnswer a => .next (offerRx [a] s)
  | .txAnswer a => .next (offerTx a s)

/-- One step: the next turn of the schedule, or the controller's where none is listed. -/
def step (s : State) : Host.Outcome State Fault Refusal :=
  match s.schedule with
  | [] => controllerTurn s
  | turn :: rest => takeTurn turn { s with schedule := rest }

/-- The host's placement of an opcode-table row (log 14). -/
def State.withFetchWord (s : State) (nbits w : Nat) : State := placeWord nbits w s

end Sys2Proof.Machine
end

