-- ==== Sys2Proof/Safety.lean ====
section
/-! DEFINITION. What holds of every state a run reaches (R45 and the laws of 42_search_controller.md and
70_reset_and_hazards.md), what a quiescent point is (R140), and what counts as a safe step. -/

namespace Sys2Proof.Machine

/-- A nonce below `n` does not meet the target: no match has been passed over (R146, R150). -/
def NoMatchBelow (hdr : Bytes 80) (tgt : Bytes 32) (n : Nat) : Prop :=
  ∀ m : Word, m.toNat < n → meetsTarget (doubleHash (headerWithNonce hdr m)) tgt = false

/-- The search registers come from the job (R45): the midstate is that of the header, and the tail is the header's with
some nonce in bytes 12..15. -/
def SearchData (s : State) (hdr : Bytes 80) : Prop :=
  s.midstate = some (compress h0 (blk1 hdr)) ∧
    ∃ tail : Bytes 64, s.tail = some tail ∧ slice tail.toList 0 12 = slice hdr.toList 64 12 ∧
      slice tail.toList 16 48 = blk2Pad

/-- The job registers hold this job (R22). -/
def ActiveJob (s : State) (hdr : Bytes 80) (tgt : Bytes 32) : Prop :=
  s.jobHeader = some hdr ∧ s.jobTarget = some tgt

/-- The receive buffer: canonical, within its bound, the frame's bytes all written, no `}` but a last one, and a full
buffer holds a complete frame (R30, R171, R172, log 8). -/
structure RxInv (s : State) : Prop where
  canonical : Memory.wf s.rxBuf = true
  bounded : ∀ a b, Memory.read s.rxBuf a = some b → a < s.params.rxBufLen
  count_le : s.rxCount.toNat ≤ s.params.rxBufLen
  written : ∀ a, a < s.rxCount.toNat → ∃ b, Memory.read s.rxBuf a = some b
  one_brace : ∀ a, a + 1 < s.rxCount.toNat → Memory.read s.rxBuf a ≠ some rbrace
  full_complete : s.rxCount.toNat = s.params.rxBufLen → frameComplete s = some true

/-- The invariant of the block: R45, the parameter bounds of R8, and what R24, R28, R29, R150 say of the search. -/
structure BlockInv (s : State) : Prop where
  params : s.params.wf
  rx : RxInv s
  /-- R45, first line -/
  mid_job : s.midValid = true → s.jobValid = true
  /-- R22 -/
  job_written : s.jobValid = true → ∃ hdr tgt, ActiveJob s hdr tgt
  /-- R22, R172: once a frame has begun there is no job -/
  ingest_clear : s.rxCount ≠ 0 → s.jobValid = false
  /-- R45, second and third line -/
  search_data : s.midValid = true → ∃ hdr tgt, ActiveJob s hdr tgt ∧ SearchData s hdr
  /-- R45, fourth line -/
  ctrl_mid : s.ctrlState ≠ .idle → s.midValid = true
  /-- R45, fifth line -/
  ctrl_rx : s.ctrlState ≠ .idle → s.rxCount = 0
  /-- R45, sixth line -/
  err_field : s.lastOutcome ≠ .malformedJob → s.errField = none
  /-- R45, last line -/
  err_channel : s.lastOutcome ≠ .transportFailure → s.errChannel = none
  /-- an open job cycle has no outcome yet (R32) -/
  outcome_open : s.ctrlState ≠ .idle → s.lastOutcome = .none
  /-- R29: the share is held in FOUND and at no other time -/
  share_absent : s.ctrlState ≠ .found → s.shareNonce = none ∧ s.shareHash = none
  /-- R29, R28, R150: in FOUND the share is the nonce register and its digest, which meets the target -/
  share_held : s.ctrlState = .found → ∀ hdr tgt, ActiveJob s hdr tgt →
    s.shareNonce = some s.nonce ∧ s.shareHash = some (doubleHash (headerWithNonce hdr s.nonce)) ∧
      meetsTarget (doubleHash (headerWithNonce hdr s.nonce)) tgt = true
  /-- R146, R150: every nonce below the register has failed -/
  none_below : s.ctrlState = .searching ∨ s.ctrlState = .found → ∀ hdr tgt, ActiveJob s hdr tgt →
    NoMatchBelow hdr tgt s.nonce.toNat
  /-- R28, R150: in EXHAUSTED every nonce has failed -/
  none_at_all : s.ctrlState = .exhausted → s.nonce = lastNonce ∧ ∀ hdr tgt, ActiveJob s hdr tgt →
    NoMatchBelow hdr tgt (2 ^ 32)
  /-- R37: without the hook there is no CANCEL -/
  cancel_hook : s.params.cancelHook = .absent → s.cancel = false

/-- A quiescent point (R140): IDLE, with no byte of a frame received. -/
def Quiescent (s : State) : Prop := s.ctrlState = .idle ∧ s.rxCount = 0

/-- A step that ends a job cycle (R13, R140): it leaves a quiescent point, and it comes from within the cycle or takes the
transport's answer to the cycle's first read. -/
def CycleEnds (s t : State) : Prop := Quiescent t ∧ (¬Quiescent s ∨ t.rx.length < s.rx.length)

/-- A step is safe where it does not read an unwritten element (R258). -/
def StepSafe (s : State) : Prop := ∀ f, step s ≠ .fault f

/-- The state registers a job cycle may not touch while the job stands (R256). -/
def SameJob (s t : State) : Prop :=
  t.jobHeader = s.jobHeader ∧ t.jobTarget = s.jobTarget ∧ t.jobSeq = s.jobSeq

/-- Everything that is the block's own (R20 (a)) is the same in both states. -/
def SameBlock (s t : State) : Prop :=
  t.ctrlState = s.ctrlState ∧ t.jobValid = s.jobValid ∧ t.midValid = s.midValid ∧ t.jobHeader = s.jobHeader ∧
  t.jobTarget = s.jobTarget ∧ t.jobSeq = s.jobSeq ∧ t.midstate = s.midstate ∧ t.tail = s.tail ∧
  t.nonce = s.nonce ∧ t.shareNonce = s.shareNonce ∧ t.shareHash = s.shareHash ∧ t.rxBuf = s.rxBuf ∧
  t.rxCount = s.rxCount ∧ t.lastOutcome = s.lastOutcome ∧ t.errField = s.errField ∧ t.errChannel = s.errChannel

/-- Everything around the block but the answer port is the same in both states. -/
def SameSurroundings (s t : State) : Prop :=
  t.params = s.params ∧ t.cancel = s.cancel ∧ t.rx = s.rx ∧ t.txAnswers = s.txAnswers ∧ t.txLog = s.txLog ∧
  t.rxConsumed = s.rxConsumed ∧ t.schedule = s.schedule

end Sys2Proof.Machine
end

