-- ==== Sys2Proof/Certificates/Slice0/Obligations.lean ====
section
/-! DEFINITION. The statements for the provers. "The spec marks it derived" means that the spec gives the sentence as its
own inference; "model's choice" names the log entry of notes/assumptions. -/

open Sys2Proof Sys2Proof.Machine

/-! ## Reset, the invariant, and how an operation comes to run -/

/-- R250: a reset, at any time, leaves every element at its value of R42; an abandoned RX_BYTE leaves no byte in the block,
an abandoned EMIT_SHARE may have passed any prefix of its message, and the parameters stay. That a reset is a turn of the
schedule is the model's choice (log 3, log 10). -/
def Obligations.ResetGivesTheListedValues : Prop :=
  ∀ (s : State) (a : Abandoned) (rest : List Turn), s.schedule = .reset a :: rest →
    ∃ t, step s = .next t ∧
      t.ctrlState = .idle ∧ t.jobValid = false ∧ t.midValid = false ∧ t.jobHeader = none ∧ t.jobTarget = none ∧
      t.jobSeq = 0 ∧ t.midstate = none ∧ t.tail = none ∧ t.nonce = 0 ∧ t.shareNonce = none ∧ t.shareHash = none ∧
      (∀ i, Memory.read t.rxBuf i = none) ∧ t.rxCount = 0 ∧ t.lastOutcome = .none ∧ t.errField = none ∧
      t.errChannel = none ∧ t.params = s.params ∧
      (∀ n h, s.ctrlState = .found → s.shareNonce = some n → s.shareHash = some h →
        t.txWire = s.txWire ++ (shareText n h).toList.take a.txReceived) ∧
      (s.ctrlState ≠ .found → t.txWire = s.txWire)

/-- R251 (the spec marks it derived): after reset, whatever the parameters, the first enabled step is RX_BYTE, and the
first byte the transport delivers is stored at index 0, unless it fills a one-byte buffer without ending the frame. -/
def Obligations.FirstStepAfterResetReadsAByte : Prop :=
  ∀ (s : State) (b : Byte) (r : List RxAnswer), s.params.wf → s = State.resetWith s.params →
    selectStep s = some .rxByte ∧
    (b = rbrace ∨ s.params.rxBufLen ≠ 1 →
      ∃ t, step { s with rx := .byte b :: r } = .next t ∧ Memory.read t.rxBuf 0 = some b ∧
        t.rxCount = 1 ∧ t.rx = r ∧ t.ctrlState = .idle ∧ t.lastOutcome = .none) ∧
    (b ≠ rbrace → s.params.rxBufLen = 1 →
      ∃ t, step { s with rx := .byte b :: r } = .next t ∧ t.rxCount = 0 ∧ t.rx = r ∧
        t.ctrlState = .idle ∧ t.lastOutcome = .bufferOverflow)

/-- The invariant holds right after reset, for every admitted choice of the parameters. -/
def Obligations.InvariantHoldsAtReset : Prop := ∀ p : Params, p.wf → BlockInv (State.resetWith p)

/-- Every step from every state with the invariant leaves a state with it: R45's lines, the buffer's bounds and canonical
form, the share of R29 and the nonces already ruled out (R146, R150). The spec marks R45 and R150 as derived. -/
def Obligations.EveryStepKeepsTheInvariant : Prop :=
  ∀ s t : State, BlockInv s → step s = .next t → BlockInv t

/-- R258: no step from a state with the invariant reads an unwritten element. -/
def Obligations.NoStepReadsAnUnwrittenElement : Prop := ∀ s : State, BlockInv s → StepSafe s

/-- R258: where a step would read an unwritten element the model faults and names it (log 7); it does not read zero. This
covers a frame with an unwritten byte before its last one, SHARE_FRAME's read of the held share, and the controller's own
choice of a step in IDLE. -/
def Obligations.ReadingAnUnwrittenElementFaults : Prop :=
  ∀ s : State,
    (selectStep s = some .trial → s.tail = none → exec .trial s = .fault (.unwritten .tail)) ∧
    (selectStep s = some .trial → s.tail ≠ none → s.midstate = none →
      exec .trial s = .fault (.unwritten .midstate)) ∧
    (selectStep s = some .trial → s.tail ≠ none → s.midstate ≠ none → s.jobTarget = none →
      exec .trial s = .fault (.unwritten .jobTarget)) ∧
    (s.ctrlState = .found → s.shareNonce = none → exec .emitShare s = .fault (.unwritten .shareNonce)) ∧
    (s.ctrlState = .found → s.shareNonce ≠ none → s.shareHash = none →
      exec .emitShare s = .fault (.unwritten .shareHash)) ∧
    (s.ctrlState = .idle → s.rxCount ≠ 0 → Memory.read s.rxBuf (s.rxCount.toNat - 1) = none →
      exec .rxByte s = .fault (.unwritten .rxBuf) ∧ exec .frameParse s = .fault (.unwritten .rxBuf) ∧
      (s.schedule = [] → step s = .fault (.unwritten .rxBuf))) ∧
    (s.ctrlState = .idle → frameComplete s = some true → receivedFrame s = none →
      exec .frameParse s = .fault (.unwritten .rxBuf)) ∧
    (∀ n h, s.ctrlState = .found → s.shareNonce = none →
      exec (.shareFrame n h) s = .fault (.unwritten .shareNonce)) ∧
    (∀ n h, s.ctrlState = .found → s.shareNonce ≠ none → s.shareHash = none →
      exec (.shareFrame n h) s = .fault (.unwritten .shareHash))

/-- A command turn runs the operation its bytes decode to, in the state without that turn (log 1, log 3). -/
def Obligations.CommandStepRunsTheDecodedOperation : Prop :=
  ∀ (s : State) (bs r : List Byte) (i : Instr) (rest : List Turn), s.schedule = .command bs :: rest →
    decode bs = .ok (i, r) → step s = exec i { s with schedule := rest }

/-- A controller turn, or a step with no turn listed, runs the one enabled controller step (R141, log 3). -/
def Obligations.ControllerStepRunsTheEnabledStep : Prop :=
  ∀ (s : State) (c : CtrlStep), selectStep s = some c →
    (s.schedule = [] → step s = exec c.instr s) ∧
    (∀ rest, s.schedule = .controller :: rest → step s = exec c.instr { s with schedule := rest })

/-- R141: the enabled step by controller state, frame and CANCEL; and a controller step runs in just the states of its row:
elsewhere it is refused (R72). -/
def Obligations.OneStepIsEnabledInEachState : Prop :=
  ∀ (s : State) (complete : Bool), frameComplete s = some complete →
    (s.ctrlState = .idle → selectStep s = some (if complete then .frameParse else .rxByte)) ∧
    (s.ctrlState = .midstatePrepared → selectStep s = some .startSearch) ∧
    (s.ctrlState = .searching → s.params.cancelHook = .absent ∨ s.cancel = false → selectStep s = some .trial) ∧
    (s.ctrlState = .searching → s.params.cancelHook = .present → s.cancel = true →
      selectStep s = some .cancelSearch) ∧
    (s.ctrlState = .found → selectStep s = some .emitShare) ∧
    (s.ctrlState = .exhausted → selectStep s = some .reportExhausted) ∧
    (∀ c : CtrlStep, exec c.instr s = .refused (.guardNotHeld c) ↔ selectStep s ≠ some c)

/-- R72: a reserved OPID names no operation and is refused (the bytes of a wire frame, which begin with `{`, are the one
other thing a command may hold, log 1). -/
def Obligations.ReservedOpidsAreRefused : Prop :=
  ∀ (s : State) (b : Byte) (r : List Byte) (rest : List Turn),
    (b = 0x00#8 ∨ (0x0B ≤ b.toNat ∧ b.toNat ≤ 0x0F) ∨ (0x17 ≤ b.toNat ∧ b.toNat ≤ 0x1F) ∨
      (0x21 ≤ b.toNat ∧ b.toNat ≤ 0xEF) ∨ 0xF2 ≤ b.toNat) →
    slice (b :: r) 0 11 ≠ headerMarker → slice (b :: r) 0 10 ≠ nonceMarker →
    s.schedule = .command (b :: r) :: rest →
    step s = .refused (.undecodable (.reservedOpid b))

/-! ## Encodings -/

/-- A few words of the opcode table and of the frames decode to what they stand for (R71, R80). -/
def Obligations.SomeWordsDecodeAsTheTableSays : Prop :=
  decode [0x12#8] = .ok (.startSearch, []) ∧ decode [0x20#8, 0x02#8] = .ok (.statusRead 2, []) ∧
  decode (0x03#8 :: List.replicate 32 0xFF#8) = .ok (.hash32 ⟨List.replicate 32 0xFF#8, rfl⟩, []) ∧
  decode [0x08#8, 0#8, 0#8, 0#8, 1#8, 0x46#8, 0x66#8] = .ok (.hexDecode [0x46#8, 0x66#8] 1, []) ∧
  decodeTableWord 8 0x16 = some .cancelSearch ∧ decodeTableWord 8 0x7B = none

/-- Decoding an encoded well-formed operation gives it back, whatever follows it. -/
def Obligations.DecodeOfEncodeIsTheOperation : Prop :=
  ∀ (i : Instr) (rest : List Byte), WellFormed i = true → decode (encode i ++ rest) = .ok (i, rest)

/-- What the decoder reads is what the encoder writes: no byte of a command has two readings. -/
def Obligations.EncodeOfDecodeIsTheBytes : Prop :=
  ∀ (bs rest : List Byte) (i : Instr), decode bs = .ok (i, rest) → encode i ++ rest = bs

/-- The decoder gives well-formed operations only. The operand bytes and the length bounds of WellFormed are the model's
choice (log 1). -/
def Obligations.DecodedOperationsAreWellFormed : Prop :=
  ∀ (bs rest : List Byte) (i : Instr), decode bs = .ok (i, rest) → WellFormed i = true

/-! ## Hash Engine -/

/-- R106 to R110: COMPRESS by its pseudocode: the schedule `W`, the 64 rounds on `v t`, the feed-forward. Nothing but the
answer port changes. -/
def Obligations.CompressFollowsTheRounds : Prop :=
  ∀ (S : HashState) (B : Bytes 64) (s : State), ∃ (W : Nat → Word) (v : Nat → HashState),
    (∀ t, t < 16 → ∃ b0 b1 b2 b3, B.toList[4 * t]? = some b0 ∧ B.toList[4 * t + 1]? = some b1 ∧
      B.toList[4 * t + 2]? = some b2 ∧ B.toList[4 * t + 3]? = some b3 ∧ W t = be32 b0 b1 b2 b3) ∧
    (∀ t, 16 ≤ t → t < 64 →
      W t = smallSigma1 (W (t - 2)) + W (t - 7) + smallSigma0 (W (t - 15)) + W (t - 16)) ∧
    v 0 = S ∧
    (∀ t, t < 64 → ∃ k, roundConstants[t]? = some k ∧
      v (t + 1) =
        ⟨(v t).s7 + bigSigma1 (v t).s4 + ch (v t).s4 (v t).s5 (v t).s6 + k + W t +
            (bigSigma0 (v t).s0 + maj (v t).s0 (v t).s1 (v t).s2),
          (v t).s0, (v t).s1, (v t).s2,
          (v t).s3 + ((v t).s7 + bigSigma1 (v t).s4 + ch (v t).s4 (v t).s5 (v t).s6 + k + W t),
          (v t).s4, (v t).s5, (v t).s6⟩) ∧
    exec (.compress S B) s = .next { s with result := some (.hashState
      ⟨S.s0 + (v 64).s0, S.s1 + (v 64).s1, S.s2 + (v 64).s2, S.s3 + (v 64).s3,
        S.s4 + (v 64).s4, S.s5 + (v 64).s5, S.s6 + (v 64).s6, S.s7 + (v 64).s7⟩) }

/-- R10: a rotation to the right by `n`, bit by bit. -/
def Obligations.RotateMovesEachBit : Prop :=
  ∀ (x : Word) (n i : Nat), 0 < n → n < 32 → i < 32 → (rotr x n).getLsbD i = x.getLsbD ((i + n) % 32)

/-- R112 to R114 with the layouts R75 to R78: pass 1 is two compressions from H0, pass 2 one from H0, the double hash one
after the other; digests are serialized big-endian, word 0 first. Nothing but the answer port changes. -/
def Obligations.HeaderHashesFollowTheLayouts : Prop :=
  ∀ (hdr : Bytes 80) (s : State), ∃ (B1 B2 B3 : Bytes 64) (S2 S3 : HashState) (d1 d2 : Bytes 32),
    B1.toList = hdr.toList.take 64 ∧
    B2.toList = hdr.toList.drop 64 ++ [0x80#8] ++ List.replicate 39 0#8 ++ [0, 0, 0, 0, 0, 0, 2#8, 0x80#8] ∧
    S2 = compress (compress h0 B1) B2 ∧
    d1.toList = [S2.s0, S2.s1, S2.s2, S2.s3, S2.s4, S2.s5, S2.s6, S2.s7].flatMap be32Bytes ∧
    B3.toList = d1.toList ++ [0x80#8] ++ List.replicate 23 0#8 ++ [0, 0, 0, 0, 0, 0, 1#8, 0#8] ∧
    S3 = compress h0 B3 ∧
    d2.toList = [S3.s0, S3.s1, S3.s2, S3.s3, S3.s4, S3.s5, S3.s6, S3.s7].flatMap be32Bytes ∧
    h0 = ⟨0x6a09e667, 0xbb67ae85, 0x3c6ef372, 0xa54ff53a, 0x510e527f, 0x9b05688c, 0x1f83d9ab, 0x5be0cd19⟩ ∧
    exec (.hashHeader hdr) s = .next { s with result := some (.digest d1) } ∧
    exec (.hash32 d1) s = .next { s with result := some (.digest d2) } ∧
    exec (.doubleHash hdr) s = .next { s with result := some (.digest d2) }

/-- R113 for every 32-byte string: HASH32 is one compression from H0 of the string with its padding. -/
def Obligations.Hash32IsOneCompression : Prop :=
  ∀ (d1 : Bytes 32) (s : State), ∃ (B : Bytes 64) (S : HashState) (d : Bytes 32),
    B.toList = d1.toList ++ [0x80#8] ++ List.replicate 23 0#8 ++ [0, 0, 0, 0, 0, 0, 1#8, 0#8] ∧
    S = compress h0 B ∧
    d.toList = [S.s0, S.s1, S.s2, S.s3, S.s4, S.s5, S.s6, S.s7].flatMap be32Bytes ∧
    exec (.hash32 d1) s = .next { s with result := some (.digest d) }

/-- R118: SHA256_REF pads with the least number of zeros, cuts the padded message into blocks and compresses them in order
from H0. Nothing but the answer port changes. -/
def Obligations.Sha256RefPadsAndChainsBlocks : Prop :=
  ∀ (M : List Byte) (s : State), M.length < 2 ^ 61 →
    ∃ (z : Nat) (P : List Byte) (blocks : List (Bytes 64)) (S : HashState) (d : Bytes 32),
      (M.length + 1 + z + 8) % 64 = 0 ∧ (∀ y, y < z → (M.length + 1 + y + 8) % 64 ≠ 0) ∧
      P = M ++ [0x80#8] ++ List.replicate z 0#8 ++ be64Bytes (8 * M.length) ∧
      beNat (be64Bytes (8 * M.length)) = 8 * M.length ∧ (be64Bytes (8 * M.length)).length = 8 ∧
      P = blocks.flatMap (·.toList) ∧ S = blocks.foldl compress h0 ∧
      d.toList = [S.s0, S.s1, S.s2, S.s3, S.s4, S.s5, S.s6, S.s7].flatMap be32Bytes ∧
      exec (.sha256Ref M) s = .next { s with result := some (.digest d) }

/-- R119 (the spec marks it derived): the two fixed shapes agree with the reference function. -/
def Obligations.FixedShapesAgreeWithTheReference : Prop :=
  (∀ hdr : Bytes 80, hashHeader hdr = sha256Ref hdr.toList) ∧
  (∀ d : Bytes 32, hash32 d = sha256Ref d.toList) ∧
  (∀ hdr : Bytes 80, doubleHash hdr = sha256Ref (sha256Ref hdr.toList).toList)

/-! ## Comparator -/

/-- R130: equal strings meet; otherwise the highest index at which they differ decides, by unsigned byte comparison, and no
lower byte counts. Nothing but the answer port changes. -/
def Obligations.HighestDifferingByteDecides : Prop :=
  ∀ (h t : Bytes 32) (s : State),
    (h = t → exec (.meetsTarget h t) s = .next { s with result := some (.bool true) }) ∧
    (∀ (k : Nat) (a b : Byte), h.toList[k]? = some a → t.toList[k]? = some b → a ≠ b →
      (∀ j, k < j → h.toList[j]? = t.toList[j]?) →
      exec (.meetsTarget h t) s = .next { s with result := some (.bool (decide (a.toNat < b.toNat))) })

/-- R131 (the spec marks it derived): MEETS_TARGET is `le256(hash) ≤ le256(target)`. -/
def Obligations.MeetsTargetIsTheLittleEndianOrder : Prop :=
  ∀ h t : Bytes 32, meetsTarget h t = decide (leNat h.toList ≤ leNat t.toList)

/-! ## Search controller -/

/-- R143: PREP_MIDSTATE as a unit function: one compression of the first 64 bytes, and the tail block. -/
def Obligations.PrepMidstateBuildsMidstateAndTail : Prop :=
  ∀ (hdr : Bytes 80) (s : State), ∃ B1 tail : Bytes 64,
    B1.toList = hdr.toList.take 64 ∧
    tail.toList = hdr.toList.drop 64 ++ [0x80#8] ++ List.replicate 39 0#8 ++ [0, 0, 0, 0, 0, 0, 2#8, 0x80#8] ∧
    exec (.prepMidstate hdr) s = .next { s with result := some (.midstate (compress h0 B1) tail) }

/-- R144: TRIAL_DIGEST puts the nonce little-endian into bytes 12..15, compresses the tail from the midstate and hashes the
result. Nothing but the answer port changes. -/
def Obligations.TrialDigestCompressesTheTail : Prop :=
  ∀ (mid : HashState) (tail : Bytes 64) (n : Word) (s : State), ∃ (T : Bytes 64) (d1 d : Bytes 32),
    T.toList = tail.toList.take 12 ++
      [n.extractLsb' 0 8, n.extractLsb' 8 8, n.extractLsb' 16 8, n.extractLsb' 24 8] ++ tail.toList.drop 16 ∧
    d1 = ser (compress mid T) ∧ d = hash32 d1 ∧
    exec (.trialDigest mid tail n) s = .next { s with result := some (.digest d) }

/-- R149, the differential law (the spec marks it derived): the digest from the cached midstate is the double hash of the
header with that nonce. -/
def Obligations.TrialDigestIsTheDoubleHash : Prop :=
  ∀ (hdr : Bytes 80) (n : Word),
    trialDigest (prepMidstate hdr).1 (prepMidstate hdr).2 n = doubleHash (headerWithNonce hdr n) ∧
    (headerWithNonce hdr n).toList = hdr.toList.take 76 ++
      [n.extractLsb' 0 8, n.extractLsb' 8 8, n.extractLsb' 16 8, n.extractLsb' 24 8]

/-- R145: START_SEARCH sets the nonce to 0 and enters SEARCHING; nothing else changes. -/
def Obligations.StartSearchBeginsAtNonceZero : Prop :=
  ∀ s : State, s.ctrlState = .midstatePrepared →
    exec .startSearch s = .next { s with nonce := 0, ctrlState := .searching }

/-- R147: TRIAL writes the nonce into the tail, compares the trial's digest with the target, and ends in FOUND with the
share, in EXHAUSTED after the last nonce, or at the next nonce; nothing else changes. -/
def Obligations.TrialFindsExhaustsOrAdvances : Prop :=
  ∀ (s : State) (tail T : Bytes 64) (mid : HashState) (tgt d : Bytes 32),
    s.ctrlState = .searching → s.params.cancelHook = .absent ∨ s.cancel = false →
    s.tail = some tail → s.midstate = some mid → s.jobTarget = some tgt →
    T.toList = tail.toList.take 12 ++
      [s.nonce.extractLsb' 0 8, s.nonce.extractLsb' 8 8, s.nonce.extractLsb' 16 8, s.nonce.extractLsb' 24 8] ++
        tail.toList.drop 16 →
    d = trialDigest mid T s.nonce →
    (meetsTarget d tgt = true → exec .trial s =
      .next { s with tail := some T, shareNonce := some s.nonce, shareHash := some d, ctrlState := .found }) ∧
    (meetsTarget d tgt = false → s.nonce = 0xFFFFFFFF →
      exec .trial s = .next { s with tail := some T, ctrlState := .exhausted }) ∧
    (meetsTarget d tgt = false → s.nonce ≠ 0xFFFFFFFF →
      exec .trial s = .next { s with tail := some T, nonce := s.nonce + 1 })

/-- R152: REPORT_EXHAUSTED records the outcome, returns to IDLE and writes nothing to the transport. -/
def Obligations.ReportExhaustedRecordsTheOutcome : Prop :=
  ∀ s : State, s.ctrlState = .exhausted →
    exec .reportExhausted s = .next { s with lastOutcome := .exhausted, ctrlState := .idle }

/-- R153: with the hook and CANCEL = 1 in SEARCHING, CANCEL_SEARCH ends the search, and the trial it precedes does not run;
without the hook it is never enabled; in any other state the level of CANCEL has no effect on the choice of a step. -/
def Obligations.CancelSearchEndsTheSearch : Prop :=
  ∀ s : State,
    (s.ctrlState = .searching → s.params.cancelHook = .present → s.cancel = true →
      exec .cancelSearch s = .next { s with lastOutcome := .cancelled, ctrlState := .idle } ∧
      exec .trial s = .refused (.guardNotHeld .trial)) ∧
    (s.params.cancelHook = .absent → selectStep s ≠ some .cancelSearch) ∧
    (∀ level, s.ctrlState ≠ .searching → selectStep { s with cancel := level } = selectStep s)

/-- R151: EMIT_SHARE hands the 95 bytes to the transport in one write, forgets the share, and ends in FOUND, or raises
TransportFailure(TX) (R224) where the write fails after any prefix (R56). The share text is R200's. While the transport
gives no answer the step has not completed; that such a wait is a step which changes nothing, and not a stop, is the model's
choice (log 5). -/
def Obligations.EmitShareWritesTheShareOnce : Prop :=
  ∀ (s : State) (n : Word) (h : Bytes 32) (r : List TxAnswer),
    s.ctrlState = .found → s.shareNonce = some n → s.shareHash = some h →
    (s.txAnswers = [] → exec .emitShare s = .next s) ∧
    (s.txAnswers = .ok :: r → ∃ t, exec .emitShare s = .next t ∧
      t = { s with
        txAnswers := r, txLog := s.txLog ++ [⟨(shareText n h).toList, 95⟩], shareNonce := none, shareHash := none,
        lastOutcome := .found, ctrlState := .idle } ∧
      t.txWire = s.txWire ++ (shareText n h).toList) ∧
    (∀ k, s.txAnswers = .fail k :: r → ∃ t, exec .emitShare s = .next t ∧
      t = { s with
        txAnswers := r, txLog := s.txLog ++ [⟨(shareText n h).toList, min k 95⟩], shareNonce := none,
        shareHash := none, lastOutcome := .transportFailure, errField := none, errChannel := some .tx, rxCount := 0,
        ctrlState := .idle } ∧
      t.txWire = s.txWire ++ (shareText n h).toList.take k)

/-! ## Job parser -/

/-- R172, with R222 and R224: RX_BYTE stores the byte at index RX_COUNT and counts it, raises BufferOverflow where the
buffer is then full with no `}`, and TransportFailure(RX) where the read fails; a frame's first read destroys the job. Every
other index of RXBUF reads as before, and no other element changes. Until the transport answers the block waits; that such a
wait is a step which changes nothing, and not a stop, is the model's choice (log 5). -/
def Obligations.RxByteStoresOneByte : Prop :=
  ∀ (s : State) (r : List RxAnswer), s.ctrlState = .idle → frameComplete s = some false →
    (s.rx = [] → exec .rxByte s = .next s) ∧
    (s.rx = .fail :: r → exec .rxByte s = .next { s with
      jobValid := if s.rxCount = 0 then false else s.jobValid
      midValid := if s.rxCount = 0 then false else s.midValid
      rx := r, lastOutcome := .transportFailure, errField := none, errChannel := some .rx, rxCount := 0 }) ∧
    (∀ b, s.rx = .byte b :: r → ∃ t, exec .rxByte s = .next t ∧
      (∀ a, Memory.read t.rxBuf a = if a = s.rxCount.toNat then some b else Memory.read s.rxBuf a) ∧
      (¬(b ≠ 0x7D#8 ∧ (s.rxCount + 1).toNat = s.params.rxBufLen) → t = { s with
        jobValid := if s.rxCount = 0 then false else s.jobValid
        midValid := if s.rxCount = 0 then false else s.midValid
        rx := r, rxConsumed := s.rxConsumed + 1, rxBuf := t.rxBuf, rxCount := s.rxCount + 1 }) ∧
      (b ≠ 0x7D#8 → (s.rxCount + 1).toNat = s.params.rxBufLen → t = { s with
        jobValid := if s.rxCount = 0 then false else s.jobValid
        midValid := if s.rxCount = 0 then false else s.midValid
        rx := r, rxConsumed := s.rxConsumed + 1, rxBuf := t.rxBuf, rxCount := 0,
        lastOutcome := .bufferOverflow, errField := none, errChannel := none }))

/-- R184, R185, R223: FRAME_PARSE raises MalformedJob with the field the parser names, and then writes no job register; or
it stores the parser's header and target, counts the job, prepares it at once and enters MIDSTATE_PREPARED. -/
def Obligations.FrameParseRejectsOrAcceptsTheJob : Prop :=
  ∀ (s : State) (F : List Byte), s.ctrlState = .idle → frameComplete s = some true → receivedFrame s = some F →
    (∀ f, jobParse s.params.leadPolicy F = .error f → exec .frameParse s = .next { s with
      lastOutcome := .malformedJob, errField := some f, errChannel := none, rxCount := 0, ctrlState := .idle }) ∧
    (∀ hdr tgt, jobParse s.params.leadPolicy F = .ok (hdr, tgt) → exec .frameParse s = .next { s with
      jobHeader := some hdr, jobTarget := some tgt, jobSeq := s.jobSeq + 1, jobValid := true,
      midstate := some (compress h0 (blk1 hdr)), tail := some (blk2 hdr), midValid := true,
      lastOutcome := .none, errField := none, errChannel := none, rxCount := 0, ctrlState := .midstatePrepared })

/-- R185, R80, R176: a received frame of R80's shape, behind leading bytes at none of which a header marker stands where
LEAD_POLICY is SKIP and behind none where it is STRICT, becomes the active job, is prepared at once, and gets the next id;
nothing else changes. -/
def Obligations.WellFormedFrameBecomesTheJob : Prop :=
  ∀ (s : State) (lead : List Byte) (hh : Bytes 160) (th : Bytes 64) (hdr : Bytes 80) (tgt : Bytes 32),
    s.ctrlState = .idle → receivedFrame s = some (lead ++ jobFrameText hh th) →
    (s.params.leadPolicy = .strict → lead = []) →
    (∀ j, j < lead.length → slice (lead ++ jobFrameText hh th) j 11 ≠ headerMarker) →
    hexDecodePairs hh.toList = some hdr.toList → hexDecodePairs th.toList = some tgt.toList →
    exec .frameParse s = .next { s with
      jobHeader := some hdr, jobTarget := some tgt, jobSeq := s.jobSeq + 1, jobValid := true,
      midstate := some (prepMidstate hdr).1, tail := some (prepMidstate hdr).2, midValid := true,
      lastOutcome := .none, errField := none, errChannel := none, rxCount := 0, ctrlState := .midstatePrepared }

/-- R175: HEX_DECODE of 2n characters: the pairs, high nibble first, where all are hex digits, and NOT_HEX where one is
not. Nothing but the answer port changes. -/
def Obligations.HexDecodeDecodesPairs : Prop :=
  ∀ (C : List Byte) (n : Nat) (s : State), C.length = 2 * n →
    (C.all isHexDigit = true → ∃ out : List Byte, out.length = n ∧
      exec (.hexDecode C n) s = .next { s with result := some (.bytes out) } ∧
      ∀ k, k < n → ∃ chi clo vhi vlo, C[2 * k]? = some chi ∧ C[2 * k + 1]? = some clo ∧ hexval chi = some vhi ∧
        hexval clo = some vlo ∧ out[k]? = some (BitVec.ofNat 8 (vhi * 16 + vlo))) ∧
    (C.all isHexDigit = false → exec (.hexDecode C n) s = .next { s with result := some .notHex })

/-- An operand outside an operation's domain is refused (model's choice, log 18): a string that has not the 2n characters of
R175, a message of 2^61 bytes or more, for which R118 says nothing. -/
def Obligations.OperandsOutsideTheDomainAreRefused : Prop :=
  ∀ (C M : List Byte) (n : Nat) (s : State),
    (C.length ≠ 2 * n → exec (.hexDecode C n) s = .refused .hexLength) ∧
    (2 ^ 61 ≤ M.length → exec (.sha256Ref M) s = .refused .messageTooLong)

/-- R176: under SKIP the header marker is at the least index where it stands, under STRICT only at 0. -/
def Obligations.HeaderMarkerIsTheFirstOne : Prop :=
  ∀ (F : List Byte) (m : Nat),
    (locateHeader .skip F = some m ↔
      slice F m 11 = headerMarker ∧ ∀ j, j < m → slice F j 11 ≠ headerMarker) ∧
    (locateHeader .skip F = none ↔ ∀ j, slice F j 11 ≠ headerMarker) ∧
    (locateHeader .strict F = some m ↔ m = 0 ∧ slice F 0 11 = headerMarker)

/-- R180, R80, R176: JOB_PARSE as a unit function accepts a frame of the shape of R80 under both policies, and under SKIP
behind leading bytes at none of which a header marker stands. Bytes behind the frame are not looked at (R180's checks end at
m + 248; that a string with such bytes is parsed at all is log 19). -/
def Obligations.JobParseAcceptsTheFrameShape : Prop :=
  ∀ (s : State) (lead rest : List Byte) (hh : Bytes 160) (th : Bytes 64) (hdr : Bytes 80) (tgt : Bytes 32),
    (s.params.leadPolicy = .strict → lead = []) →
    (∀ j, j < lead.length → slice (lead ++ jobFrameText hh th ++ rest) j 11 ≠ headerMarker) →
    hexDecodePairs hh.toList = some hdr.toList → hexDecodePairs th.toList = some tgt.toList →
    exec (.jobParse (lead ++ jobFrameText hh th ++ rest)) s = .next { s with result := some (.job hdr tgt) }

/-- R180 to R182: what JOB_PARSE accepts has the shape of R80 behind the skipped bytes, and is at least 249 bytes long; what
it rejects names HEADER just where the header part (marker, 160 hex digits, closing quote) is not there. R180's operand is a
frame, whose last byte is its only `}`: on such a string nothing follows the shape (R179). That JOB_PARSE is applied to any
byte string, so that bytes may follow the shape elsewhere, is the model's reading (log 19). -/
def Obligations.JobParseRejectsEveryOtherShape : Prop :=
  ∀ (s : State) (F : List Byte), ∃ r : OpResult,
    exec (.jobParse F) s = .next { s with result := some r } ∧
    ((∃ hdr tgt, r = .job hdr tgt) ∨ r = .malformedJob .header ∨ r = .malformedJob .target) ∧
    (∀ hdr tgt, r = .job hdr tgt → 249 ≤ F.length ∧
      ∃ (lead rest : List Byte) (hh : Bytes 160) (th : Bytes 64), F = lead ++ jobFrameText hh th ++ rest ∧
        locateHeader s.params.leadPolicy F = some lead.length ∧ (s.params.leadPolicy = .strict → lead = []) ∧
        (∀ G : List Byte, F = G ++ [0x7D#8] → 0x7D#8 ∉ G → rest = []) ∧
        hexDecodePairs hh.toList = some hdr.toList ∧ hexDecodePairs th.toList = some tgt.toList) ∧
    (r = .malformedJob .header ↔ ¬∃ m, locateHeader s.params.leadPolicy F = some m ∧ m + 172 ≤ F.length ∧
      (slice F (m + 11) 160).all isHexDigit = true ∧ slice F (m + 171) 1 = [0x22#8])

/-! ## Share encoder -/

/-- R200, R202, R203 with the layout R81: SHARE_ENCODE's 95 bytes. Nothing but the answer port changes. -/
def Obligations.ShareTextHasTheLayout : Prop :=
  ∀ (n : Word) (h : Bytes 32) (s : State), ∃ t : Bytes 95,
    exec (.shareEncode n h) s = .next { s with result := some (.text t) } ∧
    slice t.toList 0 10 = nonceMarker ∧
    (∀ j : Nat, j < 8 → t.toList[10 + j]? = some (hexchar (n.toNat / 16 ^ (7 - j) % 16))) ∧
    slice t.toList 18 10 = hashMarker ∧
    (∀ (k : Nat) (b : Byte), h.toList[k]? = some b → t.toList[28 + 2 * k]? = some (hexchar (b.toNat / 16)) ∧
      t.toList[29 + 2 * k]? = some (hexchar (b.toNat % 16))) ∧
    slice t.toList 92 3 = [0x22#8, 0x7D#8, 0x0A#8]

/-- R205, R206 (the spec marks R206 derived): SHARE_DECODE_REF gives back what SHARE_ENCODE printed, gives the nonce and hash
of every text of the right shape, uppercase digits included, and rejects every other text. -/
def Obligations.ShareDecodeInvertsShareEncode : Prop :=
  (∀ (n : Word) (h : Bytes 32) (s : State),
    exec (.shareDecodeRef (shareEncode n h).toList) s = .next { s with result := some (.share n h) }) ∧
  (∀ (S : List Byte) (s : State),
    S.length ≠ 95 ∨ slice S 0 10 ≠ nonceMarker ∨ slice S 18 10 ≠ hashMarker ∨ slice S 92 3 ≠ shareEnd ∨
        (slice S 10 8).all isHexDigit = false ∨ (slice S 28 64).all isHexDigit = false →
      exec (.shareDecodeRef S) s = .next { s with result := some .reject }) ∧
  (∀ (S : List Byte) (s : State),
    S.length = 95 → slice S 0 10 = nonceMarker → slice S 18 10 = hashMarker → slice S 92 3 = shareEnd →
    (slice S 10 8).all isHexDigit = true → (slice S 28 64).all isHexDigit = true →
      ∃ (n : Word) (h : Bytes 32) (v : Nat → Nat),
        exec (.shareDecodeRef S) s = .next { s with result := some (.share n h) } ∧
        (∀ j, j < 8 → ∃ c, S[10 + j]? = some c ∧ hexval c = some (v j)) ∧
        n.toNat = v 0 * 16 ^ 7 + v 1 * 16 ^ 6 + v 2 * 16 ^ 5 + v 3 * 16 ^ 4 + v 4 * 16 ^ 3 + v 5 * 16 ^ 2 +
          v 6 * 16 + v 7 ∧
        ∀ k, k < 32 → ∃ chi clo vhi vlo, S[28 + 2 * k]? = some chi ∧ S[29 + 2 * k]? = some clo ∧
          hexval chi = some vhi ∧ hexval clo = some vlo ∧ h.toList[k]? = some (BitVec.ofNat 8 (vhi * 16 + vlo)))

/-! ## Status port and wire frames -/

/-- R40, R41, with the codes of R21 and R32 to R34 as numerals: a status read answers the word of its index, built from the
state at that moment, and changes no state of the block; an index above 2 is refused. -/
def Obligations.StatusReadAnswersTheWord : Prop :=
  ∀ s : State,
    (∃ w : Word, exec (.statusRead 0) s = .next { s with result := some (.word w) } ∧
      (s.ctrlState, w.extractLsb' 0 3) ∈ [(CtrlState.idle, 0#3), (.midstatePrepared, 1#3), (.searching, 2#3),
        (.found, 3#3), (.exhausted, 4#3)] ∧
      w.getLsbD 3 = s.jobValid ∧ w.getLsbD 4 = s.midValid ∧ w.extractLsb' 5 3 = 0 ∧
      (s.lastOutcome, w.extractLsb' 8 4) ∈ [(LastOutcome.none, 0#4), (.found, 1#4), (.exhausted, 2#4),
        (.bufferOverflow, 3#4), (.malformedJob, 4#4), (.transportFailure, 5#4), (.cancelled, 6#4)] ∧
      (s.errField, w.extractLsb' 12 2) ∈ [(none, 0#2), (some JobField.header, 1#2), (some .target, 2#2)] ∧
      (s.errChannel, w.extractLsb' 14 2) ∈ [(none, 0#2), (some Channel.rx, 1#2), (some .tx, 2#2)] ∧
      w.extractLsb' 16 16 = s.rxCount) ∧
    exec (.statusRead 1) s = .next { s with result := some (.word s.jobSeq) } ∧
    exec (.statusRead 2) s = .next { s with result := some (.word s.nonce) } ∧
    (∀ k, 2 < k → exec (.statusRead k) s = .refused (.statusIndex k))

/-- The status word (its codes are given in StatusReadAnswersTheWord) can be read back without loss, and no word with a reserved code or a reserved bit is read as a status
(U13 to U15; the reader is the model's). -/
def Obligations.StatusWordReadsBack : Prop :=
  (∀ s : State, readStatus (statusWord s) =
    some ⟨s.ctrlState, s.jobValid, s.midValid, s.lastOutcome, s.errField, s.errChannel, s.rxCount⟩) ∧
  (∀ w : Word, (4 < (w.extractLsb' 0 3).toNat ∨ 6 < (w.extractLsb' 8 4).toNat ∨ w.extractLsb' 12 2 = 3 ∨
      w.extractLsb' 14 2 = 3 ∨ w.extractLsb' 5 3 ≠ 0) → readStatus w = none)

/-- JOB_FRAME: the frame's 249 bytes go to the end of the transport's RX stream and nothing else changes (model's choice,
log 11; the layout is R80's). -/
def Obligations.JobFrameIsOfferedOnRx : Prop :=
  ∀ (hh : Bytes 160) (th : Bytes 64) (s : State), ∃ F : List Byte,
    F = [0x7B#8, 0x22#8, 0x68#8, 0x65#8, 0x61#8, 0x64#8, 0x65#8, 0x72#8, 0x22#8, 0x3A#8, 0x22#8] ++ hh.toList ++
      [0x22#8, 0x2C#8, 0x22#8, 0x74#8, 0x61#8, 0x72#8, 0x67#8, 0x65#8, 0x74#8, 0x22#8, 0x3A#8, 0x22#8] ++
      th.toList ++ [0x22#8, 0x7D#8] ∧
    F.length = 249 ∧ exec (.jobFrame hh th) s = .next { s with rx := s.rx ++ F.map .byte }

/-- SHARE_FRAME: the write of the held share, the same as EMIT_SHARE's; of another share, or in another state, it is refused
(model's choice, log 12). -/
def Obligations.ShareFrameIsTheHeldShare : Prop :=
  ∀ (s : State) (n : Word) (h : Bytes 32),
    (s.ctrlState = .found → s.shareNonce = some n → s.shareHash = some h →
      exec (.shareFrame n h) s = exec .emitShare s ∧
      ∀ r, s.txAnswers = .ok :: r → ∃ t, exec (.shareFrame n h) s = .next t ∧
        t = { s with
          txAnswers := r, txLog := s.txLog ++ [⟨(shareText n h).toList, 95⟩], shareNonce := none, shareHash := none,
          lastOutcome := .found, ctrlState := .idle }) ∧
    (∀ m k, s.ctrlState = .found → s.shareNonce = some m → s.shareHash = some k → (m, k) ≠ (n, h) →
      exec (.shareFrame n h) s = .refused .shareNotHeld) ∧
    (s.ctrlState ≠ .found → exec (.shareFrame n h) s = .refused (.guardNotHeld .emitShare))

/-! ## Frames and whole-machine rules -/

/-- R70, R41: unit functions, the status port and the reference functions change nothing but the answer port (log 2). -/
def Obligations.UnitOperationsChangeOnlyTheAnswer : Prop :=
  ∀ (i : Instr) (s t : State), (∀ c : CtrlStep, i ≠ c.instr) → (∀ hh th, i ≠ .jobFrame hh th) →
    (∀ n h, i ≠ .shareFrame n h) → exec i s = .next t → SameBlock s t ∧ SameSurroundings s t

/-- R252: no step changes the parameters. -/
def Obligations.NoStepChangesTheParameters : Prop :=
  ∀ s t : State, step s = .next t → t.params = s.params

/-- R256: no step but a reset (R250) writes JOB_HEADER, JOB_TARGET or the job's id while JOB_VALID = 1, and of the tail only
bytes 12..15 are rewritten. -/
def Obligations.NoStepWritesAValidJob : Prop :=
  ∀ s t : State, BlockInv s → s.jobValid = true → (∀ a rest, s.schedule ≠ .reset a :: rest) →
    step s = .next t → SameJob s t ∧
      ∀ tail, s.tail = some tail → ∃ tail', t.tail = some tail' ∧
        slice tail'.toList 0 12 = slice tail.toList 0 12 ∧ slice tail'.toList 16 48 = slice tail.toList 16 48

/-- R154: outside IDLE RX_BYTE is not enabled, no byte is consumed and no answer of a read is taken. -/
def Obligations.NoByteIsReadOutsideIdle : Prop :=
  ∀ s : State, s.ctrlState ≠ .idle → selectStep s ≠ some .rxByte ∧
    ∀ t, step s = .next t → t.rxConsumed = s.rxConsumed ∧ ∃ more, t.rx = s.rx ++ more

/-- R57, R60 (a): the answers of the transport are taken in order, one at a time, and a byte consumed is counted. -/
def Obligations.RxStreamIsTakenInOrder : Prop :=
  ∀ s t : State, (∀ a rest, s.schedule ≠ .reset a :: rest) → step s = .next t →
    (t.rxConsumed = s.rxConsumed ∧ ∃ more, t.rx = s.rx ++ more) ∨
    (t.rxConsumed = s.rxConsumed ∧ s.rx = .fail :: t.rx) ∨
    (∃ b, t.rxConsumed = s.rxConsumed + 1 ∧ s.rx = .byte b :: t.rx)

/-- R56, R151: the only thing ever written to the transport is the 95-byte text of the share held in FOUND. What a reset
records of an abandoned write is the model's choice (log 10, log 17). -/
def Obligations.OnlyTheHeldShareIsWritten : Prop :=
  ∀ s t : State, step s = .next t → t.txLog = s.txLog ∨
    ∃ (n : Word) (h : Bytes 32) (k : Nat), s.ctrlState = .found ∧ s.shareNonce = some n ∧ s.shareHash = some h ∧
      k ≤ 95 ∧ t.txLog = s.txLog ++ [⟨(shareText n h).toList, k⟩]

/-- R142: MIDSTATE and MIDSTATE_PREPARED come only from a step in IDLE that accepts a job, counts it, compresses its first
block once and builds its tail; a reset (R250) is the one other thing that changes MIDSTATE. -/
def Obligations.MidstateComesOnlyFromAnAcceptedJob : Prop :=
  ∀ s t : State, (∀ a rest, s.schedule ≠ .reset a :: rest) → step s = .next t →
    (t.midstate = s.midstate ∧ t.jobSeq = s.jobSeq ∧
      (t.ctrlState = .midstatePrepared → s.ctrlState = .midstatePrepared)) ∨
    (s.ctrlState = .idle ∧ t.ctrlState = .midstatePrepared ∧ t.jobSeq = s.jobSeq + 1 ∧
      ∃ hdr, t.jobHeader = some hdr ∧ t.midstate = some (compress h0 (blk1 hdr)) ∧ t.tail = some (blk2 hdr))

/-- R221, R220: a step that records an error ends in IDLE with no partial frame, and records that error's field or channel
and no other. A step that changes the outcome to an error is such a step; and so that a second error of the same kind in a
row is not left out, every step but a reset that ends a job cycle records what ended it: in IDLE the failed read, the
overflow or the malformed frame, in FOUND the write's success or failure, in EXHAUSTED and under CANCEL the end without a
share. -/
def Obligations.ErrorEntryReturnsToIdle : Prop :=
  (∀ s t : State, step s = .next t → t.lastOutcome ≠ s.lastOutcome →
    (t.lastOutcome = .bufferOverflow → t.ctrlState = .idle ∧ t.rxCount = 0 ∧ t.errField = none ∧
      t.errChannel = none ∧ s.ctrlState = .idle) ∧
    (t.lastOutcome = .malformedJob → t.ctrlState = .idle ∧ t.rxCount = 0 ∧ t.errField ≠ none ∧
      t.errChannel = none ∧ s.ctrlState = .idle) ∧
    (t.lastOutcome = .transportFailure → t.ctrlState = .idle ∧ t.rxCount = 0 ∧ t.errField = none ∧
      (t.errChannel = some .rx ∧ s.ctrlState = .idle ∨ t.errChannel = some .tx ∧ s.ctrlState = .found))) ∧
  (∀ s t : State, BlockInv s → (∀ a rest, s.schedule ≠ .reset a :: rest) → step s = .next t → CycleEnds s t →
    (s.ctrlState = .idle → frameComplete s = some true →
      t.lastOutcome = .malformedJob ∧ t.errField ≠ none ∧ t.errChannel = none ∧ t.rx = s.rx) ∧
    (s.ctrlState = .idle → frameComplete s = some false →
      (s.rx = .fail :: t.rx ∧ t.lastOutcome = .transportFailure ∧ t.errField = none ∧ t.errChannel = some .rx) ∨
      (∃ b, s.rx = .byte b :: t.rx ∧ b ≠ 0x7D#8 ∧ s.rxCount.toNat + 1 = s.params.rxBufLen ∧
        t.lastOutcome = .bufferOverflow ∧ t.errField = none ∧ t.errChannel = none)) ∧
    (s.ctrlState = .found → t.errField = none ∧
      (s.txAnswers = .ok :: t.txAnswers ∧ t.lastOutcome = .found ∧ t.errChannel = none ∨
        (∃ k, s.txAnswers = .fail k :: t.txAnswers) ∧ t.lastOutcome = .transportFailure ∧
          t.errChannel = some .tx)) ∧
    (s.ctrlState = .exhausted → t.lastOutcome = .exhausted ∧ t.errField = none ∧ t.errChannel = none) ∧
    (s.ctrlState = .searching → t.lastOutcome = .cancelled ∧ t.errField = none ∧ t.errChannel = none) ∧
    s.ctrlState ≠ .midstatePrepared)

/-- R238 (the spec marks it derived): the controller makes no progress only where it waits for the transport, in IDLE for a
byte or in FOUND for the answer to its write. That a wait is a step that answers the same state is the model's choice
(log 5). -/
def Obligations.OnlyTheTransportCanHangTheBlock : Prop :=
  ∀ s : State, BlockInv s → s.schedule = [] →
    (step s = .next s ↔
      (s.ctrlState = .idle ∧ frameComplete s = some false ∧ s.rx = []) ∨ (s.ctrlState = .found ∧ s.txAnswers = []))

/-- A job frame whose bytes are the next on RX at a quiescent point is read and accepted in 250 steps (R140, R172, R184,
R185): its header and target are the active job, and what waits behind it stays in the transport (R64). -/
def Obligations.OfferedJobFrameIsAccepted : Prop :=
  ∀ (s : State) (hh : Bytes 160) (th : Bytes 64) (hdr : Bytes 80) (tgt : Bytes 32) (r : List RxAnswer),
    BlockInv s → Quiescent s → s.schedule = [] → 249 ≤ s.params.rxBufLen →
    s.rx = (jobFrameText hh th).map .byte ++ r →
    hexDecodePairs hh.toList = some hdr.toList → hexDecodePairs th.toList = some tgt.toList →
    ∃ t, Host.Core.run core 250 s = .next t ∧ t.ctrlState = .midstatePrepared ∧ t.jobHeader = some hdr ∧
      t.jobTarget = some tgt ∧ t.jobSeq = s.jobSeq + 1 ∧ t.jobValid = true ∧ t.midValid = true ∧
      t.midstate = some (prepMidstate hdr).1 ∧ t.tail = some (prepMidstate hdr).2 ∧ t.lastOutcome = .none ∧
      t.rx = r ∧ t.rxConsumed = s.rxConsumed + 249 ∧ t.txLog = s.txLog

/-- R155 (the spec marks it derived): a search without the hook ends in FOUND or EXHAUSTED within 2^32 trials. -/
def Obligations.SearchEndsWithinAllNonces : Prop :=
  ∀ s : State, BlockInv s → s.ctrlState = .searching → s.schedule = [] → s.params.cancelHook = .absent →
    ∃ (k : Nat) (t : State), k ≤ 2 ^ 32 ∧ Host.Core.run core k s = .next t ∧
      (t.ctrlState = .found ∨ t.ctrlState = .exhausted)

/-- R150 (the spec marks it derived): a prepared job without the hook reaches FOUND with the least nonce whose double hash
meets the target and with that digest, or it reaches EXHAUSTED and no nonce's double hash meets the target. -/
def Obligations.SearchFindsTheLeastNonce : Prop :=
  ∀ (s : State) (hdr : Bytes 80) (tgt : Bytes 32), BlockInv s → s.ctrlState = .midstatePrepared → s.schedule = [] →
    s.params.cancelHook = .absent → ActiveJob s hdr tgt →
    ∃ (k : Nat) (t : State), k ≤ 2 ^ 32 + 1 ∧ Host.Core.run core k s = .next t ∧
      ((t.ctrlState = .found ∧ ∃ n : Word, t.shareNonce = some n ∧
          t.shareHash = some (doubleHash (headerWithNonce hdr n)) ∧
          meetsTarget (doubleHash (headerWithNonce hdr n)) tgt = true ∧
          ∀ m : Word, m.toNat < n.toNat → meetsTarget (doubleHash (headerWithNonce hdr m)) tgt = false) ∨
        (t.ctrlState = .exhausted ∧ t.nonce = 0xFFFFFFFF ∧
          ∀ n : Word, meetsTarget (doubleHash (headerWithNonce hdr n)) tgt = false))

/-! ## The surroundings -/

/-- R37: a turn in which the environment drives CANCEL sets the level where the block has the input and is not recorded
where it has none; nothing else changes. That a drive is a turn of the schedule is the model's choice (log 3, log 9). -/
def Obligations.DriveCancelSetsTheLevel : Prop :=
  ∀ (s : State) (level : Bool) (rest : List Turn), s.schedule = .driveCancel level :: rest →
    (s.params.cancelHook = .present → step s = .next { s with cancel := level, schedule := rest }) ∧
    (s.params.cancelHook = .absent → step s = .next { s with schedule := rest })

/-- R55, R56, R64: a turn in which the transport has one more answer to a read or to a write puts it behind the answers that
wait; nothing else changes. That answers wait in lists and come in turns is the model's choice (log 3, log 5). -/
def Obligations.TransportAnswersWaitInOrder : Prop :=
  ∀ (s : State) (rest : List Turn),
    (∀ a, s.schedule = .rxAnswer a :: rest → step s = .next { s with rx := s.rx ++ [a], schedule := rest }) ∧
    (∀ a, s.schedule = .txAnswer a :: rest →
      step s = .next { s with txAnswers := s.txAnswers ++ [a], schedule := rest })
end

