-- ==== Sys2Proof/Laws/Bytes.lean ====
section
/-! SUPPORT. The laws of byte strings, byte order and hex (R10, R12, R51, R82). -/

namespace Sys2Proof.Machine

/-! ## Fixed-length strings -/

theorem bytes_eq {n : Nat} {a b : Bytes n} (h : a.toList = b.toList) : a = b := by
  cases a; cases b; simpa using h

theorem ofList?_eq_some {n : Nat} {l : List Byte} {b : Bytes n} :
    Bytes.ofList? n l = some b ↔ l = b.toList := by
  unfold Bytes.ofList?
  constructor
  · intro h
    split at h
    · simp only [Option.some.injEq] at h; exact (congrArg Bytes.toList h)
    · simp at h
  · intro h
    subst h
    simp [b.length_eq]

theorem ofList?_toList {n : Nat} (b : Bytes n) : Bytes.ofList? n b.toList = some b := ofList?_eq_some.mpr rfl

theorem ofList?_eq_none {n : Nat} {l : List Byte} : Bytes.ofList? n l = none ↔ l.length ≠ n := by
  unfold Bytes.ofList?; split <;> simp_all

theorem ofList?_isSome {n : Nat} {l : List Byte} (h : l.length = n) : ∃ b, Bytes.ofList? n l = some b :=
  ⟨⟨l, h⟩, ofList?_eq_some.mpr rfl⟩

/-! ## Slices -/

theorem slice_length (F : List Byte) (lo n : Nat) : (slice F lo n).length = min n (F.length - lo) := by
  simp [slice]

/-- A slice that begins after a prefix is a slice of the rest. -/
theorem slice_append_right (A B : List Byte) (lo n : Nat) (h : A.length ≤ lo) :
    slice (A ++ B) lo n = slice B (lo - A.length) n := by
  simp only [slice, List.drop_append, List.drop_eq_nil_of_le h, List.nil_append]

/-- The piece that stands exactly at the start. -/
theorem slice_append_self (A B : List Byte) (n : Nat) (h : A.length = n) : slice (A ++ B) 0 n = A := by
  simp [slice, ← h]

theorem slice_all (A : List Byte) (n : Nat) (h : A.length = n) : slice A 0 n = A := by
  simp [slice, ← h]

/-- Two neighbouring slices make one. -/
theorem slice_split (F : List Byte) (lo a b : Nat) : slice F lo (a + b) = slice F lo a ++ slice F (lo + a) b := by
  simp only [slice, List.take_add, List.drop_drop]

theorem slice_zero_drop (F : List Byte) (n : Nat) : slice F 0 n ++ F.drop n = F := by simp [slice]

/-! ## The nonce field of the tail (R76, R82) -/

theorem setTailNonce_front (tail : Bytes 64) (n : Word) :
    slice (setTailNonce tail n).toList 0 12 = slice tail.toList 0 12 := by
  simp [setTailNonce, slice, tail.length_eq]

theorem setTailNonce_back (tail : Bytes 64) (n : Word) :
    slice (setTailNonce tail n).toList 16 48 = slice tail.toList 16 48 := by
  have h : (List.take 12 tail.toList).drop 16 = [] := List.drop_eq_nil_of_le (by simp)
  simp [setTailNonce, slice, tail.length_eq, List.drop_append, le32Bytes, h]

theorem setTailNonce_twice (tail : Bytes 64) (m n : Word) :
    setTailNonce (setTailNonce tail m) n = setTailNonce tail n := by
  apply bytes_eq
  change slice (setTailNonce tail m).toList 0 12 ++ le32Bytes n ++ slice (setTailNonce tail m).toList 16 48 = _
  rw [setTailNonce_front, setTailNonce_back]; rfl

theorem blk2_front (hdr : Bytes 80) : slice (blk2 hdr).toList 0 12 = slice hdr.toList 64 12 := by
  simp only [blk2, slice, List.drop_zero]
  rw [List.take_append_of_le_length (by simp [hdr.length_eq])]
  simp [List.take_take]

theorem blk2_back (hdr : Bytes 80) : slice (blk2 hdr).toList 16 48 = blk2Pad := by
  simp only [blk2, slice]
  rw [List.drop_append]
  simp [hdr.length_eq]
  decide

theorem blk1_headerWithNonce (hdr : Bytes 80) (n : Word) : blk1 (headerWithNonce hdr n) = blk1 hdr := by
  apply bytes_eq
  simp [blk1, headerWithNonce, slice, hdr.length_eq, List.take_append, List.take_take]

/-! ## Words and numbers -/

theorem be32_be32Bytes (x : Word) : be32 (x.extractLsb' 24 8) (x.extractLsb' 16 8) (x.extractLsb' 8 8)
    (x.extractLsb' 0 8) = x := by
  apply BitVec.eq_of_getLsbD_eq
  intro i hi
  simp only [be32, BitVec.getLsbD_append, BitVec.getLsbD_extractLsb']
  split
  · rename_i h; simp [h]
  · split
    · rename_i h1 h2; simp only [h2, decide_true, Bool.true_and]; congr 1; omega
    · split
      · rename_i h1 h2 h3; simp only [h3, decide_true, Bool.true_and]; congr 1; omega
      · rename_i h1 h2 h3
        rw [decide_eq_true (show i - 8 - 8 - 8 < 8 by omega), Bool.true_and]; congr 1; omega

theorem be32Bytes_be32 (b0 b1 b2 b3 : Byte) : be32Bytes (be32 b0 b1 b2 b3) = [b0, b1, b2, b3] := by
  simp only [be32Bytes, be32, List.cons.injEq, and_true]
  refine ⟨?_, ?_, ?_, ?_⟩ <;>
  · apply BitVec.eq_of_getLsbD_eq
    intro i hi
    simp only [BitVec.getLsbD_extractLsb', BitVec.getLsbD_append, hi, decide_true, Bool.true_and]
    repeat' split
    all_goals first | omega | (congr 1; omega)

theorem be32Bytes_length (x : Word) : (be32Bytes x).length = 4 := rfl

theorem le32Bytes_length (x : Word) : (le32Bytes x).length = 4 := rfl

theorem bytesLE_length (k n : Nat) : (bytesLE k n).length = k := by
  induction k generalizing n with
  | zero => rfl
  | succ k ih => simp [bytesLE, ih]

theorem bytesBE_length (k n : Nat) : (bytesBE k n).length = k := by simp [bytesBE, bytesLE_length]

theorem leNat_bytesLE (k n : Nat) : leNat (bytesLE k n) = n % 256 ^ k := by
  induction k generalizing n with
  | zero => simp [bytesLE, leNat, Nat.mod_one]
  | succ k ih =>
    rw [show 256 ^ (k + 1) = 256 * 256 ^ k from Nat.pow_succ', Nat.mod_mul]
    simp only [bytesLE, leNat, ih, BitVec.toNat_ofNat, Nat.reducePow]

theorem bytesLE_leNat (B : List Byte) : bytesLE B.length (leNat B) = B := by
  induction B with
  | nil => rfl
  | cons b r ih =>
    have hb := b.isLt
    simp only [List.length_cons, bytesLE, leNat, List.cons.injEq]
    refine ⟨?_, ?_⟩
    · apply BitVec.eq_of_toNat_eq
      simp only [BitVec.toNat_ofNat]
      omega
    · rw [show (b.toNat + 256 * leNat r) / 256 = leNat r by omega, ih]

theorem leNat_lt (B : List Byte) : leNat B < 256 ^ B.length := by
  induction B with
  | nil => simp [leNat]
  | cons b r ih =>
    have hb := b.isLt
    simp only [leNat, List.length_cons, Nat.pow_succ]
    omega

theorem beNat_bytesBE (k n : Nat) (h : n < 256 ^ k) : beNat (bytesBE k n) = n := by
  simp [beNat, bytesBE, leNat_bytesLE, Nat.mod_eq_of_lt h]

theorem bytesBE_beNat (B : List Byte) : bytesBE B.length (beNat B) = B := by
  have := bytesLE_leNat B.reverse
  simp only [List.length_reverse] at this
  simp [bytesBE, beNat, this]

/-! ## Hex -/

/-- Every byte is a hex digit of one value or of none; `hexchar` gives the lowercase one. -/
theorem hexval_hexchar : ∀ v, v < 16 → hexval (hexchar v) = some v := by decide

theorem hexval_lt (c : Byte) (v : Nat) (h : hexval c = some v) : v < 16 := by
  unfold hexval at h
  simp only at h
  split at h
  · simp only [Option.some.injEq] at h; omega
  · split at h
    · simp only [Option.some.injEq] at h; omega
    · split at h
      · simp only [Option.some.injEq] at h; omega
      · simp at h

theorem isHexDigit_hexchar (v : Nat) (h : v < 16) : isHexDigit (hexchar v) = true := by
  simp [isHexDigit, hexval_hexchar v h]

theorem hexDecodePairs_hashHex (B : List Byte) : hexDecodePairs (hashHex B) = some B := by
  induction B with
  | nil => rfl
  | cons b r ih =>
    have hb := b.isLt
    simp only [hashHex, hexDecodePairs, hexval_hexchar _ (show b.toNat / 16 < 16 by omega),
      hexval_hexchar _ (show b.toNat % 16 < 16 by omega), ih, Option.some.injEq, List.cons.injEq, and_true]
    apply BitVec.eq_of_toNat_eq
    simp only [BitVec.toNat_ofNat]
    omega

/-- The length of what pairs decode to. -/
theorem hexDecodePairs_length : ∀ C out : List Byte, hexDecodePairs C = some out → C.length = 2 * out.length
  | [], out, h => by
    simp only [hexDecodePairs, Option.some.injEq] at h
    subst h; rfl
  | [_], out, h => by simp [hexDecodePairs] at h
  | hi :: lo :: r, out, h => by
    unfold hexDecodePairs at h
    split at h
    · rename_i e1 e2 e3
      have := hexDecodePairs_length r _ e3
      simp only [Option.some.injEq] at h
      subst h
      simp only [List.length_cons]; omega
    · simp at h

/-- Pairs decode exactly where every character is a hex digit and none is left over. -/
theorem hexDecodePairs_isSome : ∀ C : List Byte,
    (hexDecodePairs C).isSome = true ↔ C.all isHexDigit = true ∧ C.length % 2 = 0
  | [] => by simp [hexDecodePairs]
  | [_] => by simp [hexDecodePairs]
  | hi :: lo :: r => by
    have ih := hexDecodePairs_isSome r
    simp only [hexDecodePairs, List.all_cons, isHexDigit, List.length_cons, Bool.and_eq_true]
    cases hexval hi with
    | none => simp
    | some a =>
      cases hexval lo with
      | none => simp
      | some b =>
        cases e3 : hexDecodePairs r with
        | none =>
          rw [e3] at ih
          simp only [Option.isSome_none, Bool.false_eq_true, false_iff, not_and] at ih ⊢
          intro h1
          have := ih h1.2.2
          omega
        | some c =>
          rw [e3] at ih
          simp only [Option.isSome_some, true_iff, true_and] at ih ⊢
          exact ⟨ih.1, by omega⟩

/-- What one more pair adds. -/
theorem hexDecodePairs_cons (hi lo : Byte) (r out : List Byte) (h l : Nat) (e1 : hexval hi = some h)
    (e2 : hexval lo = some l) (e3 : hexDecodePairs r = some out) :
    hexDecodePairs (hi :: lo :: r) = some (BitVec.ofNat 8 (h * 16 + l) :: out) := by
  simp [hexDecodePairs, e1, e2, e3]

/-- The value of a nonce's nibbles. -/
theorem hexNumber_nonceHex (n : Word) : hexNumber (nonceHex n) = some n.toNat := by
  have key : ∀ lo, (n.extractLsb' lo 4).toNat = n.toNat / 2 ^ lo % 16 := by
    intro lo
    simp [BitVec.extractLsb'_toNat, Nat.shiftRight_eq_div_pow]
  have hn := n.isLt
  have hv : ∀ lo, hexval (hexchar (n.extractLsb' lo 4).toNat) = some (n.toNat / 2 ^ lo % 16) := by
    intro lo
    rw [← key lo]
    exact hexval_hexchar _ (n.extractLsb' lo 4).isLt
  have hd : ∀ k, n.toNat / 2 ^ (4 + k) = n.toNat / 2 ^ k / 16 := fun k => by
    rw [Nat.div_div_eq_div_mul, Nat.pow_add, Nat.mul_comm]
  simp only [nonceHex, hexNumber, hv, List.length_cons, List.length_nil, Option.some.injEq]
  rw [hd 24, hd 20, hd 16, hd 12, hd 8, hd 4, hd 0]
  omega

end Sys2Proof.Machine
end

