-- ==== Sys2Proof/Laws/Decode.lean ====
section
/-! SUPPORT. The laws of the decoder's tables and operand readers, and of their encoders. -/

namespace Sys2Proof

open Machine

/-- No two rows of the opcode table have one OPID (R71). -/
theorem opcodeTable_distinct : (opcodeTable.map (·.1)).Pairwise (· ≠ ·) := by decide

theorem opidOf_code (op : Opid) : opidOf (opidCode op) = some op := by cases op <;> decide

theorem opidCode_of_opidOf : ∀ (b : Byte) (op : Opid), opidOf b = some op → opidCode op = b := by
  intro b op h
  unfold opidOf at h
  simp only [Option.map_eq_some_iff] at h
  obtain ⟨⟨c, o⟩, hf, rfl⟩ := h
  have hb : c = b := by simpa using List.find?_some hf
  have hm := List.mem_of_find?_eq_some hf
  subst hb
  revert hm
  have : ∀ row ∈ opcodeTable, opidCode row.2 = row.1 := by decide
  exact this (c, o)

/-- An operation's bytes never open a frame: `{` is no OPID (R72). -/
theorem opidCode_ne_brace (op : Opid) : opidCode op ≠ 0x7B#8 := by cases op <;> decide

theorem not_header_of_ne (b : Byte) (r : List Byte) (h : b ≠ 0x7B#8) : slice (b :: r) 0 11 ≠ headerMarker := by
  intro e
  simp only [slice, List.drop_zero, List.take_succ_cons, headerMarker, List.cons.injEq] at e
  exact h e.1

theorem not_nonce_of_ne (b : Byte) (r : List Byte) (h : b ≠ 0x7B#8) : slice (b :: r) 0 10 ≠ nonceMarker := by
  intro e
  simp only [slice, List.drop_zero, List.take_succ_cons, nonceMarker, List.cons.injEq] at e
  exact h e.1

/-! ## Operand readers read what their encoders write -/

theorem takeList_append (A B : List Byte) : takeList A.length (A ++ B) = some (A, B) := by
  simp [takeList]

theorem takeList_eq_some {n : Nat} {bs A B : List Byte} (h : takeList n bs = some (A, B)) :
    A.length = n ∧ bs = A ++ B := by
  unfold takeList at h
  split at h
  · simp only [Option.some.injEq, Prod.mk.injEq] at h
    obtain ⟨rfl, rfl⟩ := h
    exact ⟨by simp [*], (List.take_append_drop n bs).symm⟩
  · simp at h

theorem takeBytes_append {n : Nat} (b : Bytes n) (B : List Byte) :
    takeBytes n (b.toList ++ B) = some (b, B) := by
  have hl := b.length_eq
  unfold takeBytes
  rw [dif_pos (by simp [hl])]
  simp only [Option.some.injEq, Prod.mk.injEq]
  exact ⟨bytes_eq (by simp [← hl]), by simp [← hl]⟩

theorem takeBytes_eq_some {n : Nat} {bs B : List Byte} {b : Bytes n} (h : takeBytes n bs = some (b, B)) :
    bs = b.toList ++ B := by
  unfold takeBytes at h
  split at h
  · simp only [Option.some.injEq, Prod.mk.injEq] at h
    obtain ⟨rfl, rfl⟩ := h
    exact (List.take_append_drop n bs).symm
  · simp at h

theorem takeWord_append (x : Word) (B : List Byte) : takeWord (be32Bytes x ++ B) = some (x, B) := by
  simp [be32Bytes, takeWord, be32_be32Bytes]

theorem takeWord_eq_some {bs B : List Byte} {x : Word} (h : takeWord bs = some (x, B)) :
    bs = be32Bytes x ++ B := by
  unfold takeWord at h
  split at h
  · simp only [Option.some.injEq, Prod.mk.injEq] at h
    obtain ⟨rfl, rfl⟩ := h
    simp [be32Bytes_be32]
  · simp at h

theorem takeState_append (s : HashState) (B : List Byte) : takeState (encodeState s ++ B) = some (s, B) := by
  simp only [takeState, encodeState, ser, List.append_assoc, takeWord_append, Option.bind_eq_bind, Option.bind_some,
    Option.pure_def]

theorem takeState_eq_some {bs B : List Byte} {s : HashState} (h : takeState bs = some (s, B)) :
    bs = encodeState s ++ B := by
  simp only [takeState, Option.pure_def, Option.bind_eq_bind, Option.bind_eq_some_iff, Option.some.injEq,
    Prod.mk.injEq, Prod.exists] at h
  obtain ⟨s0, b0, h0, s1, b1, h1, s2, b2, h2, s3, b3, h3, s4, b4, h4, s5, b5, h5, s6, b6, h6, s7, b7, h7, rfl, rfl⟩ := h
  rw [takeWord_eq_some h0, takeWord_eq_some h1, takeWord_eq_some h2, takeWord_eq_some h3, takeWord_eq_some h4,
    takeWord_eq_some h5, takeWord_eq_some h6, takeWord_eq_some h7]
  simp only [encodeState, ser, List.append_assoc]

theorem takeNat_append (k n : Nat) (B : List Byte) (h : n < 256 ^ k) :
    takeNat k (bytesBE k n ++ B) = some (n, B) := by
  have := takeList_append (bytesBE k n) B
  rw [bytesBE_length] at this
  simp [takeNat, this, beNat_bytesBE k n h]

theorem takeNat_eq_some {k n : Nat} {bs B : List Byte} (h : takeNat k bs = some (n, B)) :
    n < 256 ^ k ∧ bs = bytesBE k n ++ B := by
  simp only [takeNat, Option.map_eq_some_iff, Prod.mk.injEq] at h
  obtain ⟨⟨A, B'⟩, h, rfl, rfl⟩ := h
  obtain ⟨rfl, rfl⟩ := takeList_eq_some h
  refine ⟨?_, by rw [bytesBE_beNat]⟩
  have := leNat_lt A.reverse
  simpa [beNat] using this

end Sys2Proof
end

