-- ==== Sys2Proof/Laws/Frames.lean ====
section
/-! SUPPORT. The pieces of the two wire frames (R80, R81), and what hex text determines (R12, R82, R175). -/

namespace Sys2Proof.Machine

/-! ## Hex text -/

theorem isLowerHexDigit_hexchar : ∀ v, v < 16 → isLowerHexDigit (hexchar v) = true := by decide

/-- A lowercase digit is the one its value prints as. -/
theorem eq_hexchar_of_lower {c : Byte} {v : Nat} (hc : isLowerHexDigit c = true) (h : hexval c = some v) :
    c = hexchar v := by
  simp only [isLowerHexDigit, h, beq_iff_eq] at hc; exact hc.symm

theorem nonceHex_lower (n : Word) : (nonceHex n).all isLowerHexDigit = true := by
  have : ∀ lo, (n.extractLsb' lo 4).toNat < 16 := fun lo => (n.extractLsb' lo 4).isLt
  simp only [nonceHex, List.all_cons, List.all_nil, isLowerHexDigit_hexchar _ (this _), Bool.and_self]

theorem hashHex_lower (B : List Byte) : (hashHex B).all isLowerHexDigit = true := by
  induction B with
  | nil => rfl
  | cons b r ih =>
    have hb := b.isLt
    simp only [hashHex, List.all_cons, isLowerHexDigit_hexchar _ (show b.toNat / 16 < 16 by omega),
      isLowerHexDigit_hexchar _ (show b.toNat % 16 < 16 by omega), ih, Bool.and_self]

/-- Where byte `k`'s two characters stand. -/
theorem hashHex_getElem? : ∀ (B : List Byte) (k : Nat) (b : Byte), B[k]? = some b →
    (hashHex B)[2 * k]? = some (hexchar (b.toNat / 16)) ∧ (hashHex B)[2 * k + 1]? = some (hexchar (b.toNat % 16))
  | [], k, b, h => by simp at h
  | a :: r, 0, b, h => by simp at h; subst h; simp [hashHex]
  | a :: r, k + 1, b, h => by
    have ih := hashHex_getElem? r k b (by simpa using h)
    rw [show 2 * (k + 1) = 2 * k + 1 + 1 by omega]
    exact ⟨by simpa [hashHex] using ih.1, by simpa [hashHex] using ih.2⟩

/-- Where pair `k` of decoded text comes from. -/
theorem hexDecodePairs_getElem? : ∀ (C out : List Byte), hexDecodePairs C = some out → ∀ k, k < out.length →
    ∃ chi clo vhi vlo, C[2 * k]? = some chi ∧ C[2 * k + 1]? = some clo ∧ hexval chi = some vhi ∧
      hexval clo = some vlo ∧ out[k]? = some (BitVec.ofNat 8 (vhi * 16 + vlo))
  | [], out, h, k, hk => by simp [hexDecodePairs] at h; subst h; simp at hk
  | [_], out, h, k, hk => by simp [hexDecodePairs] at h
  | hi :: lo :: r, out, h, k, hk => by
    unfold hexDecodePairs at h
    split at h
    · rename_i a b o e1 e2 e3
      simp only [Option.some.injEq] at h; subst h
      cases k with
      | zero => exact ⟨hi, lo, a, b, rfl, rfl, e1, e2, rfl⟩
      | succ k =>
        obtain ⟨c, d, v, w, h1, h2, h3, h4, h5⟩ := hexDecodePairs_getElem? r o e3 k (by simpa using hk)
        rw [show 2 * (k + 1) = 2 * k + 1 + 1 by omega]
        exact ⟨c, d, v, w, by simpa using h1, by simpa using h2, h3, h4, by simpa using h5⟩
    · simp at h

theorem hexDecode_of_pairs {C : List Byte} {n : Nat} {b : Bytes n} (h : hexDecodePairs C = some b.toList) :
    hexDecode C n = some b := by
  simp [hexDecode, h, ofList?_toList]

theorem pairs_of_hexDecode {C : List Byte} {n : Nat} {b : Bytes n} (h : hexDecode C n = some b) :
    hexDecodePairs C = some b.toList := by
  unfold hexDecode at h
  split at h
  · rename_i out e; rw [e, ofList?_eq_some.mp h]
  · simp at h

/-- `NOT_HEX` is just for a string with a character that is no digit. -/
theorem hexDecode_eq_none {C : List Byte} {n : Nat} (hl : C.length = 2 * n) :
    hexDecode C n = none ↔ ¬C.all isHexDigit = true := by
  constructor
  · intro h h2
    obtain ⟨out, ho⟩ := Option.isSome_iff_exists.mp ((hexDecodePairs_isSome C).mpr ⟨h2, by omega⟩)
    have := hexDecodePairs_length _ _ ho
    obtain ⟨b, hb⟩ := ofList?_isSome (show out.length = n by omega)
    simp [hexDecode, ho, hb] at h
  · intro h
    have : hexDecodePairs C = none := by
      rw [← Option.not_isSome_iff_eq_none, hexDecodePairs_isSome]; exact fun e => h e.1
    simp [hexDecode, this]

/-! ## Pieces of the frames -/

theorem jobFrameText_length (hh : Bytes 160) (th : Bytes 64) : (jobFrameText hh th).length = 249 := by
  simp [jobFrameText, headerMarker, targetMarker, hh.length_eq, th.length_eq]

/-- The pieces of a job frame at R80's offsets, whatever follows it. -/
theorem jobFrameText_slices (hh : Bytes 160) (th : Bytes 64) (rest : List Byte) :
    slice (jobFrameText hh th ++ rest) 0 11 = headerMarker ∧
    slice (jobFrameText hh th ++ rest) 11 160 = hh.toList ∧
    slice (jobFrameText hh th ++ rest) 171 1 = [quote] ∧
    slice (jobFrameText hh th ++ rest) 172 11 = targetMarker ∧
    slice (jobFrameText hh th ++ rest) 183 64 = th.toList ∧
    slice (jobFrameText hh th ++ rest) 247 1 = [quote] ∧
    slice (jobFrameText hh th ++ rest) 248 1 = [rbrace] := by
  have h1 := hh.length_eq
  have h2 := th.length_eq
  have e0 : jobFrameText hh th ++ rest =
      headerMarker ++ (hh.toList ++ ([quote] ++ (targetMarker ++ (th.toList ++ ([quote] ++ ([rbrace] ++ rest)))))) := by
    simp [jobFrameText, List.append_assoc]
  have l1 : headerMarker.length = 11 := rfl
  have l2 : targetMarker.length = 11 := rfl
  have l3 : [quote].length = 1 := rfl
  have l4 : [rbrace].length = 1 := rfl
  rw [e0]
  refine ⟨slice_append_self _ _ _ l1, ?_, ?_, ?_, ?_, ?_, ?_⟩
  · rw [slice_append_right _ _ _ _ (by omega), l1]; exact slice_append_self _ _ _ h1
  · rw [slice_append_right _ _ _ _ (by omega), slice_append_right _ _ _ _ (by omega), l1, h1]
    exact slice_append_self _ _ _ l3
  · rw [slice_append_right _ _ _ _ (by omega), slice_append_right _ _ _ _ (by omega),
      slice_append_right _ _ _ _ (by omega), l1, h1, l3]
    exact slice_append_self _ _ _ l2
  · rw [slice_append_right _ _ _ _ (by omega), slice_append_right _ _ _ _ (by omega),
      slice_append_right _ _ _ _ (by omega), slice_append_right _ _ _ _ (by omega), l1, h1, l3, l2]
    exact slice_append_self _ _ _ h2
  · rw [slice_append_right _ _ _ _ (by omega), slice_append_right _ _ _ _ (by omega),
      slice_append_right _ _ _ _ (by omega), slice_append_right _ _ _ _ (by omega),
      slice_append_right _ _ _ _ (by omega), l1, h1, l3, l2, h2]
    exact slice_append_self _ _ _ l3
  · rw [slice_append_right _ _ _ _ (by omega), slice_append_right _ _ _ _ (by omega),
      slice_append_right _ _ _ _ (by omega), slice_append_right _ _ _ _ (by omega),
      slice_append_right _ _ _ _ (by omega), slice_append_right _ _ _ _ (by omega), l1, h1, l3, l2, h2]
    exact slice_append_self _ _ _ l4

/-- The pieces of a share frame at R81's offsets, whatever follows it. -/
theorem shareText_slices (n : Word) (d : Bytes 32) (rest : List Byte) :
    slice ((shareText n d).toList ++ rest) 0 10 = nonceMarker ∧
    slice ((shareText n d).toList ++ rest) 10 8 = nonceHex n ∧
    slice ((shareText n d).toList ++ rest) 18 10 = hashMarker ∧
    slice ((shareText n d).toList ++ rest) 28 64 = hashHex d.toList ∧
    slice ((shareText n d).toList ++ rest) 92 3 = shareEnd := by
  have h64 : (hashHex d.toList).length = 64 := by rw [hashHex_length, d.length_eq]
  have h8 : (nonceHex n).length = 8 := rfl
  have l1 : nonceMarker.length = 10 := rfl
  have l2 : hashMarker.length = 10 := rfl
  have l3 : shareEnd.length = 3 := rfl
  have e0 : (shareText n d).toList ++ rest =
      nonceMarker ++ (nonceHex n ++ (hashMarker ++ (hashHex d.toList ++ (shareEnd ++ rest)))) := by
    simp [shareText, List.append_assoc]
  rw [e0]
  refine ⟨slice_append_self _ _ _ l1, ?_, ?_, ?_, ?_⟩
  · rw [slice_append_right _ _ _ _ (by omega), l1]; exact slice_append_self _ _ _ h8
  · rw [slice_append_right _ _ _ _ (by omega), slice_append_right _ _ _ _ (by omega), l1, h8]
    exact slice_append_self _ _ _ l2
  · rw [slice_append_right _ _ _ _ (by omega), slice_append_right _ _ _ _ (by omega),
      slice_append_right _ _ _ _ (by omega), l1, h8, l2]
    exact slice_append_self _ _ _ h64
  · rw [slice_append_right _ _ _ _ (by omega), slice_append_right _ _ _ _ (by omega),
      slice_append_right _ _ _ _ (by omega), slice_append_right _ _ _ _ (by omega), l1, h8, l2, h64]
    exact slice_append_self _ _ _ l3

end Sys2Proof.Machine
end

