-- ==== Sys2Proof/Laws/HashEngine.lean ====
section
/-! SUPPORT. The laws of the Hash Engine's parts: words of a block, schedule, padding, blocks, and the tail block with a
nonce in it (R74, R76, R78, R106, R107, R118, R144). -/

namespace Sys2Proof.Machine

/-! ## Words and schedule (R106, R107) -/

theorem wordsBE_length : ∀ (l : List Byte) (n : Nat), l.length = 4 * n → (wordsBE l).length = n
  | l, 0, h => by
    have := List.length_eq_zero_iff.mp (by simpa using h)
    subst this; rfl
  | b0 :: b1 :: b2 :: b3 :: r, n + 1, h => by
    simp only [wordsBE, List.length_cons, wordsBE_length r n (by simp at h; omega)]
  | [], n + 1, h => by simp at h
  | [_], n + 1, h => by simp at h; omega
  | [_, _], n + 1, h => by simp at h; omega
  | [_, _, _], n + 1, h => by simp at h; omega

/-- Word `t` comes from the four bytes at `4 t`. -/
theorem wordsBE_getElem? : ∀ (l : List Byte) (n t : Nat), l.length = 4 * n → t < n → ∃ b0 b1 b2 b3,
    l[4 * t]? = some b0 ∧ l[4 * t + 1]? = some b1 ∧ l[4 * t + 2]? = some b2 ∧ l[4 * t + 3]? = some b3 ∧
      (wordsBE l)[t]? = some (be32 b0 b1 b2 b3)
  | l, 0, t, h, ht => by omega
  | b0 :: b1 :: b2 :: b3 :: r, n + 1, 0, h, ht => ⟨b0, b1, b2, b3, by simp [wordsBE]⟩
  | b0 :: b1 :: b2 :: b3 :: r, n + 1, t + 1, h, ht => by
    obtain ⟨c0, c1, c2, c3, h0, h1, h2, h3, h4⟩ := wordsBE_getElem? r n t (by simp at h; omega) (by omega)
    refine ⟨c0, c1, c2, c3, ?_, ?_, ?_, ?_, by simpa [wordsBE] using h4⟩
    · rw [show 4 * (t + 1) = 4 * t + 1 + 1 + 1 + 1 by omega]; simpa using h0
    · rw [show 4 * (t + 1) + 1 = 4 * t + 1 + 1 + 1 + 1 + 1 by omega]; simpa using h1
    · rw [show 4 * (t + 1) + 2 = 4 * t + 2 + 1 + 1 + 1 + 1 by omega]; simpa using h2
    · rw [show 4 * (t + 1) + 3 = 4 * t + 3 + 1 + 1 + 1 + 1 by omega]; simpa using h3
  | [], n + 1, t, h, ht => by simp at h
  | [_], n + 1, t, h, ht => by simp at h; omega
  | [_, _], n + 1, t, h, ht => by simp at h; omega
  | [_, _, _], n + 1, t, h, ht => by simp at h; omega

/-- One more schedule word stands before the ones so far (newest first). -/
theorem extendSchedule_succ (n : Nat) : ∀ w, extendSchedule (n + 1) w =
    nextScheduleWord (extendSchedule n w) :: extendSchedule n w := by
  induction n with
  | zero => intro w; rfl
  | succ n ih => intro w; rw [extendSchedule, ih, extendSchedule]

theorem extendSchedule_length (n : Nat) (w : List Word) : (extendSchedule n w).length = n + w.length := by
  induction n with
  | zero => simp [extendSchedule]
  | succ n ih => rw [extendSchedule_succ]; simp [ih]; omega

/-- A schedule word, once made, is not changed by later ones. -/
theorem extendSchedule_stable (n k : Nat) (w : List Word) (i : Nat) (h : i < n + w.length) :
    (extendSchedule (n + k) w).reverse[i]? = (extendSchedule n w).reverse[i]? := by
  induction k with
  | zero => rfl
  | succ k ih =>
    rw [← Nat.add_assoc, extendSchedule_succ, List.reverse_cons,
      List.getElem?_append_left (by simp [extendSchedule_length]; omega), ih]

theorem messageSchedule_length (B : Bytes 64) : (messageSchedule B).length = 64 := by
  simp [messageSchedule, extendSchedule_length, wordsBE_length _ 16 B.length_eq]

/-! ## Serialization and padding (R78, R118) -/

theorem ser_toList (S : HashState) :
    (ser S).toList = [S.s0, S.s1, S.s2, S.s3, S.s4, S.s5, S.s6, S.s7].flatMap be32Bytes := rfl

theorem padMessage_length (M : List Byte) :
    (padMessage M).length % 64 = 0 ∧ (padMessage M).length = M.length + 1 + padZeros M.length + 8 := by
  have : (padMessage M).length = M.length + 1 + padZeros M.length + 8 := by
    simp [padMessage, be64Bytes, bytesBE_length]; omega
  rw [this]
  refine ⟨?_, rfl⟩
  unfold padZeros; omega

/-- A string that begins with a block has it as its first block. -/
theorem firstBlock_append {B : Bytes 64} {P R : List Byte} (h : P = B.toList ++ R) : firstBlock P = B := by
  apply bytes_eq
  subst h
  simp [firstBlock, B.length_eq]

/-- A string of whole blocks is compressed block after block. -/
theorem compressBlocks_eq_foldl (n : Nat) : ∀ (P : List Byte) (S : HashState), P.length = 64 * n →
    ∃ bl : List (Bytes 64), P = bl.flatMap (·.toList) ∧ compressBlocks n S P = bl.foldl compress S := by
  induction n with
  | zero => intro P S h; exact ⟨[], by simpa using h, rfl⟩
  | succ n ih =>
    intro P S h
    obtain ⟨bl, h1, h2⟩ := ih (P.drop 64) (compress S (firstBlock P)) (by simp; omega)
    refine ⟨firstBlock P :: bl, ?_, h2⟩
    simp only [List.flatMap_cons, ← h1, firstBlock, show 64 - P.length = 0 by omega, List.replicate_zero,
      List.append_nil, List.take_append_drop]

/-! ## The tail block (R76, R82, R144) -/

/-- A tail made from the header, with a nonce put in, is pass-1 block 2 of the header with that nonce. -/
theorem setTailNonce_eq_blk2 (hdr : Bytes 80) (tail : Bytes 64) (n : Word)
    (h1 : slice tail.toList 0 12 = slice hdr.toList 64 12) (h2 : slice tail.toList 16 48 = blk2Pad) :
    setTailNonce tail n = blk2 (headerWithNonce hdr n) := by
  apply bytes_eq
  simp only [setTailNonce, blk2, headerWithNonce, h1, h2]
  congr 1
  simp [slice, hdr.length_eq, List.drop_append, le32Bytes]
  rw [List.drop_take, List.take_append]
  simp [hdr.length_eq, List.take_take]

theorem blk2_toList (hdr : Bytes 80) : (blk2 hdr).toList =
    hdr.toList.drop 64 ++ [0x80#8] ++ List.replicate 39 0#8 ++ [0, 0, 0, 0, 0, 0, 2#8, 0x80#8] := by
  have : (List.drop 64 hdr.toList).length = 16 := by simp [hdr.length_eq]
  simp only [blk2, slice, blk2Pad, List.take_of_length_le (Nat.le_of_eq this), List.append_assoc]
  rw [show be64Bytes 640 = [0, 0, 0, 0, 0, 0, 2#8, 0x80#8] by decide]

theorem blk3_toList (d1 : Bytes 32) : (blk3 d1).toList =
    d1.toList ++ [0x80#8] ++ List.replicate 23 0#8 ++ [0, 0, 0, 0, 0, 0, 1#8, 0#8] :=
  congrArg (fun x => d1.toList ++ [0x80#8] ++ List.replicate 23 0#8 ++ x)
    (show be64Bytes 256 = [0, 0, 0, 0, 0, 0, 1#8, 0#8] by decide)

theorem setTailNonce_toList (tail : Bytes 64) (n : Word) : (setTailNonce tail n).toList =
    tail.toList.take 12 ++ [n.extractLsb' 0 8, n.extractLsb' 8 8, n.extractLsb' 16 8, n.extractLsb' 24 8] ++
      tail.toList.drop 16 := by
  have : (List.drop 16 tail.toList).length = 48 := by simp [tail.length_eq]
  rw [setTailNonce]
  simp only [slice, List.drop_zero, le32Bytes, List.take_of_length_le (Nat.le_of_eq this)]

end Sys2Proof.Machine
end

