-- ==== Sys2Proof/Laws/Memory.lean ====
section
/-! SUPPORT. The laws of the indexed store (R30, log 8): a read sees the last write, other indices are untouched, and
every write keeps the canonical form. -/

namespace Sys2Proof.Machine

@[simp] theorem Memory.read_nil (a : Nat) : Memory.read [] a = none := rfl

/-- A canonical store's tail starts above its head, so the head's index is read nowhere else. -/
theorem Memory.read_none_of_below (m : Memory) (a : Nat) (h : m.all (fun c => decide (a < c.1)) = true) :
    Memory.read m a = none := by
  induction m with
  | nil => rfl
  | cons c r ih =>
    obtain ⟨k, w⟩ := c
    simp only [List.all_cons, Bool.and_eq_true, decide_eq_true_eq] at h
    simp [Memory.read, Nat.ne_of_gt h.1, ih h.2]

theorem Memory.read_write_same (m : Memory) (a : Nat) (v : Byte) :
    Memory.read (Memory.write m a v) a = some v := by
  induction m with
  | nil => simp [Memory.write, Memory.read]
  | cons c r ih =>
    obtain ⟨k, w⟩ := c
    simp only [Memory.write]
    split
    · simp [Memory.read]
    · split
      · simp [Memory.read]
      · rename_i h1 h2
        simp [Memory.read, Ne.symm h2, ih]

theorem Memory.read_write_other (m : Memory) (a b : Nat) (v : Byte) (h : b ≠ a) :
    Memory.read (Memory.write m a v) b = Memory.read m b := by
  induction m with
  | nil => simp [Memory.write, Memory.read, Ne.symm h]
  | cons c r ih =>
    obtain ⟨k, w⟩ := c
    simp only [Memory.write]
    split
    · simp [Memory.read, Ne.symm h]
    · split
      · rename_i h1 h2
        subst h2
        simp [Memory.read, Ne.symm h]
      · simp [Memory.read, ih]

/-- What a read sees after a write. -/
theorem Memory.read_write (m : Memory) (a b : Nat) (v : Byte) :
    Memory.read (Memory.write m a v) b = if b = a then some v else Memory.read m b := by
  split
  · rename_i h; subst h; exact Memory.read_write_same m b v
  · rename_i h; exact Memory.read_write_other m a b v h

/-- A write adds no index below a bound that the old store and the new index respect. -/
theorem Memory.write_all_above (m : Memory) (a k : Nat) (v : Byte)
    (h : m.all (fun c => decide (k < c.1)) = true) (hk : k < a) :
    (Memory.write m a v).all (fun c => decide (k < c.1)) = true := by
  induction m with
  | nil => simp [Memory.write, hk]
  | cons c r ih =>
    obtain ⟨j, w⟩ := c
    simp only [List.all_cons, Bool.and_eq_true, decide_eq_true_eq] at h
    simp only [Memory.write]
    split
    · simp only [List.all_cons, Bool.and_eq_true, decide_eq_true_eq]; exact ⟨hk, h⟩
    · split
      · simp only [List.all_cons, Bool.and_eq_true, decide_eq_true_eq]; exact ⟨hk, h.2⟩
      · simp only [List.all_cons, Bool.and_eq_true, decide_eq_true_eq]; exact ⟨h.1, ih h.2⟩

/-- Every write keeps the canonical form. -/
theorem Memory.wf_write (m : Memory) (a : Nat) (v : Byte) (h : Memory.wf m = true) :
    Memory.wf (Memory.write m a v) = true := by
  induction m with
  | nil => simp [Memory.write, Memory.wf]
  | cons c r ih =>
    obtain ⟨k, w⟩ := c
    simp only [Memory.wf, Bool.and_eq_true] at h
    simp only [Memory.write]
    split
    · rename_i hk
      simp only [Memory.wf, List.all_cons, Bool.and_eq_true, decide_eq_true_eq]
      refine ⟨⟨hk, ?_⟩, h⟩
      exact List.all_eq_true.mpr fun c hc => by
        have := List.all_eq_true.mp h.1 c hc
        simp only [decide_eq_true_eq] at this ⊢
        omega
    · split
      · rename_i hk
        subst hk
        simp only [Memory.wf, Bool.and_eq_true]; exact h
      · rename_i h1 h2
        simp only [Memory.wf, Bool.and_eq_true]
        exact ⟨Memory.write_all_above r a k v h.1 (by omega), ih h.2⟩

@[simp] theorem reset_wf (p : Params) : Memory.wf (State.resetWith p).rxBuf = true := rfl

/-- Reading a range depends on the bytes of that range only. -/
theorem Memory.readFrom_congr (m m' : Memory) (a n : Nat)
    (h : ∀ i, a ≤ i → i < a + n → Memory.read m i = Memory.read m' i) :
    Memory.readFrom m a n = Memory.readFrom m' a n := by
  induction n generalizing a with
  | zero => rfl
  | succ n ih =>
    simp only [Memory.readFrom]
    rw [h a (le_refl a) (by omega), ih (a + 1) fun i h1 h2 => h i (by omega) (by omega)]

/-- A range reads as `F` exactly where each of its indices reads as that byte of `F`. -/
theorem Memory.readFrom_eq_some (m : Memory) (a n : Nat) (F : List Byte) :
    Memory.readFrom m a n = some F ↔ F.length = n ∧ ∀ i, i < n → Memory.read m (a + i) = F[i]? := by
  induction n generalizing a F with
  | zero =>
    simp only [Memory.readFrom, Option.some.injEq]
    constructor
    · rintro rfl; simp
    · rintro ⟨h, -⟩; exact (List.length_eq_zero_iff.mp h).symm
  | succ n ih =>
    simp only [Memory.readFrom]
    constructor
    · intro h
      cases hb : Memory.read m a with
      | none => simp [hb] at h
      | some b =>
        cases hr : Memory.readFrom m (a + 1) n with
        | none => simp [hb, hr] at h
        | some r =>
          simp only [hb, hr, Option.some.injEq] at h
          subst h
          obtain ⟨h1, h2⟩ := (ih (a + 1) r).mp hr
          refine ⟨by simp [h1], fun i hi => ?_⟩
          cases i with
          | zero => simpa using hb
          | succ i =>
            have := h2 i (by omega)
            rw [show a + (i + 1) = a + 1 + i by omega, this]; simp
    · rintro ⟨h1, h2⟩
      cases F with
      | nil => simp at h1
      | cons b r =>
        have hb : Memory.read m a = some b := by simpa using h2 0 (by omega)
        have hr : Memory.readFrom m (a + 1) n = some r := by
          refine (ih (a + 1) r).mpr ⟨by simpa using h1, fun i hi => ?_⟩
          have := h2 (i + 1) (by omega)
          rw [show a + 1 + i = a + (i + 1) by omega, this]; simp
        simp [hb, hr]

/-- A range all of whose bytes are written reads as some string. -/
theorem Memory.readFrom_isSome (m : Memory) (a n : Nat)
    (h : ∀ i, a ≤ i → i < a + n → ∃ b, Memory.read m i = some b) :
    ∃ F, Memory.readFrom m a n = some F := by
  induction n generalizing a with
  | zero => exact ⟨[], rfl⟩
  | succ n ih =>
    obtain ⟨b, hb⟩ := h a (le_refl a) (by omega)
    obtain ⟨r, hr⟩ := ih (a + 1) fun i h1 h2 => h i (by omega) (by omega)
    exact ⟨b :: r, by simp [Memory.readFrom, hb, hr]⟩

end Sys2Proof.Machine
end

