-- ==== Sys2Proof/Laws/Ops.lean ====
section
/-! SUPPORT. What each shared operation and each meaning can do: if it answers a next state, which one. Later proofs cite
these instead of unfolding the meanings. -/

namespace Sys2Proof.Machine

/-! ## Guards and step selection (R141) -/

theorem guarded_of_select {c : CtrlStep} {s : State} {body : Host.Outcome State Fault Refusal}
    (h : selectStep s = some c) : guarded c s body = body := by
  simp [guarded, h]

theorem guarded_next {c : CtrlStep} {s t : State} {body : Host.Outcome State Fault Refusal}
    (h : guarded c s body = .next t) : selectStep s = some c ∧ body = .next t := by
  unfold guarded at h
  split at h
  · split at h <;> cases h
  · split at h
    · rename_i d hd hc; subst hc; exact ⟨hd, h⟩
    · cases h

/-- Only the guards of `RX_BYTE` and `FRAME_PARSE` read `RXBUF`; where that read is of an unwritten byte every other step is
refused (R72, R258). -/
theorem guarded_of_unreadable {c : CtrlStep} {s : State} {body : Host.Outcome State Fault Refusal}
    (h : selectStep s = none) : guarded c s body =
      if c = .rxByte ∨ c = .frameParse then .fault (.unwritten .rxBuf) else .refused (.guardNotHeld c) := by
  simp only [guarded, h]

theorem guarded_fault {c : CtrlStep} {s : State} {f : Fault} {body : Host.Outcome State Fault Refusal}
    (h : guarded c s body = .fault f) : selectStep s = none ∨ selectStep s = some c ∧ body = .fault f := by
  unfold guarded at h
  split at h
  · rename_i hd; exact .inl hd
  · split at h
    · rename_i d hd hc; subst hc; exact .inr ⟨hd, h⟩
    · cases h

theorem select_idle {s : State} (h : s.ctrlState = .idle) :
    selectStep s = (frameComplete s).map fun c => if c then .frameParse else .rxByte := by
  simp [selectStep, h]

theorem select_prepared {s : State} (h : s.ctrlState = .midstatePrepared) : selectStep s = some .startSearch := by
  simp [selectStep, h]

theorem select_searching {s : State} (h : s.ctrlState = .searching) : selectStep s =
    if s.params.cancelHook = .present ∧ s.cancel = true then some .cancelSearch else some .trial := by
  simp [selectStep, h]

theorem select_found {s : State} (h : s.ctrlState = .found) : selectStep s = some .emitShare := by
  simp [selectStep, h]

theorem select_exhausted {s : State} (h : s.ctrlState = .exhausted) :
    selectStep s = some .reportExhausted := by
  simp [selectStep, h]

/-- The controller state in which a step is enabled (R141). -/
def stateOfStep : CtrlStep → CtrlState
  | .rxByte => .idle
  | .frameParse => .idle
  | .startSearch => .midstatePrepared
  | .trial => .searching
  | .emitShare => .found
  | .reportExhausted => .exhausted
  | .cancelSearch => .searching

theorem state_of_select {s : State} {c : CtrlStep} (h : selectStep s = some c) : s.ctrlState = stateOfStep c := by
  unfold selectStep at h
  split at h
  · rename_i e
    simp only [Option.map_eq_some_iff] at h
    obtain ⟨b, -, rfl⟩ := h
    cases b <;> exact e
  · rename_i e; cases h; exact e
  · rename_i e; split at h <;> cases h <;> exact e
  · rename_i e; cases h; exact e
  · rename_i e; cases h; exact e

theorem frameComplete_of_rxByte {s : State} (h : selectStep s = some .rxByte) : frameComplete s = some false := by
  have e : s.ctrlState = .idle := state_of_select h
  rw [select_idle e] at h
  simp only [Option.map_eq_some_iff] at h
  obtain ⟨b, hb, h⟩ := h
  cases b
  · exact hb
  · simp at h

theorem frameComplete_of_frameParse {s : State} (h : selectStep s = some .frameParse) :
    frameComplete s = some true := by
  have e : s.ctrlState = .idle := state_of_select h
  rw [select_idle e] at h
  simp only [Option.map_eq_some_iff] at h
  obtain ⟨b, hb, h⟩ := h
  cases b
  · simp at h
  · exact hb

/-- The controller's choice depends on these elements only. -/
theorem selectStep_congr {s t : State} (h1 : t.ctrlState = s.ctrlState) (h2 : t.rxCount = s.rxCount)
    (h3 : t.rxBuf = s.rxBuf) (h4 : t.params = s.params) (h5 : t.cancel = s.cancel) :
    selectStep t = selectStep s := by
  simp [selectStep, frameComplete, h1, h2, h3, h4, h5]

/-! ## Transport (R55, R56) -/

theorem rxRead_none {s : State} (h : rxRead s = none) : s.rx = [] := by
  unfold rxRead at h
  split at h
  · assumption
  · simp at h
  · simp at h

theorem rxRead_fail {s t : State} (h : rxRead s = some (.fail, t)) :
    ∃ r, s.rx = .fail :: r ∧ t = { s with rx := r } := by
  unfold rxRead at h
  split at h
  · simp at h
  · simp at h
  · rename_i r e; simp only [Option.some.injEq, Prod.mk.injEq, true_and] at h; exact ⟨r, e, h.symm⟩

theorem rxRead_byte {s t : State} {b : Byte} (h : rxRead s = some (.byte b, t)) :
    ∃ r, s.rx = .byte b :: r ∧ t = { s with rx := r, rxConsumed := s.rxConsumed + 1 } := by
  unfold rxRead at h
  split at h
  · simp at h
  · rename_i b' r e
    simp only [Option.some.injEq, Prod.mk.injEq, RxAnswer.byte.injEq] at h
    obtain ⟨rfl, h⟩ := h
    exact ⟨r, e, h.symm⟩
  · simp at h

theorem txWrite_none {S : List Byte} {s : State} (h : txWrite S s = none) : s.txAnswers = [] := by
  unfold txWrite at h
  split at h
  · assumption
  · simp at h

theorem txWrite_some {S : List Byte} {s t : State} {ok : Bool} (h : txWrite S s = some (ok, t)) :
    ∃ a r, s.txAnswers = a :: r ∧ ok = (a == .ok) ∧
      t = { s with txAnswers := r, txLog := s.txLog ++ [⟨S, a.received S⟩] } := by
  unfold txWrite at h
  split at h
  · simp at h
  · rename_i a r e
    simp only [Option.some.injEq, Prod.mk.injEq] at h
    exact ⟨a, r, e, h.1.symm, h.2.symm⟩

/-! ## What an operation can do -/

/-- Every next state an operation can answer, with the condition under which it does. -/
inductive Effect (s : State) : State → Prop where
  /-- a unit, port or reference operation answers -/
  | answered (r : OpResult) : Effect s (answer r s)
  /-- the host offers a job frame -/
  | offered (as : List RxAnswer) : Effect s (offerRx as s)
  /-- `RX_BYTE` waits for the transport -/
  | waitsRx (h : selectStep s = some .rxByte) (e : s.rx = []) : Effect s s
  /-- `EMIT_SHARE` waits for the transport -/
  | waitsTx (h : selectStep s = some .emitShare) (e : s.txAnswers = []) : Effect s s
  | readFails (r : List RxAnswer) (h : selectStep s = some .rxByte) (e : s.rx = .fail :: r) :
    Effect s (raiseError (.transportFailure .rx) { beginIngestion s with rx := r })
  | readsByte (b : Byte) (r : List RxAnswer) (h : selectStep s = some .rxByte) (e : s.rx = .byte b :: r) :
    Effect s (ingestByte b { beginIngestion s with rx := r, rxConsumed := s.rxConsumed + 1 })
  | malformed (F : List Byte) (f : JobField) (h : selectStep s = some .frameParse)
    (e : receivedFrame s = some F) (p : jobParse s.params.leadPolicy F = .error f) :
    Effect s (raiseError (.malformedJob f) s)
  | accepted (F : List Byte) (hdr : Bytes 80) (tgt : Bytes 32) (h : selectStep s = some .frameParse)
    (e : receivedFrame s = some F) (p : jobParse s.params.leadPolicy F = .ok (hdr, tgt)) :
    Effect s (acceptJob hdr tgt s)
  | started (h : selectStep s = some .startSearch) : Effect s { s with nonce := 0, ctrlState := .searching }
  | tried (tail : Bytes 64) (mid : HashState) (tgt : Bytes 32) (h : selectStep s = some .trial)
    (e1 : s.tail = some tail) (e2 : s.midstate = some mid) (e3 : s.jobTarget = some tgt) :
    Effect s (endTrial (trialDigest mid (setTailNonce tail s.nonce) s.nonce)
      (meetsTarget (trialDigest mid (setTailNonce tail s.nonce) s.nonce) tgt)
      { s with tail := some (setTailNonce tail s.nonce) })
  | emitted (n : Word) (h : Bytes 32) (a : TxAnswer) (r : List TxAnswer) (hs : selectStep s = some .emitShare)
    (e1 : s.shareNonce = some n) (e2 : s.shareHash = some h) (e3 : s.txAnswers = a :: r) :
    Effect s (endEmission (a == .ok) { s with
      txAnswers := r
      txLog := s.txLog ++ [⟨(shareEncode n h).toList, a.received (shareEncode n h).toList⟩] })
  | reported (h : selectStep s = some .reportExhausted) :
    Effect s { s with lastOutcome := .exhausted, ctrlState := .idle }
  | cancelled (h : selectStep s = some .cancelSearch) :
    Effect s { s with lastOutcome := .cancelled, ctrlState := .idle }

theorem execRxByte_effect {s t : State} (h : execRxByte s = .next t) : Effect s t := by
  obtain ⟨hs, h⟩ := guarded_next h
  have hrx : (beginIngestion s).rx = s.rx := by unfold beginIngestion; split <;> rfl
  have hrc : (beginIngestion s).rxConsumed = s.rxConsumed := by unfold beginIngestion; split <;> rfl
  split at h
  · rename_i e; cases h; exact .waitsRx hs (hrx ▸ rxRead_none e)
  · rename_i u e
    obtain ⟨r, e1, rfl⟩ := rxRead_fail e
    cases h; exact .readFails r hs (hrx ▸ e1)
  · rename_i b u e
    obtain ⟨r, e1, rfl⟩ := rxRead_byte e
    cases h; rw [hrc]; exact .readsByte b r hs (hrx ▸ e1)

theorem execFrameParse_effect {s t : State} (h : execFrameParse s = .next t) : Effect s t := by
  obtain ⟨hs, h⟩ := guarded_next h
  split at h
  · cases h
  · rename_i F e
    split at h
    · rename_i f p; cases h; exact .malformed F f hs e p
    · rename_i hdr tgt p; cases h; exact .accepted F hdr tgt hs e p

theorem execTrial_effect {s t : State} (h : execTrial s = .next t) : Effect s t := by
  obtain ⟨hs, h⟩ := guarded_next h
  split at h
  · cases h
  · cases h
  · cases h
  · rename_i tail mid tgt e1 e2 e3; cases h; exact .tried tail mid tgt hs e1 e2 e3

theorem emitHeldShare_effect {s t : State} (hs : selectStep s = some .emitShare) (h : emitHeldShare s = .next t) :
    Effect s t := by
  unfold emitHeldShare at h
  split at h
  · cases h
  · cases h
  · rename_i n d e1 e2
    split at h
    · rename_i e; cases h; exact .waitsTx hs (txWrite_none e)
    · rename_i ok u e
      obtain ⟨a, r, e3, rfl, rfl⟩ := txWrite_some e
      cases h; exact .emitted n d a r hs e1 e2 e3

theorem execShareFrame_effect {n : Word} {d : Bytes 32} {s t : State} (h : execShareFrame n d s = .next t) :
    Effect s t := by
  obtain ⟨hs, h⟩ := guarded_next h
  split at h
  · split at h
    · exact emitHeldShare_effect hs h
    · cases h
  · cases h
  · cases h

/-- Every next state of every operation (the inversion lemma of `exec`). -/
theorem exec_effect {i : Instr} {s t : State} (h : exec i s = .next t) : Effect s t := by
  cases i with
  | rxByte => exact execRxByte_effect h
  | frameParse => exact execFrameParse_effect h
  | startSearch => obtain ⟨hs, h⟩ := guarded_next h; cases h; exact .started hs
  | trial => exact execTrial_effect h
  | emitShare => obtain ⟨hs, h⟩ := guarded_next h; exact emitHeldShare_effect hs h
  | reportExhausted => obtain ⟨hs, h⟩ := guarded_next h; cases h; exact .reported hs
  | cancelSearch => obtain ⟨hs, h⟩ := guarded_next h; cases h; exact .cancelled hs
  | shareFrame n d => exact execShareFrame_effect h
  | jobFrame hh th => cases h; exact .offered _
  | hexDecode C n =>
    simp only [exec, execHexDecode] at h
    split at h
    · split at h <;> cases h <;> exact .answered _
    · cases h
  | jobParse F => simp only [exec, execJobParse] at h; split at h <;> cases h <;> exact .answered _
  | statusRead k =>
    simp only [exec, execStatusRead] at h
    split at h
    · cases h; exact .answered _
    · cases h
  | sha256Ref M =>
    simp only [exec, execSha256Ref] at h
    split at h
    · cases h; exact .answered _
    · cases h
  | shareDecodeRef T =>
    simp only [exec, execShareDecodeRef] at h
    split at h <;> cases h <;> exact .answered _
  | compress => cases h; exact .answered _
  | hashHeader => cases h; exact .answered _
  | hash32 => cases h; exact .answered _
  | doubleHash => cases h; exact .answered _
  | meetsTarget => cases h; exact .answered _
  | prepMidstate => cases h; exact .answered _
  | trialDigest => cases h; exact .answered _
  | shareEncode => cases h; exact .answered _

/-! ## One step -/

/-- The turn a step takes and the state it takes it in. -/
inductive TurnEffect (s : State) : State → Prop where
  /-- an operation runs, of the controller or of the harness -/
  | ran {t : State} (e : Effect s t) : TurnEffect s t
  | reset (a : Abandoned) : TurnEffect s (resetEvent a s)
  | drove (level : Bool) : TurnEffect s (driveCancel level s)
  | offeredRx (a : RxAnswer) : TurnEffect s (offerRx [a] s)
  | offeredTx (a : TxAnswer) : TurnEffect s (offerTx a s)

theorem controllerTurn_effect {s t : State} (h : controllerTurn s = .next t) : Effect s t := by
  unfold controllerTurn at h
  split at h
  · exact exec_effect h
  · cases h

theorem commandTurn_effect {bs : List Byte} {s t : State} (h : commandTurn bs s = .next t) : Effect s t := by
  unfold commandTurn at h
  split at h
  · exact exec_effect h
  · cases h

/-- Every next state of one step (the inversion lemma of `step`): the turn at the head of the schedule is taken off, and
what it does is one of these. -/
theorem step_effect {s t : State} (h : step s = .next t) :
    TurnEffect { s with schedule := s.schedule.tail } t := by
  unfold step at h
  split at h
  · rename_i e
    have : { s with schedule := s.schedule.tail } = s := by rw [e, List.tail_nil, ← e]
    rw [this]; exact .ran (controllerTurn_effect h)
  · rename_i turn rest e
    rw [e, List.tail_cons]
    cases turn with
    | controller => exact .ran (controllerTurn_effect h)
    | command bs => exact .ran (commandTurn_effect h)
    | reset a => cases h; exact .reset a
    | driveCancel b => cases h; exact .drove b
    | rxAnswer a => cases h; exact .offeredRx a
    | txAnswer a => cases h; exact .offeredTx a

/-! ## What the waiting steps answer once the transport has answered -/

theorem execRxByte_of_byte {s : State} {b : Byte} {r : List RxAnswer} (h : selectStep s = some .rxByte)
    (e : s.rx = .byte b :: r) : execRxByte s =
      .next (ingestByte b { beginIngestion s with rx := r, rxConsumed := s.rxConsumed + 1 }) := by
  have h1 : (beginIngestion s).rx = .byte b :: r := by rw [← e]; unfold beginIngestion; split <;> rfl
  have h2 : (beginIngestion s).rxConsumed = s.rxConsumed := by unfold beginIngestion; split <;> rfl
  have h3 : rxRead (beginIngestion s) =
      some (.byte b, { beginIngestion s with rx := r, rxConsumed := s.rxConsumed + 1 }) := by
    simp only [rxRead, h1, h2]
  simp only [execRxByte, guarded_of_select h, h3]

theorem execRxByte_of_fail {s : State} {r : List RxAnswer} (h : selectStep s = some .rxByte)
    (e : s.rx = .fail :: r) : execRxByte s =
      .next (raiseError (.transportFailure .rx) { beginIngestion s with rx := r }) := by
  have h1 : (beginIngestion s).rx = .fail :: r := by rw [← e]; unfold beginIngestion; split <;> rfl
  have h3 : rxRead (beginIngestion s) = some (.fail, { beginIngestion s with rx := r }) := by
    simp only [rxRead, h1]
  simp only [execRxByte, guarded_of_select h, h3]

theorem emitHeldShare_of_answer {s : State} {n : Word} {d : Bytes 32} {a : TxAnswer} {r : List TxAnswer}
    (e1 : s.shareNonce = some n) (e2 : s.shareHash = some d) (e3 : s.txAnswers = a :: r) :
    emitHeldShare s = .next (endEmission (a == .ok) { s with
      txAnswers := r
      txLog := s.txLog ++ [⟨(shareEncode n d).toList, a.received (shareEncode n d).toList⟩] }) := by
  simp only [emitHeldShare, e1, e2, txWrite, e3]

/-! ## The fields a byte's ingestion, a trial's end and an emission's end leave -/

/-- What ingesting a byte can leave (R172, R222). -/
theorem ingestByte_cases (b : Byte) (s : State) :
    ingestByte b s = storeRx b s ∧ ¬(b ≠ rbrace ∧ (s.rxCount + 1).toNat = s.params.rxBufLen) ∨
    ingestByte b s = raiseError .bufferOverflow (storeRx b s) ∧ b ≠ rbrace ∧
      (s.rxCount + 1).toNat = s.params.rxBufLen := by
  simp only [ingestByte, storeRx]
  by_cases h : b ≠ rbrace ∧ (s.rxCount + 1).toNat = s.params.rxBufLen
  · exact .inr ⟨if_pos h, h⟩
  · exact .inl ⟨if_neg h, h⟩

/-- The elements a trial's end never touches (R147). -/
theorem endTrial_frame (d : Bytes 32) (hit : Bool) (s : State) :
    SameJob s (endTrial d hit s) ∧ SameSurroundings s (endTrial d hit s) ∧
    (endTrial d hit s).midstate = s.midstate ∧ (endTrial d hit s).tail = s.tail ∧
    (endTrial d hit s).rxBuf = s.rxBuf ∧ (endTrial d hit s).rxCount = s.rxCount ∧
    (endTrial d hit s).jobValid = s.jobValid ∧ (endTrial d hit s).midValid = s.midValid ∧
    (endTrial d hit s).lastOutcome = s.lastOutcome ∧ (endTrial d hit s).errField = s.errField ∧
    (endTrial d hit s).errChannel = s.errChannel := by
  unfold endTrial
  split
  · simp [SameJob, SameSurroundings]
  · split <;> simp [SameJob, SameSurroundings]

/-- The elements the ingestion of a byte never touches (R172, R222). -/
theorem ingestByte_frame (b : Byte) (s : State) :
    SameJob s (ingestByte b s) ∧ SameSurroundings s (ingestByte b s) ∧
    (ingestByte b s).midstate = s.midstate ∧ (ingestByte b s).tail = s.tail ∧
    (ingestByte b s).nonce = s.nonce ∧ (ingestByte b s).jobValid = s.jobValid ∧
    (ingestByte b s).midValid = s.midValid := by
  rcases ingestByte_cases b s with ⟨e, -⟩ | ⟨e, -⟩ <;>
    rw [e] <;> simp [storeRx, raiseError, SameJob, SameSurroundings]

/-- The elements an emission's end never touches, and where it leaves the controller (R151, R224). -/
theorem endEmission_frame (ok : Bool) (s : State) :
    SameJob s (endEmission ok s) ∧ SameSurroundings s (endEmission ok s) ∧
    (endEmission ok s).midstate = s.midstate ∧ (endEmission ok s).tail = s.tail ∧
    (endEmission ok s).nonce = s.nonce ∧ (endEmission ok s).rxBuf = s.rxBuf ∧
    (endEmission ok s).jobValid = s.jobValid ∧ (endEmission ok s).midValid = s.midValid ∧
    (endEmission ok s).shareNonce = none ∧ (endEmission ok s).shareHash = none ∧
    (endEmission ok s).ctrlState = .idle := by
  unfold endEmission
  dsimp only
  split <;> simp [raiseError, SameJob, SameSurroundings]

/-! ## Ends of job cycles (R13, R140) -/

/-- A step that leaves the controller state and the count of the frame as they are ends a job cycle only by taking an answer
to a read. -/
theorem CycleEnds.changes {s t : State} (h : CycleEnds s t) (h1 : t.ctrlState = s.ctrlState)
    (h2 : t.rxCount = s.rxCount) : t.rx.length < s.rx.length := by
  obtain ⟨⟨q1, q2⟩, q | q⟩ := h
  · exact absurd ⟨by rw [← h1, q1], by rw [← h2, q2]⟩ q
  · exact q

/-! ## Runs -/

/-- A run's first step. -/
theorem run_succ_of_next {s t : State} {k : Nat} (h : step s = .next t) :
    Host.Core.run core (k + 1) s = Host.Core.run core k t := by
  have : core.step s = .next t := h
  simp only [Host.Core.run, this]

/-- A run goes on from where a shorter one got. -/
theorem run_add_of_next (a b : Nat) : ∀ s t : State, Host.Core.run core a s = .next t →
    Host.Core.run core (a + b) s = Host.Core.run core b t := by
  induction a with
  | zero =>
    intro s t h
    have : s = t := by injection h
    rw [Nat.zero_add, this]
  | succ a ih =>
    intro s t h
    rw [Nat.add_right_comm]
    cases hu : step s with
    | next u => rw [run_succ_of_next hu] at h ⊢; exact ih _ _ h
    | fault f =>
      have hu : core.step s = .fault f := hu
      simp only [Host.Core.run, hu] at h; cases h
    | refused f =>
      have hu : core.step s = .refused f := hu
      simp only [Host.Core.run, hu] at h; cases h

end Sys2Proof.Machine
end

