-- ==== Sys2Proof/Laws/State.lean ====
section
/-! SUPPORT. What each state update leaves in each field, one lemma per field and update. -/

namespace Sys2Proof.Machine

/-! ## `answer` -/

@[simp] theorem answer_params (r : OpResult) (s : State) : (answer r s).params = s.params := rfl
@[simp] theorem answer_ctrlState (r : OpResult) (s : State) : (answer r s).ctrlState = s.ctrlState := rfl
@[simp] theorem answer_jobValid (r : OpResult) (s : State) : (answer r s).jobValid = s.jobValid := rfl
@[simp] theorem answer_midValid (r : OpResult) (s : State) : (answer r s).midValid = s.midValid := rfl
@[simp] theorem answer_jobHeader (r : OpResult) (s : State) : (answer r s).jobHeader = s.jobHeader := rfl
@[simp] theorem answer_jobTarget (r : OpResult) (s : State) : (answer r s).jobTarget = s.jobTarget := rfl
@[simp] theorem answer_jobSeq (r : OpResult) (s : State) : (answer r s).jobSeq = s.jobSeq := rfl
@[simp] theorem answer_midstate (r : OpResult) (s : State) : (answer r s).midstate = s.midstate := rfl
@[simp] theorem answer_tail (r : OpResult) (s : State) : (answer r s).tail = s.tail := rfl
@[simp] theorem answer_nonce (r : OpResult) (s : State) : (answer r s).nonce = s.nonce := rfl
@[simp] theorem answer_shareNonce (r : OpResult) (s : State) : (answer r s).shareNonce = s.shareNonce := rfl
@[simp] theorem answer_shareHash (r : OpResult) (s : State) : (answer r s).shareHash = s.shareHash := rfl
@[simp] theorem answer_rxBuf (r : OpResult) (s : State) : (answer r s).rxBuf = s.rxBuf := rfl
@[simp] theorem answer_rxCount (r : OpResult) (s : State) : (answer r s).rxCount = s.rxCount := rfl
@[simp] theorem answer_lastOutcome (r : OpResult) (s : State) : (answer r s).lastOutcome = s.lastOutcome := rfl
@[simp] theorem answer_errField (r : OpResult) (s : State) : (answer r s).errField = s.errField := rfl
@[simp] theorem answer_errChannel (r : OpResult) (s : State) : (answer r s).errChannel = s.errChannel := rfl
@[simp] theorem answer_cancel (r : OpResult) (s : State) : (answer r s).cancel = s.cancel := rfl
@[simp] theorem answer_rx (r : OpResult) (s : State) : (answer r s).rx = s.rx := rfl
@[simp] theorem answer_txAnswers (r : OpResult) (s : State) : (answer r s).txAnswers = s.txAnswers := rfl
@[simp] theorem answer_txLog (r : OpResult) (s : State) : (answer r s).txLog = s.txLog := rfl
@[simp] theorem answer_rxConsumed (r : OpResult) (s : State) : (answer r s).rxConsumed = s.rxConsumed := rfl
@[simp] theorem answer_result (r : OpResult) (s : State) : (answer r s).result = some r := rfl
@[simp] theorem answer_schedule (r : OpResult) (s : State) : (answer r s).schedule = s.schedule := rfl

/-! ## `raiseError` -/

@[simp] theorem raiseError_params (e : BlockError) (s : State) : (raiseError e s).params = s.params := rfl
@[simp] theorem raiseError_ctrlState (e : BlockError) (s : State) : (raiseError e s).ctrlState = .idle := rfl
@[simp] theorem raiseError_jobValid (e : BlockError) (s : State) : (raiseError e s).jobValid = s.jobValid := rfl
@[simp] theorem raiseError_midValid (e : BlockError) (s : State) : (raiseError e s).midValid = s.midValid := rfl
@[simp] theorem raiseError_jobHeader (e : BlockError) (s : State) : (raiseError e s).jobHeader = s.jobHeader := rfl
@[simp] theorem raiseError_jobTarget (e : BlockError) (s : State) : (raiseError e s).jobTarget = s.jobTarget := rfl
@[simp] theorem raiseError_jobSeq (e : BlockError) (s : State) : (raiseError e s).jobSeq = s.jobSeq := rfl
@[simp] theorem raiseError_midstate (e : BlockError) (s : State) : (raiseError e s).midstate = s.midstate := rfl
@[simp] theorem raiseError_tail (e : BlockError) (s : State) : (raiseError e s).tail = s.tail := rfl
@[simp] theorem raiseError_nonce (e : BlockError) (s : State) : (raiseError e s).nonce = s.nonce := rfl
@[simp] theorem raiseError_shareNonce (e : BlockError) (s : State) : (raiseError e s).shareNonce = s.shareNonce := rfl
@[simp] theorem raiseError_shareHash (e : BlockError) (s : State) : (raiseError e s).shareHash = s.shareHash := rfl
@[simp] theorem raiseError_rxBuf (e : BlockError) (s : State) : (raiseError e s).rxBuf = s.rxBuf := rfl
@[simp] theorem raiseError_rxCount (e : BlockError) (s : State) : (raiseError e s).rxCount = 0 := rfl
@[simp] theorem raiseError_lastOutcome (e : BlockError) (s : State) : (raiseError e s).lastOutcome = e.outcome := rfl
@[simp] theorem raiseError_errField (e : BlockError) (s : State) : (raiseError e s).errField = e.field := rfl
@[simp] theorem raiseError_errChannel (e : BlockError) (s : State) : (raiseError e s).errChannel = e.channel := rfl
@[simp] theorem raiseError_cancel (e : BlockError) (s : State) : (raiseError e s).cancel = s.cancel := rfl
@[simp] theorem raiseError_rx (e : BlockError) (s : State) : (raiseError e s).rx = s.rx := rfl
@[simp] theorem raiseError_txAnswers (e : BlockError) (s : State) : (raiseError e s).txAnswers = s.txAnswers := rfl
@[simp] theorem raiseError_txLog (e : BlockError) (s : State) : (raiseError e s).txLog = s.txLog := rfl
@[simp] theorem raiseError_rxConsumed (e : BlockError) (s : State) : (raiseError e s).rxConsumed = s.rxConsumed := rfl
@[simp] theorem raiseError_result (e : BlockError) (s : State) : (raiseError e s).result = s.result := rfl
@[simp] theorem raiseError_schedule (e : BlockError) (s : State) : (raiseError e s).schedule = s.schedule := rfl

/-! ## `storeRx` -/

@[simp] theorem storeRx_params (b : Byte) (s : State) : (storeRx b s).params = s.params := rfl
@[simp] theorem storeRx_ctrlState (b : Byte) (s : State) : (storeRx b s).ctrlState = s.ctrlState := rfl
@[simp] theorem storeRx_jobValid (b : Byte) (s : State) : (storeRx b s).jobValid = s.jobValid := rfl
@[simp] theorem storeRx_midValid (b : Byte) (s : State) : (storeRx b s).midValid = s.midValid := rfl
@[simp] theorem storeRx_jobHeader (b : Byte) (s : State) : (storeRx b s).jobHeader = s.jobHeader := rfl
@[simp] theorem storeRx_jobTarget (b : Byte) (s : State) : (storeRx b s).jobTarget = s.jobTarget := rfl
@[simp] theorem storeRx_jobSeq (b : Byte) (s : State) : (storeRx b s).jobSeq = s.jobSeq := rfl
@[simp] theorem storeRx_midstate (b : Byte) (s : State) : (storeRx b s).midstate = s.midstate := rfl
@[simp] theorem storeRx_tail (b : Byte) (s : State) : (storeRx b s).tail = s.tail := rfl
@[simp] theorem storeRx_nonce (b : Byte) (s : State) : (storeRx b s).nonce = s.nonce := rfl
@[simp] theorem storeRx_shareNonce (b : Byte) (s : State) : (storeRx b s).shareNonce = s.shareNonce := rfl
@[simp] theorem storeRx_shareHash (b : Byte) (s : State) : (storeRx b s).shareHash = s.shareHash := rfl
@[simp] theorem storeRx_rxBuf (b : Byte) (s : State) :
    (storeRx b s).rxBuf = Memory.write s.rxBuf s.rxCount.toNat b := rfl
@[simp] theorem storeRx_rxCount (b : Byte) (s : State) : (storeRx b s).rxCount = s.rxCount + 1 := rfl
@[simp] theorem storeRx_lastOutcome (b : Byte) (s : State) : (storeRx b s).lastOutcome = s.lastOutcome := rfl
@[simp] theorem storeRx_errField (b : Byte) (s : State) : (storeRx b s).errField = s.errField := rfl
@[simp] theorem storeRx_errChannel (b : Byte) (s : State) : (storeRx b s).errChannel = s.errChannel := rfl
@[simp] theorem storeRx_cancel (b : Byte) (s : State) : (storeRx b s).cancel = s.cancel := rfl
@[simp] theorem storeRx_rx (b : Byte) (s : State) : (storeRx b s).rx = s.rx := rfl
@[simp] theorem storeRx_txAnswers (b : Byte) (s : State) : (storeRx b s).txAnswers = s.txAnswers := rfl
@[simp] theorem storeRx_txLog (b : Byte) (s : State) : (storeRx b s).txLog = s.txLog := rfl
@[simp] theorem storeRx_rxConsumed (b : Byte) (s : State) : (storeRx b s).rxConsumed = s.rxConsumed := rfl
@[simp] theorem storeRx_result (b : Byte) (s : State) : (storeRx b s).result = s.result := rfl
@[simp] theorem storeRx_schedule (b : Byte) (s : State) : (storeRx b s).schedule = s.schedule := rfl

/-! ## `acceptJob` -/

@[simp] theorem acceptJob_params (hdr : Bytes 80) (tgt : Bytes 32) (s : State) :
    (acceptJob hdr tgt s).params = s.params := rfl
@[simp] theorem acceptJob_ctrlState (hdr : Bytes 80) (tgt : Bytes 32) (s : State) :
    (acceptJob hdr tgt s).ctrlState = .midstatePrepared := rfl
@[simp] theorem acceptJob_jobValid (hdr : Bytes 80) (tgt : Bytes 32) (s : State) :
    (acceptJob hdr tgt s).jobValid = true := rfl
@[simp] theorem acceptJob_midValid (hdr : Bytes 80) (tgt : Bytes 32) (s : State) :
    (acceptJob hdr tgt s).midValid = true := rfl
@[simp] theorem acceptJob_jobHeader (hdr : Bytes 80) (tgt : Bytes 32) (s : State) :
    (acceptJob hdr tgt s).jobHeader = some hdr := rfl
@[simp] theorem acceptJob_jobTarget (hdr : Bytes 80) (tgt : Bytes 32) (s : State) :
    (acceptJob hdr tgt s).jobTarget = some tgt := rfl
@[simp] theorem acceptJob_jobSeq (hdr : Bytes 80) (tgt : Bytes 32) (s : State) :
    (acceptJob hdr tgt s).jobSeq = s.jobSeq + 1 := rfl
@[simp] theorem acceptJob_midstate (hdr : Bytes 80) (tgt : Bytes 32) (s : State) :
    (acceptJob hdr tgt s).midstate = some (compress h0 (blk1 hdr)) := rfl
@[simp] theorem acceptJob_tail (hdr : Bytes 80) (tgt : Bytes 32) (s : State) :
    (acceptJob hdr tgt s).tail = some (blk2 hdr) := rfl
@[simp] theorem acceptJob_nonce (hdr : Bytes 80) (tgt : Bytes 32) (s : State) :
    (acceptJob hdr tgt s).nonce = s.nonce := rfl
@[simp] theorem acceptJob_shareNonce (hdr : Bytes 80) (tgt : Bytes 32) (s : State) :
    (acceptJob hdr tgt s).shareNonce = s.shareNonce := rfl
@[simp] theorem acceptJob_shareHash (hdr : Bytes 80) (tgt : Bytes 32) (s : State) :
    (acceptJob hdr tgt s).shareHash = s.shareHash := rfl
@[simp] theorem acceptJob_rxBuf (hdr : Bytes 80) (tgt : Bytes 32) (s : State) :
    (acceptJob hdr tgt s).rxBuf = s.rxBuf := rfl
@[simp] theorem acceptJob_rxCount (hdr : Bytes 80) (tgt : Bytes 32) (s : State) :
    (acceptJob hdr tgt s).rxCount = 0 := rfl
@[simp] theorem acceptJob_lastOutcome (hdr : Bytes 80) (tgt : Bytes 32) (s : State) :
    (acceptJob hdr tgt s).lastOutcome = .none := rfl
@[simp] theorem acceptJob_errField (hdr : Bytes 80) (tgt : Bytes 32) (s : State) :
    (acceptJob hdr tgt s).errField = none := rfl
@[simp] theorem acceptJob_errChannel (hdr : Bytes 80) (tgt : Bytes 32) (s : State) :
    (acceptJob hdr tgt s).errChannel = none := rfl
@[simp] theorem acceptJob_cancel (hdr : Bytes 80) (tgt : Bytes 32) (s : State) :
    (acceptJob hdr tgt s).cancel = s.cancel := rfl
@[simp] theorem acceptJob_rx (hdr : Bytes 80) (tgt : Bytes 32) (s : State) :
    (acceptJob hdr tgt s).rx = s.rx := rfl
@[simp] theorem acceptJob_txAnswers (hdr : Bytes 80) (tgt : Bytes 32) (s : State) :
    (acceptJob hdr tgt s).txAnswers = s.txAnswers := rfl
@[simp] theorem acceptJob_txLog (hdr : Bytes 80) (tgt : Bytes 32) (s : State) :
    (acceptJob hdr tgt s).txLog = s.txLog := rfl
@[simp] theorem acceptJob_rxConsumed (hdr : Bytes 80) (tgt : Bytes 32) (s : State) :
    (acceptJob hdr tgt s).rxConsumed = s.rxConsumed := rfl
@[simp] theorem acceptJob_result (hdr : Bytes 80) (tgt : Bytes 32) (s : State) :
    (acceptJob hdr tgt s).result = s.result := rfl
@[simp] theorem acceptJob_schedule (hdr : Bytes 80) (tgt : Bytes 32) (s : State) :
    (acceptJob hdr tgt s).schedule = s.schedule := rfl

/-! ## `offerRx` -/

@[simp] theorem offerRx_params (as : List RxAnswer) (s : State) : (offerRx as s).params = s.params := rfl
@[simp] theorem offerRx_ctrlState (as : List RxAnswer) (s : State) :
    (offerRx as s).ctrlState = s.ctrlState := rfl
@[simp] theorem offerRx_jobValid (as : List RxAnswer) (s : State) :
    (offerRx as s).jobValid = s.jobValid := rfl
@[simp] theorem offerRx_midValid (as : List RxAnswer) (s : State) :
    (offerRx as s).midValid = s.midValid := rfl
@[simp] theorem offerRx_jobHeader (as : List RxAnswer) (s : State) :
    (offerRx as s).jobHeader = s.jobHeader := rfl
@[simp] theorem offerRx_jobTarget (as : List RxAnswer) (s : State) :
    (offerRx as s).jobTarget = s.jobTarget := rfl
@[simp] theorem offerRx_jobSeq (as : List RxAnswer) (s : State) : (offerRx as s).jobSeq = s.jobSeq := rfl
@[simp] theorem offerRx_midstate (as : List RxAnswer) (s : State) :
    (offerRx as s).midstate = s.midstate := rfl
@[simp] theorem offerRx_tail (as : List RxAnswer) (s : State) : (offerRx as s).tail = s.tail := rfl
@[simp] theorem offerRx_nonce (as : List RxAnswer) (s : State) : (offerRx as s).nonce = s.nonce := rfl
@[simp] theorem offerRx_shareNonce (as : List RxAnswer) (s : State) :
    (offerRx as s).shareNonce = s.shareNonce := rfl
@[simp] theorem offerRx_shareHash (as : List RxAnswer) (s : State) :
    (offerRx as s).shareHash = s.shareHash := rfl
@[simp] theorem offerRx_rxBuf (as : List RxAnswer) (s : State) : (offerRx as s).rxBuf = s.rxBuf := rfl
@[simp] theorem offerRx_rxCount (as : List RxAnswer) (s : State) :
    (offerRx as s).rxCount = s.rxCount := rfl
@[simp] theorem offerRx_lastOutcome (as : List RxAnswer) (s : State) :
    (offerRx as s).lastOutcome = s.lastOutcome := rfl
@[simp] theorem offerRx_errField (as : List RxAnswer) (s : State) :
    (offerRx as s).errField = s.errField := rfl
@[simp] theorem offerRx_errChannel (as : List RxAnswer) (s : State) :
    (offerRx as s).errChannel = s.errChannel := rfl
@[simp] theorem offerRx_cancel (as : List RxAnswer) (s : State) : (offerRx as s).cancel = s.cancel := rfl
@[simp] theorem offerRx_rx (as : List RxAnswer) (s : State) :
    (offerRx as s).rx = s.rx ++ as := rfl
@[simp] theorem offerRx_txAnswers (as : List RxAnswer) (s : State) :
    (offerRx as s).txAnswers = s.txAnswers := rfl
@[simp] theorem offerRx_txLog (as : List RxAnswer) (s : State) : (offerRx as s).txLog = s.txLog := rfl
@[simp] theorem offerRx_rxConsumed (as : List RxAnswer) (s : State) :
    (offerRx as s).rxConsumed = s.rxConsumed := rfl
@[simp] theorem offerRx_result (as : List RxAnswer) (s : State) : (offerRx as s).result = s.result := rfl
@[simp] theorem offerRx_schedule (as : List RxAnswer) (s : State) :
    (offerRx as s).schedule = s.schedule := rfl

/-! ## `offerTx` -/

@[simp] theorem offerTx_params (a : TxAnswer) (s : State) : (offerTx a s).params = s.params := rfl
@[simp] theorem offerTx_ctrlState (a : TxAnswer) (s : State) : (offerTx a s).ctrlState = s.ctrlState := rfl
@[simp] theorem offerTx_jobValid (a : TxAnswer) (s : State) : (offerTx a s).jobValid = s.jobValid := rfl
@[simp] theorem offerTx_midValid (a : TxAnswer) (s : State) : (offerTx a s).midValid = s.midValid := rfl
@[simp] theorem offerTx_jobHeader (a : TxAnswer) (s : State) : (offerTx a s).jobHeader = s.jobHeader := rfl
@[simp] theorem offerTx_jobTarget (a : TxAnswer) (s : State) : (offerTx a s).jobTarget = s.jobTarget := rfl
@[simp] theorem offerTx_jobSeq (a : TxAnswer) (s : State) : (offerTx a s).jobSeq = s.jobSeq := rfl
@[simp] theorem offerTx_midstate (a : TxAnswer) (s : State) : (offerTx a s).midstate = s.midstate := rfl
@[simp] theorem offerTx_tail (a : TxAnswer) (s : State) : (offerTx a s).tail = s.tail := rfl
@[simp] theorem offerTx_nonce (a : TxAnswer) (s : State) : (offerTx a s).nonce = s.nonce := rfl
@[simp] theorem offerTx_shareNonce (a : TxAnswer) (s : State) : (offerTx a s).shareNonce = s.shareNonce := rfl
@[simp] theorem offerTx_shareHash (a : TxAnswer) (s : State) : (offerTx a s).shareHash = s.shareHash := rfl
@[simp] theorem offerTx_rxBuf (a : TxAnswer) (s : State) : (offerTx a s).rxBuf = s.rxBuf := rfl
@[simp] theorem offerTx_rxCount (a : TxAnswer) (s : State) : (offerTx a s).rxCount = s.rxCount := rfl
@[simp] theorem offerTx_lastOutcome (a : TxAnswer) (s : State) : (offerTx a s).lastOutcome = s.lastOutcome := rfl
@[simp] theorem offerTx_errField (a : TxAnswer) (s : State) : (offerTx a s).errField = s.errField := rfl
@[simp] theorem offerTx_errChannel (a : TxAnswer) (s : State) : (offerTx a s).errChannel = s.errChannel := rfl
@[simp] theorem offerTx_cancel (a : TxAnswer) (s : State) : (offerTx a s).cancel = s.cancel := rfl
@[simp] theorem offerTx_rx (a : TxAnswer) (s : State) : (offerTx a s).rx = s.rx := rfl
@[simp] theorem offerTx_txAnswers (a : TxAnswer) (s : State) :
    (offerTx a s).txAnswers = s.txAnswers ++ [a] := rfl
@[simp] theorem offerTx_txLog (a : TxAnswer) (s : State) : (offerTx a s).txLog = s.txLog := rfl
@[simp] theorem offerTx_rxConsumed (a : TxAnswer) (s : State) : (offerTx a s).rxConsumed = s.rxConsumed := rfl
@[simp] theorem offerTx_result (a : TxAnswer) (s : State) : (offerTx a s).result = s.result := rfl
@[simp] theorem offerTx_schedule (a : TxAnswer) (s : State) : (offerTx a s).schedule = s.schedule := rfl

/-! ## `driveCancel` -/

@[simp] theorem driveCancel_params (b : Bool) (s : State) : (driveCancel b s).params = s.params := rfl
@[simp] theorem driveCancel_ctrlState (b : Bool) (s : State) : (driveCancel b s).ctrlState = s.ctrlState := rfl
@[simp] theorem driveCancel_jobValid (b : Bool) (s : State) : (driveCancel b s).jobValid = s.jobValid := rfl
@[simp] theorem driveCancel_midValid (b : Bool) (s : State) : (driveCancel b s).midValid = s.midValid := rfl
@[simp] theorem driveCancel_jobHeader (b : Bool) (s : State) : (driveCancel b s).jobHeader = s.jobHeader := rfl
@[simp] theorem driveCancel_jobTarget (b : Bool) (s : State) : (driveCancel b s).jobTarget = s.jobTarget := rfl
@[simp] theorem driveCancel_jobSeq (b : Bool) (s : State) : (driveCancel b s).jobSeq = s.jobSeq := rfl
@[simp] theorem driveCancel_midstate (b : Bool) (s : State) : (driveCancel b s).midstate = s.midstate := rfl
@[simp] theorem driveCancel_tail (b : Bool) (s : State) : (driveCancel b s).tail = s.tail := rfl
@[simp] theorem driveCancel_nonce (b : Bool) (s : State) : (driveCancel b s).nonce = s.nonce := rfl
@[simp] theorem driveCancel_shareNonce (b : Bool) (s : State) : (driveCancel b s).shareNonce = s.shareNonce := rfl
@[simp] theorem driveCancel_shareHash (b : Bool) (s : State) : (driveCancel b s).shareHash = s.shareHash := rfl
@[simp] theorem driveCancel_rxBuf (b : Bool) (s : State) : (driveCancel b s).rxBuf = s.rxBuf := rfl
@[simp] theorem driveCancel_rxCount (b : Bool) (s : State) : (driveCancel b s).rxCount = s.rxCount := rfl
@[simp] theorem driveCancel_lastOutcome (b : Bool) (s : State) : (driveCancel b s).lastOutcome = s.lastOutcome := rfl
@[simp] theorem driveCancel_errField (b : Bool) (s : State) : (driveCancel b s).errField = s.errField := rfl
@[simp] theorem driveCancel_errChannel (b : Bool) (s : State) : (driveCancel b s).errChannel = s.errChannel := rfl
@[simp] theorem driveCancel_cancel (b : Bool) (s : State) :
    (driveCancel b s).cancel = if s.params.cancelHook = .present then b else s.cancel := rfl
@[simp] theorem driveCancel_rx (b : Bool) (s : State) : (driveCancel b s).rx = s.rx := rfl
@[simp] theorem driveCancel_txAnswers (b : Bool) (s : State) : (driveCancel b s).txAnswers = s.txAnswers := rfl
@[simp] theorem driveCancel_txLog (b : Bool) (s : State) : (driveCancel b s).txLog = s.txLog := rfl
@[simp] theorem driveCancel_rxConsumed (b : Bool) (s : State) : (driveCancel b s).rxConsumed = s.rxConsumed := rfl
@[simp] theorem driveCancel_result (b : Bool) (s : State) : (driveCancel b s).result = s.result := rfl
@[simp] theorem driveCancel_schedule (b : Bool) (s : State) : (driveCancel b s).schedule = s.schedule := rfl

/-! ## `resetEvent` -/

@[simp] theorem resetEvent_params (a : Abandoned) (s : State) : (resetEvent a s).params = s.params := rfl
@[simp] theorem resetEvent_ctrlState (a : Abandoned) (s : State) : (resetEvent a s).ctrlState = .idle := rfl
@[simp] theorem resetEvent_jobValid (a : Abandoned) (s : State) : (resetEvent a s).jobValid = false := rfl
@[simp] theorem resetEvent_midValid (a : Abandoned) (s : State) : (resetEvent a s).midValid = false := rfl
@[simp] theorem resetEvent_jobHeader (a : Abandoned) (s : State) : (resetEvent a s).jobHeader = none := rfl
@[simp] theorem resetEvent_jobTarget (a : Abandoned) (s : State) : (resetEvent a s).jobTarget = none := rfl
@[simp] theorem resetEvent_jobSeq (a : Abandoned) (s : State) : (resetEvent a s).jobSeq = 0 := rfl
@[simp] theorem resetEvent_midstate (a : Abandoned) (s : State) : (resetEvent a s).midstate = none := rfl
@[simp] theorem resetEvent_tail (a : Abandoned) (s : State) : (resetEvent a s).tail = none := rfl
@[simp] theorem resetEvent_nonce (a : Abandoned) (s : State) : (resetEvent a s).nonce = 0 := rfl
@[simp] theorem resetEvent_shareNonce (a : Abandoned) (s : State) : (resetEvent a s).shareNonce = none := rfl
@[simp] theorem resetEvent_shareHash (a : Abandoned) (s : State) : (resetEvent a s).shareHash = none := rfl
@[simp] theorem resetEvent_rxBuf (a : Abandoned) (s : State) : (resetEvent a s).rxBuf = [] := rfl
@[simp] theorem resetEvent_rxCount (a : Abandoned) (s : State) : (resetEvent a s).rxCount = 0 := rfl
@[simp] theorem resetEvent_lastOutcome (a : Abandoned) (s : State) : (resetEvent a s).lastOutcome = .none := rfl
@[simp] theorem resetEvent_errField (a : Abandoned) (s : State) : (resetEvent a s).errField = none := rfl
@[simp] theorem resetEvent_errChannel (a : Abandoned) (s : State) : (resetEvent a s).errChannel = none := rfl
@[simp] theorem resetEvent_cancel (a : Abandoned) (s : State) : (resetEvent a s).cancel = s.cancel := rfl
@[simp] theorem resetEvent_rx (a : Abandoned) (s : State) :
    (resetEvent a s).rx = abandonRead a.rxLost s := rfl
@[simp] theorem resetEvent_txAnswers (a : Abandoned) (s : State) : (resetEvent a s).txAnswers = s.txAnswers := rfl
@[simp] theorem resetEvent_txLog (a : Abandoned) (s : State) :
    (resetEvent a s).txLog = abandonWrite a.txReceived s := rfl
@[simp] theorem resetEvent_rxConsumed (a : Abandoned) (s : State) : (resetEvent a s).rxConsumed = s.rxConsumed := rfl
@[simp] theorem resetEvent_result (a : Abandoned) (s : State) : (resetEvent a s).result = s.result := rfl
@[simp] theorem resetEvent_schedule (a : Abandoned) (s : State) : (resetEvent a s).schedule = s.schedule := rfl

/-! ## `beginIngestion` -/

@[simp] theorem beginIngestion_params (s : State) : (beginIngestion s).params = s.params := by unfold beginIngestion; split <;> rfl
@[simp] theorem beginIngestion_ctrlState (s : State) : (beginIngestion s).ctrlState = s.ctrlState := by unfold beginIngestion; split <;> rfl
@[simp] theorem beginIngestion_jobValid (s : State) :
    (beginIngestion s).jobValid = if s.rxCount = 0 then false else s.jobValid := by unfold beginIngestion; split <;> rfl
@[simp] theorem beginIngestion_midValid (s : State) :
    (beginIngestion s).midValid = if s.rxCount = 0 then false else s.midValid := by unfold beginIngestion; split <;> rfl
@[simp] theorem beginIngestion_jobHeader (s : State) : (beginIngestion s).jobHeader = s.jobHeader := by unfold beginIngestion; split <;> rfl
@[simp] theorem beginIngestion_jobTarget (s : State) : (beginIngestion s).jobTarget = s.jobTarget := by unfold beginIngestion; split <;> rfl
@[simp] theorem beginIngestion_jobSeq (s : State) : (beginIngestion s).jobSeq = s.jobSeq := by unfold beginIngestion; split <;> rfl
@[simp] theorem beginIngestion_midstate (s : State) : (beginIngestion s).midstate = s.midstate := by unfold beginIngestion; split <;> rfl
@[simp] theorem beginIngestion_tail (s : State) : (beginIngestion s).tail = s.tail := by unfold beginIngestion; split <;> rfl
@[simp] theorem beginIngestion_nonce (s : State) : (beginIngestion s).nonce = s.nonce := by unfold beginIngestion; split <;> rfl
@[simp] theorem beginIngestion_shareNonce (s : State) : (beginIngestion s).shareNonce = s.shareNonce := by unfold beginIngestion; split <;> rfl
@[simp] theorem beginIngestion_shareHash (s : State) : (beginIngestion s).shareHash = s.shareHash := by unfold beginIngestion; split <;> rfl
@[simp] theorem beginIngestion_rxBuf (s : State) : (beginIngestion s).rxBuf = s.rxBuf := by unfold beginIngestion; split <;> rfl
@[simp] theorem beginIngestion_rxCount (s : State) : (beginIngestion s).rxCount = s.rxCount := by unfold beginIngestion; split <;> rfl
@[simp] theorem beginIngestion_lastOutcome (s : State) : (beginIngestion s).lastOutcome = s.lastOutcome := by unfold beginIngestion; split <;> rfl
@[simp] theorem beginIngestion_errField (s : State) : (beginIngestion s).errField = s.errField := by unfold beginIngestion; split <;> rfl
@[simp] theorem beginIngestion_errChannel (s : State) : (beginIngestion s).errChannel = s.errChannel := by unfold beginIngestion; split <;> rfl
@[simp] theorem beginIngestion_cancel (s : State) : (beginIngestion s).cancel = s.cancel := by unfold beginIngestion; split <;> rfl
@[simp] theorem beginIngestion_rx (s : State) : (beginIngestion s).rx = s.rx := by unfold beginIngestion; split <;> rfl
@[simp] theorem beginIngestion_txAnswers (s : State) : (beginIngestion s).txAnswers = s.txAnswers := by unfold beginIngestion; split <;> rfl
@[simp] theorem beginIngestion_txLog (s : State) : (beginIngestion s).txLog = s.txLog := by unfold beginIngestion; split <;> rfl
@[simp] theorem beginIngestion_rxConsumed (s : State) : (beginIngestion s).rxConsumed = s.rxConsumed := by unfold beginIngestion; split <;> rfl
@[simp] theorem beginIngestion_result (s : State) : (beginIngestion s).result = s.result := by unfold beginIngestion; split <;> rfl
@[simp] theorem beginIngestion_schedule (s : State) : (beginIngestion s).schedule = s.schedule := by unfold beginIngestion; split <;> rfl

end Sys2Proof.Machine
end

