-- ==== Sys2Proof/Laws/Invariant.lean ====
section
/-! SUPPORT. How the invariant's parts carry over from one state to another. -/

namespace Sys2Proof.Machine

/-- The invariant looks at nothing around the block but the parameters and `CANCEL`. -/
theorem BlockInv.congr {s t : State} (h : BlockInv s) (h1 : SameBlock s t) (h2 : t.params = s.params)
    (h3 : s.params.cancelHook = .absent → t.cancel = false) : BlockInv t := by
  obtain ⟨a1, a2, a3, a4, a5, a6, a7, a8, a9, a10, a11, a12, a13, a14, a15, a16⟩ := h1
  have hf : frameComplete t = frameComplete s := by simp [frameComplete, a12, a13]
  have hA : ∀ hdr tgt, ActiveJob t hdr tgt ↔ ActiveJob s hdr tgt := by intro x y; simp [ActiveJob, a4, a5]
  have hS : ∀ hdr, SearchData t hdr ↔ SearchData s hdr := by intro x; simp [SearchData, a7, a8]
  obtain ⟨b1, ⟨c1, c2, c3, c4, c5, c6⟩, b3, b4, b5, b6, b7, b8, b9, b10, b11, b12, b13, b14, b15, b16⟩ := h
  constructor
  · rwa [h2]
  · constructor <;> simp only [h2, a12, a13, hf] <;> assumption
  all_goals simp only [a1, a2, a3, a9, a10, a11, a13, a14, a15, a16, hA, hS, h2] <;> assumption

/-- An emptied buffer keeps its invariant (R221, R185). -/
theorem RxInv.emptied {s t : State} (h : RxInv s) (hp : s.params.wf) (h1 : t.rxBuf = s.rxBuf) (h2 : t.rxCount = 0)
    (h3 : t.params = s.params) : RxInv t := by
  constructor
  · rw [h1]; exact h.canonical
  · rw [h1, h3]; exact h.bounded
  · simp [h2]
  · simp [h2]
  · simp [h2]
  · rw [h2, h3]; have := hp.1; simp; omega

/-- Where no frame is complete there is room for a byte. -/
theorem RxInv.room {s : State} (h : RxInv s) (hf : frameComplete s = some false) :
    s.rxCount.toNat < s.params.rxBufLen := by
  rcases Nat.lt_or_ge s.rxCount.toNat s.params.rxBufLen with h' | h'
  · exact h'
  · have := h.full_complete (le_antisymm h.count_le h')
    rw [hf] at this; simp at this

/-- A stored byte that does not overflow the buffer keeps its invariant (R172). -/
theorem RxInv.stored {s t : State} {b : Byte} (h : RxInv s) (hp : s.params.wf) (hf : frameComplete s = some false)
    (hn : ¬(b ≠ rbrace ∧ (s.rxCount + 1).toNat = s.params.rxBufLen))
    (h1 : t.rxBuf = Memory.write s.rxBuf s.rxCount.toNat b) (h2 : t.rxCount = s.rxCount + 1)
    (h3 : t.params = s.params) : RxInv t := by
  have hlt := h.room hf
  have h65 := hp.2
  have hc : t.rxCount.toNat = s.rxCount.toNat + 1 := by rw [h2, BitVec.toNat_add]; simp; omega
  have hc' : (s.rxCount + 1).toNat = s.rxCount.toNat + 1 := by rw [← h2, hc]
  have hfc : frameComplete t = some (b == rbrace) := by
    have : t.rxCount ≠ 0 := by intro e; rw [e] at hc; simp at hc
    simp only [frameComplete, if_neg this, hc, h1, Nat.add_sub_cancel, Memory.read_write_same]; rfl
  constructor
  · rw [h1]; exact Memory.wf_write _ _ _ h.canonical
  · intro a v
    rw [h1, h3, Memory.read_write]
    split
    · rintro -; omega
    · exact h.bounded a v
  · rw [hc, h3]; exact hlt
  · intro a ha
    rw [h1, Memory.read_write]
    split
    · exact ⟨_, rfl⟩
    · exact h.written a (by omega)
  · intro a ha
    rw [h1, Memory.read_write_other _ _ _ _ (by omega)]
    by_cases ha' : a + 1 < s.rxCount.toNat
    · exact h.one_brace a ha'
    · have : s.rxCount.toNat - 1 = a := by omega
      have hne : s.rxCount ≠ 0 := by intro e; rw [hc, e] at ha; simp at ha
      intro hr
      simp only [frameComplete, if_neg hne, this, hr] at hf
      simp at hf
  · rw [hc, h3, hfc]
    intro e
    rw [hc', e] at hn
    simp at hn; simp [hn]

/-- With the invariant the controller always has a step (R141). -/
theorem BlockInv.selectable {s : State} (h : BlockInv s) : ∃ c, selectStep s = some c := by
  have : ∃ b, frameComplete s = some b := by
    unfold frameComplete
    split
    · exact ⟨_, rfl⟩
    · rename_i hne
      have : s.rxCount.toNat ≠ 0 := by intro e; exact hne (BitVec.eq_of_toNat_eq (by simpa using e))
      obtain ⟨b, hb⟩ := h.rx.written (s.rxCount.toNat - 1) (by omega)
      rw [hb]; exact ⟨_, rfl⟩
  obtain ⟨b, hb⟩ := this
  unfold selectStep
  rw [hb]
  split <;> (try split) <;> simp

end Sys2Proof.Machine
end

