-- ==== Sys2Proof/Laws/PerInstr.lean ====
section
/-! SUPPORT. Statements made for every operation, one lemma per constructor. The family `EncodeLead`: an operation's bytes
begin with its OPID (R71) or, for a wire frame, with `{` (R80, R81). -/

namespace Sys2Proof.Laws.EncodeLead

/-- The first byte of each operation's encoding: the OPID column of R71, and `{` for the frames. -/
def leadByte : Instr → Byte
  | .compress _ _ => 0x01#8
  | .hashHeader _ => 0x02#8
  | .hash32 _ => 0x03#8
  | .doubleHash _ => 0x04#8
  | .meetsTarget _ _ => 0x05#8
  | .prepMidstate _ => 0x06#8
  | .trialDigest _ _ _ => 0x07#8
  | .hexDecode _ _ => 0x08#8
  | .jobParse _ => 0x09#8
  | .shareEncode _ _ => 0x0A#8
  | .rxByte => 0x10#8
  | .frameParse => 0x11#8
  | .startSearch => 0x12#8
  | .trial => 0x13#8
  | .emitShare => 0x14#8
  | .reportExhausted => 0x15#8
  | .cancelSearch => 0x16#8
  | .statusRead _ => 0x20#8
  | .sha256Ref _ => 0xF0#8
  | .shareDecodeRef _ => 0xF1#8
  | .jobFrame _ _ => 0x7B#8
  | .shareFrame _ _ => 0x7B#8

def Statement (i : Instr) : Prop := (encode i).head? = some (leadByte i)

theorem compress (st : HashState) (blk : Bytes 64) : Statement (.compress st blk) := rfl
theorem hashHeader (hdr : Bytes 80) : Statement (.hashHeader hdr) := rfl
theorem hash32 (d1 : Bytes 32) : Statement (.hash32 d1) := rfl
theorem doubleHash (hdr : Bytes 80) : Statement (.doubleHash hdr) := rfl
theorem meetsTarget (h t : Bytes 32) : Statement (.meetsTarget h t) := rfl
theorem prepMidstate (hdr : Bytes 80) : Statement (.prepMidstate hdr) := rfl
theorem trialDigest (mid : HashState) (tail : Bytes 64) (n : Word) : Statement (.trialDigest mid tail n) := rfl
theorem hexDecode (chars : List Byte) (n : Nat) : Statement (.hexDecode chars n) := rfl
theorem jobParse (frame : List Byte) : Statement (.jobParse frame) := rfl
theorem shareEncode (n : Word) (h : Bytes 32) : Statement (.shareEncode n h) := rfl
theorem rxByte : Statement .rxByte := rfl
theorem frameParse : Statement .frameParse := rfl
theorem startSearch : Statement .startSearch := rfl
theorem trial : Statement .trial := rfl
theorem emitShare : Statement .emitShare := rfl
theorem reportExhausted : Statement .reportExhausted := rfl
theorem cancelSearch : Statement .cancelSearch := rfl
theorem statusRead (index : Nat) : Statement (.statusRead index) := rfl
theorem sha256Ref (message : List Byte) : Statement (.sha256Ref message) := rfl
theorem shareDecodeRef (text : List Byte) : Statement (.shareDecodeRef text) := rfl
theorem jobFrame (hh : Bytes 160) (th : Bytes 64) : Statement (.jobFrame hh th) := rfl
theorem shareFrame (n : Word) (h : Bytes 32) : Statement (.shareFrame n h) := rfl

end Sys2Proof.Laws.EncodeLead
end

