-- ==== Sys2Proof/Tests/Slice0.lean ====
section
/-! SUPPORT. The model's own tests: ill-formed terms refused, words decoded, the spec's vectors (95_test_vectors.md) on one
step each, and for every obligation with hypotheses a witness that meets them. Expected values come from the spec. -/

namespace Sys2Proof.Tests

/- The evaluations below are checked one after another: side by side they would want more threads than a small machine has. -/
set_option Elab.async false

open Sys2Proof.Machine

/-! ## Helpers -/

/-- A string of `n` bytes from its hex number. -/
def bs (n v : Nat) : Bytes n := ⟨bytesBE n v, bytesBE_length n v⟩

/-- A state from its 64 hex digits. -/
def hs (v : Nat) : HashState :=
  match wordsBE (bytesBE 32 v) with
  | [a, b, c, d, e, f, g, h] => ⟨a, b, c, d, e, f, g, h⟩
  | _ => HashState.zero

/-- The hex characters of a string. -/
def hexOf (n : Nat) (b : Bytes n) : Bytes (2 * n) := ⟨hashHex b.toList, by rw [hashHex_length, b.length_eq]⟩

/-- The genesis header (95_test_vectors.md, section 1). -/
def gen : Bytes 80 := bs 80 0x0100000000000000000000000000000000000000000000000000000000000000000000003ba3edfd7a7b12b27ac72c3e67768f617fc81bc3888a51323a9fb8aa4b1e5e4a29ab5f49ffff001d1dac2b7c

/-- The genesis digest (V-S1). -/
def genDigest : Bytes 32 := bs 32 0x6fe28c0ab6f1b372c1a6a246ae63f74f931e8365e15a089c68d6190000000000

/-- The target met by every digest. -/
def easy : Bytes 32 := bs 32 0xffffffffffffffffffffffffffffffffffffffffffffffffffffffffffffffff

/-- The digest of the zero header (V-H6). -/
def zeroDigest : Bytes 32 := bs 32 0x4be7570e8f70eb093640c8468274ba759745a7aa2b7d25ab1e0421b259845014

/-- The next state of an outcome. -/
def nextOf : Host.Outcome State Fault Refusal → Option State
  | .next s => some s
  | _ => none

/-- The answer an operation leaves. -/
def answerOf (i : Instr) (s : State) : Option OpResult := (nextOf (exec i s)).bind (·.result)

/-- The refusal of an outcome. -/
def refusalOf : Host.Outcome State Fault Refusal → Option Refusal
  | .refused r => some r
  | _ => none

/-- The fault of an outcome. -/
def faultOf : Host.Outcome State Fault Refusal → Option Fault
  | .fault f => some f
  | _ => none

/-- The operation that is all of a byte string. -/
def whole (l : List Byte) : Option Instr :=
  match decode l with
  | .ok (i, []) => some i
  | _ => none

/-- `RXBUF` and `RX_COUNT` holding a frame. -/
def received (l : List Byte) (s : State) : State :=
  { s with rxBuf := (List.range l.length).zip l, rxCount := BitVec.ofNat 16 l.length }

/-- A job frame (R80) of the genesis header with the easy target. -/
def genFrame : List Byte := jobFrameText (hexOf 80 gen) (hexOf 32 easy)

/-- A prepared job: the zero header with the easy target. -/
def prepared : State :=
  { State.reset with
    ctrlState := .midstatePrepared
    jobValid := true
    midValid := true
    jobHeader := some (Bytes.zeros 80)
    jobTarget := some easy
    jobSeq := 1
    midstate := some (compress h0 (blk1 (Bytes.zeros 80)))
    tail := some (blk2 (Bytes.zeros 80)) }

/-- That job in its search. -/
def searching : State := { prepared with ctrlState := .searching }

/-- That job found: nonce 0 meets the easy target. -/
def found : State :=
  { searching with ctrlState := .found, shareNonce := some 0, shareHash := some zeroDigest }

/-- The genesis job in its search, with a target and a nonce. -/
def genSearch (tgt : Bytes 32) (n : Word) : State :=
  { searching with
    jobHeader := some gen
    jobTarget := some tgt
    midstate := some (compress h0 (blk1 gen))
    tail := some (blk2 gen)
    nonce := n }

/-- Reading cells laid out from an index on. -/
theorem read_laid_out (l : List Byte) (i j : Nat) (h : j < l.length) :
    Memory.read ((List.range' i l.length).zip l) (i + j) = l[j]? := by
  induction l generalizing i j with
  | nil => simp at h
  | cons b r ih =>
    simp only [List.length_cons, List.range'_succ, List.zip_cons_cons, Memory.read]
    cases j with
    | zero => simp
    | succ j =>
      rw [if_neg (by omega), show i + (j + 1) = i + 1 + j by omega, ih (i + 1) j (by simpa using h)]
      simp

/-- `received l` holds the frame `l`. -/
theorem received_frame (l : List Byte) (s : State) (h : l.length < 65536) : receivedFrame (received l s) = some l := by
  have hc : (BitVec.ofNat 16 l.length).toNat = l.length := by
    rw [BitVec.toNat_ofNat]; exact Nat.mod_eq_of_lt h
  rw [receivedFrame, received]
  simp only [hc]
  rw [Memory.readFrom_eq_some]
  refine ⟨rfl, fun i hi => ?_⟩
  rw [List.range_eq_range']
  exact read_laid_out l 0 i hi

/-! ## Ill-formed terms -/

theorem test_wellFormed_refuses_hexDecode_length : WellFormed (.hexDecode [0x30#8] 1) = false := by decide

theorem test_wellFormed_refuses_hexDecode_count (C : List Byte) : WellFormed (.hexDecode C (2 ^ 32)) = false := by
  simp [WellFormed]

theorem test_wellFormed_refuses_jobParse_length (F : List Byte) (h : F.length = 65536) :
    WellFormed (.jobParse F) = false := by simp [WellFormed, h]

theorem test_wellFormed_refuses_statusRead_3 : WellFormed (.statusRead 3) = false := by decide

theorem test_wellFormed_refuses_sha256Ref_length (M : List Byte) (h : M.length = 2 ^ 61) :
    WellFormed (.sha256Ref M) = false := by simp [WellFormed, h]

theorem test_wellFormed_refuses_shareDecodeRef_length (S : List Byte) (h : S.length = 2 ^ 32) :
    WellFormed (.shareDecodeRef S) = false := by simp [WellFormed, h]

theorem test_wellFormed_refuses_jobFrame_header :
    WellFormed (.jobFrame ⟨List.replicate 160 0x67#8, rfl⟩ (hexOf 32 easy)) = false := by decide +kernel

theorem test_wellFormed_refuses_jobFrame_target :
    WellFormed (.jobFrame (hexOf 80 gen) ⟨List.replicate 64 0x2F#8, rfl⟩) = false := by decide +kernel

/-! ## Decoding, from R71's OPIDs and R80's and R81's layouts -/

theorem test_decode_compress :
    whole (0x01#8 :: (bytesBE 32 0x000102030405060708090a0b0c0d0e0f101112131415161718191a1b1c1d1e1f ++ bytesBE 64 1)) =
      some (.compress ⟨0x00010203, 0x04050607, 0x08090a0b, 0x0c0d0e0f, 0x10111213, 0x14151617, 0x18191a1b,
        0x1c1d1e1f⟩ (bs 64 1)) := by decide +kernel

theorem test_decode_hashHeader : whole (0x02#8 :: bytesBE 80 2) = some (.hashHeader (bs 80 2)) := by decide +kernel

theorem test_decode_hash32 : whole (0x03#8 :: bytesBE 32 3) = some (.hash32 (bs 32 3)) := by decide +kernel

theorem test_decode_doubleHash : whole (0x04#8 :: bytesBE 80 4) = some (.doubleHash (bs 80 4)) := by decide +kernel

theorem test_decode_meetsTarget :
    whole (0x05#8 :: (bytesBE 32 5 ++ bytesBE 32 6)) = some (.meetsTarget (bs 32 5) (bs 32 6)) := by decide +kernel

theorem test_decode_prepMidstate : whole (0x06#8 :: bytesBE 80 6) = some (.prepMidstate (bs 80 6)) := by decide +kernel

theorem test_decode_trialDigest :
    whole (0x07#8 :: (bytesBE 32 7 ++ bytesBE 64 8 ++ [1#8, 2#8, 3#8, 4#8])) =
      some (.trialDigest ⟨0, 0, 0, 0, 0, 0, 0, 7⟩ (bs 64 8) 0x01020304) := by decide +kernel

theorem test_decode_hexDecode :
    whole [0x08#8, 0#8, 0#8, 0#8, 1#8, 0x66#8, 0x30#8] = some (.hexDecode [0x66#8, 0x30#8] 1) := by decide +kernel

theorem test_decode_jobParse :
    whole [0x09#8, 0#8, 2#8, 0x7B#8, 0x7D#8] = some (.jobParse [0x7B#8, 0x7D#8]) := by decide +kernel

theorem test_decode_shareEncode :
    whole (0x0A#8 :: ([0x7c#8, 0x2b#8, 0xac#8, 0x1d#8] ++ bytesBE 32 9)) =
      some (.shareEncode 0x7c2bac1d (bs 32 9)) := by decide +kernel

theorem test_decode_controller_steps :
    whole [0x10#8] = some .rxByte ∧ whole [0x11#8] = some .frameParse ∧ whole [0x12#8] = some .startSearch ∧
    whole [0x13#8] = some .trial ∧ whole [0x14#8] = some .emitShare ∧ whole [0x15#8] = some .reportExhausted ∧
    whole [0x16#8] = some .cancelSearch := by decide +kernel

theorem test_decode_statusRead :
    whole [0x20#8, 0x02#8] = some (.statusRead 2) ∧ whole [0x20#8, 0x03#8] = none := by decide +kernel

theorem test_decode_sha256Ref :
    whole [0xF0#8, 0#8, 0#8, 0#8, 0#8, 0#8, 0#8, 0#8, 3#8, 0x61#8, 0x62#8, 0x63#8] =
      some (.sha256Ref [0x61#8, 0x62#8, 0x63#8]) := by decide +kernel

theorem test_decode_shareDecodeRef :
    whole [0xF1#8, 0#8, 0#8, 0#8, 1#8, 0x0A#8] = some (.shareDecodeRef [0x0A#8]) := by decide +kernel

/-- `{"header":"` 160 × `a` `","target":"` 64 × `B` `"}` -/
theorem test_decode_jobFrame :
    whole (bytesBE 11 0x7b22686561646572223a22 ++ List.replicate 160 0x61#8 ++
        bytesBE 12 0x222c22746172676574223a22 ++ List.replicate 64 0x42#8 ++ [0x22#8, 0x7D#8]) =
      some (.jobFrame ⟨List.replicate 160 0x61#8, rfl⟩ ⟨List.replicate 64 0x42#8, rfl⟩) := by decide +kernel

/-- `{"nonce":"7c2bac1d","hash":"` 64 × `f` `"}` and a newline -/
theorem test_decode_shareFrame :
    whole (bytesBE 10 0x7b226e6f6e6365223a22 ++ bytesBE 8 0x3763326261633164 ++
        bytesBE 10 0x222c2268617368223a22 ++ List.replicate 64 0x66#8 ++ [0x22#8, 0x7D#8, 0x0A#8]) =
      some (.shareFrame 0x7c2bac1d easy) := by decide +kernel

/-- R72: the ends of the reserved ranges. -/
theorem test_decode_refuses_reserved :
    ∀ b ∈ [0x00#8, 0x0B#8, 0x0F#8, 0x17#8, 0x1F#8, 0x21#8, 0xEF#8, 0xF2#8, 0xFF#8], opidOf b = none := by decide

/-- Every row of the opcode table runs as the first operation after reset. -/
theorem test_every_opid_runs_after_reset :
    ∀ w ∈ [0x01, 0x02, 0x03, 0x04, 0x05, 0x06, 0x07, 0x08, 0x09, 0x0A, 0x10, 0x11, 0x12, 0x13, 0x14, 0x15, 0x16, 0x20,
      0xF0, 0xF1], (nextOf (step (State.reset.withFetchWord 8 w))).isSome = true := by decide +kernel

theorem test_every_frame_row_runs_after_reset :
    (nextOf (step (State.reset.withFetchWord 88 0x7b22686561646572223a22))).isSome = true ∧
    (nextOf (step (State.reset.withFetchWord 80 0x7b226e6f6e6365223a22))).isSome = true := by decide +kernel

/-! ## Hash Engine -/

/-- V-H2 -/
theorem test_logical_functions :
    bigSigma0 0x6a09e667 = 0xce20b47e ∧ bigSigma1 0x510e527f = 0x3587272b ∧ smallSigma0 0x6a09e667 = 0xba0cf582 ∧
    smallSigma1 0x6a09e667 = 0xcfe5da3c ∧ ch 0x510e527f 0x9b05688c 0x1f83d9ab = 0x1f85c98c ∧
    maj 0x6a09e667 0xbb67ae85 0x3c6ef372 = 0x3a6fe667 ∧ smallSigma0 0x80000000 = 0x11002000 ∧
    smallSigma1 0x80000000 = 0x00205000 := by decide +kernel

/-- V-H3 -/
theorem test_compress_zero_block : answerOf (.compress h0 (Bytes.zeros 64)) State.reset =
    some (.hashState (hs 0xda5698be17b9b46962335799779fbeca8ce5d491c0d26243bafef9ea1837a9d8)) := by decide +kernel

/-- V-H4 -/
theorem test_compress_other_state : answerOf (.compress HashState.zero (Bytes.zeros 64)) State.reset =
    some (.hashState (hs 0x7ca51614425c3ba8ce54dd2fc2020ae7b6e574d198136d0fae7e26ccbf0be7a6)) := by decide +kernel

/-- V-S1 -/
theorem test_hashHeader_genesis : answerOf (.hashHeader gen) State.reset =
    some (.digest (bs 32 0xaf42031e805ff493a07341e2f74ff58149d22ab9ba19f61343e2c86c71c5d66d)) := by decide +kernel

/-- V-H5 -/
theorem test_hash32_zeros : answerOf (.hash32 (Bytes.zeros 32)) State.reset =
    some (.digest (bs 32 0x66687aadf862bd776c8fc18b8e9f8e20089714856ee233b3902a591d0d5f2925)) := by decide +kernel

/-- V-S1, the source's property 2 -/
theorem test_doubleHash_genesis : answerOf (.doubleHash gen) State.reset = some (.digest genDigest) := by
  decide +kernel

/-- V-H6 -/
theorem test_doubleHash_zeros : answerOf (.doubleHash (Bytes.zeros 80)) State.reset = some (.digest zeroDigest) := by
  decide +kernel

/-- V-H1, the source's property 1 -/
theorem test_sha256Ref_abc : answerOf (.sha256Ref [0x61#8, 0x62#8, 0x63#8]) State.reset =
    some (.digest (bs 32 0xba7816bf8f01cfea414140de5dae2223b00361a396177a9cb410ff61f20015ad)) := by decide +kernel

/-- V-H7: 56 bytes pad to two blocks, 55 to one. -/
theorem test_sha256Ref_boundary :
    answerOf (.sha256Ref (List.replicate 55 0x61#8)) State.reset =
      some (.digest (bs 32 0x9f4390f8d30c2dd92ec9f095b65e2b9ae9b0a925a5258e241c9f1e910f734318)) ∧
    answerOf (.sha256Ref (List.replicate 56 0x61#8)) State.reset =
      some (.digest (bs 32 0xb35439a4ac6f0948b6d6f9e3c6af0f5f590ce20f1bde7090ef7970686ec6738a)) := by decide +kernel

/-! ## Comparator -/

/-- V-C1, V-C2, V-C4, V-C6 -/
theorem test_meetsTarget_equal_and_greater :
    answerOf (.meetsTarget (bs 32 0) (bs 32 0)) State.reset = some (.bool true) ∧
    answerOf (.meetsTarget (bs 32 1) (bs 32 0)) State.reset = some (.bool false) ∧
    answerOf (.meetsTarget (bs 32 (256 ^ 31)) (bs 32 0)) State.reset = some (.bool false) ∧
    answerOf (.meetsTarget easy easy) State.reset = some (.bool true) := by decide +kernel

/-- V-C5 (the top byte decides), V-C10, V-C9 -/
theorem test_meetsTarget_top_byte_decides :
    answerOf (.meetsTarget (bs 32 (0xff * 256 ^ 31)) (bs 32 1)) State.reset = some (.bool true) ∧
    answerOf (.meetsTarget (bs 32 0xff01) (bs 32 0x0002)) State.reset = some (.bool true) ∧
    answerOf (.meetsTarget genDigest (bs 32 0)) State.reset = some (.bool false) := by decide +kernel

/-! ## Search controller -/

/-- V-S1 -/
theorem test_prepMidstate_genesis : answerOf (.prepMidstate gen) State.reset =
    some (.midstate (hs 0xbc909a336358bff090ccac7d1e59caa8c3c8d8e94f0103c896b187364719f91b)
      (bs 64 0x4b1e5e4a29ab5f49ffff001d1dac2b7c800000000000000000000000000000000000000000000000000000000000000000000000000000000000000000000280)) := by
  decide +kernel

/-- V-M1, the genesis nonce -/
theorem test_trialDigest_genesis : answerOf (.trialDigest (compress h0 (blk1 gen)) (blk2 gen) 0x7c2bac1d) State.reset =
    some (.digest genDigest) := by decide +kernel

/-- V-M1, row 1 -/
theorem test_trialDigest_nonce_1 : answerOf (.trialDigest (compress h0 (blk1 gen)) (blk2 gen) 1) State.reset =
    some (.digest (bs 32 0x10f705b1d4a5d689dc95e6dc5f889f3bda19b7ccd3e79f196841e685789d6f93)) := by decide +kernel

/-- R145 -/
theorem test_startSearch : (nextOf (exec .startSearch { prepared with nonce := 7 })).map
    (fun s => (s.ctrlState, s.nonce)) = some (.searching, 0) := by decide +kernel

/-- Program P1: nonce 0 meets the easy target. -/
theorem test_trial_found : (nextOf (exec .trial (genSearch easy 0))).map
    (fun s => (s.ctrlState, s.nonce, s.shareNonce, s.shareHash)) =
      some (.found, 0, some 0,
        some (bs 32 0xbf483998a9b44cbf5a113973e34da96b5cf3c7757d75ac3bd7c6b30af5a7c12b)) := by decide +kernel

/-- Programs P6 and P7: a target of zeros is not met; the last nonce exhausts the search, another one advances it. -/
theorem test_trial_fails : (nextOf (exec .trial (genSearch (bs 32 0) 0xFFFFFFFF))).map
      (fun s => (s.ctrlState, s.nonce, s.tail.map (fun t => slice t.toList 12 4))) =
      some (.exhausted, 0xFFFFFFFF, some [0xFF#8, 0xFF#8, 0xFF#8, 0xFF#8]) ∧
    (nextOf (exec .trial (genSearch (bs 32 0) 4))).map
      (fun s => (s.ctrlState, s.nonce, s.tail.map (fun t => slice t.toList 12 4))) =
      some (.searching, 5, some [0x04#8, 0#8, 0#8, 0#8]) := by decide +kernel

/-- Program P6's last step -/
theorem test_reportExhausted : (nextOf (exec .reportExhausted { searching with ctrlState := .exhausted })).map
    (fun s => (s.ctrlState, s.lastOutcome, s.txLog)) = some (.idle, .exhausted, []) := by decide +kernel

/-- Program P7's last step: the nonce stays at the next untried one. -/
theorem test_cancelSearch : (nextOf (exec .cancelSearch
      { genSearch (bs 32 0) 5 with params := ⟨256, .skip, .present⟩, cancel := true })).map
    (fun s => (s.ctrlState, s.lastOutcome, s.nonce, statusWord s)) =
      some (.idle, .cancelled, 5, 0x00000618) := by decide +kernel

/-- Program P1's share -/
theorem test_emitShare_ok : (nextOf (exec .emitShare { found with txAnswers := [.ok] })).map
    (fun s => (s.shareNonce, s.shareHash, s.txWire.length, statusWord s)) =
      some (none, none, 95, 0x00000118) := by decide +kernel

/-- Program P5: the write fails after a prefix. -/
theorem test_emitShare_fails : (nextOf (exec .emitShare { found with txAnswers := [.fail 10] })).map
    (fun s => (s.ctrlState, s.txWire, statusWord s)) = some (.idle, nonceMarker, 0x00008518) := by decide +kernel

/-! ## Job parser -/

/-- R175's examples and V-P's: `1dac2b7c`, `Ff` -/
theorem test_hexDecode_digits :
    answerOf (.hexDecode [0x31#8, 0x64#8, 0x61#8, 0x63#8, 0x32#8, 0x62#8, 0x37#8, 0x63#8] 4) State.reset =
      some (.bytes [0x1d#8, 0xac#8, 0x2b#8, 0x7c#8]) ∧
    answerOf (.hexDecode [0x46#8, 0x66#8] 1) State.reset = some (.bytes [0xff#8]) := by decide +kernel

/-- `0g` -/
theorem test_hexDecode_not_hex : answerOf (.hexDecode [0x30#8, 0x67#8] 1) State.reset = some .notHex := by
  decide +kernel

/-- V-P1, and V-P12 (a leading newline under SKIP and under STRICT) -/
theorem test_jobParse_accepts :
    answerOf (.jobParse (jobFrameText (hexOf 80 gen) (hexOf 32 (bs 32 0xffff00000000)))) State.reset =
      some (.job gen (bs 32 0xffff00000000)) ∧
    answerOf (.jobParse (0x0A#8 :: genFrame)) State.reset = some (.job gen easy) ∧
    answerOf (.jobParse (0x0A#8 :: genFrame)) { State.reset with params := ⟨256, .strict, .absent⟩ } = some (.malformedJob .header) := by decide +kernel

/-- V-P8 (no target), V-P7b (a space after the comma), V-P4 (a short header) -/
theorem test_jobParse_rejects :
    answerOf (.jobParse (headerMarker ++ (hexOf 80 gen).toList ++ [quote, rbrace])) State.reset =
      some (.malformedJob .target) ∧
    answerOf (.jobParse (headerMarker ++ (hexOf 80 gen).toList ++ [quote, 0x2C#8, 0x20#8] ++ targetMarker.drop 1 ++
      (hexOf 32 easy).toList ++ [quote, rbrace])) State.reset = some (.malformedJob .target) ∧
    answerOf (.jobParse (headerMarker ++ (hexOf 80 gen).toList.take 158 ++ [quote] ++ targetMarker ++
      (hexOf 32 easy).toList ++ [quote, rbrace])) State.reset = some (.malformedJob .header) := by decide +kernel

/-- R172: a frame's first byte is stored at index 0 and destroys the job. -/
theorem test_rxByte_first : (nextOf (exec .rxByte { prepared with ctrlState := .idle, rx := [.byte 0x7B#8, .fail] })).map
    (fun s => (s.rxBuf, s.rx, s.rxConsumed, statusWord s)) =
      some ([(0, 0x7B#8)], [.fail], 1, 0x00010000) := by decide +kernel

/-- V-P15: the 256th `x` overflows the buffer; the read failure of section 7's table. -/
theorem test_rxByte_errors :
    (nextOf (exec .rxByte { received (List.replicate 255 0x78#8) State.reset with rx := [.byte 0x78#8] })).map
      (fun s => (s.rxCount, statusWord s)) = some (0, 0x00000300) ∧
    (nextOf (exec .rxByte { received [0x7B#8] State.reset with rx := [.fail] })).map statusWord =
      some 0x00004500 := by decide +kernel

theorem genFrame_parses : (match jobParse .skip genFrame with
    | .ok (hdr, tgt) => decide (hdr = gen ∧ tgt = easy)
    | .error _ => false) = true := by decide +kernel

theorem genFrame_ok : jobParse .skip genFrame = .ok (gen, easy) := by
  have := genFrame_parses
  split at this
  · rename_i h; rw [h]; simp only [decide_eq_true_eq] at this; rw [this.1, this.2]
  · simp at this

theorem genFrame_complete : frameComplete (received genFrame State.reset) = some true := by decide +kernel

/-- Program P1: the frame becomes job 1. -/
theorem test_frameParse_accepts : ∃ t, exec .frameParse (received genFrame State.reset) = .next t ∧
    t.ctrlState = .midstatePrepared ∧ t.jobHeader = some gen ∧ t.jobTarget = some easy ∧ t.jobSeq = 1 ∧
    t.rxCount = 0 := by
  have hs : selectStep (received genFrame State.reset) = some .frameParse := by
    rw [select_idle rfl, genFrame_complete]; rfl
  refine ⟨acceptJob gen easy (received genFrame State.reset), ?_, rfl, rfl, rfl, rfl, rfl⟩
  rw [exec, execFrameParse, guarded_of_select hs, received_frame _ _ (by decide +kernel)]
  simp only [show (received genFrame State.reset).params.leadPolicy = .skip from rfl, genFrame_ok]

/-- V-P13 and R184's example -/
theorem test_frameParse_rejects :
    (nextOf (exec .frameParse (received [rbrace] State.reset))).map statusWord = some 0x00001400 ∧
    (nextOf (exec .frameParse (received (headerMarker ++ (hexOf 80 gen).toList ++ [quote, rbrace])
      State.reset))).map statusWord = some 0x00002400 := by decide +kernel

/-! ## Share encoder, status port, wire frames -/

/-- V-E2 -/
theorem test_shareEncode_genesis : (answerOf (.shareEncode 0x7c2bac1d genDigest) State.reset) =
    some (.text ⟨bytesBE 28 0x7b226e6f6e6365223a223763326261633164222c2268617368223a22 ++
      bytesBE 64 0x36666532386330616236663162333732633161366132343661653633663734663933316538333635653135613038396336386436313930303030303030303030 ++
      [0x22#8, 0x7D#8, 0x0A#8], by simp [bytesBE_length]⟩) := by decide +kernel

/-- V-E1, the source's property 6, and its text without the newline -/
theorem test_shareDecodeRef :
    answerOf (.shareDecodeRef (shareEncode 1 (bs 32 0)).toList) State.reset = some (.share 1 (bs 32 0)) ∧
    answerOf (.shareDecodeRef ((shareEncode 1 (bs 32 0)).toList.take 94)) State.reset = some .reject := by
  decide +kernel

/-- Section 7: after reset, and with 100 bytes received -/
theorem test_statusRead_counts :
    answerOf (.statusRead 0) State.reset = some (.word 0) ∧
    answerOf (.statusRead 0) { State.reset with rxCount := 100 } = some (.word 0x00640000) := by decide +kernel

/-- Section 7: a search; words 1 and 2 -/
theorem test_statusRead_search :
    answerOf (.statusRead 0) searching = some (.word 0x0000001A) ∧
    answerOf (.statusRead 1) searching = some (.word 1) ∧
    answerOf (.statusRead 2) { searching with nonce := 5 } = some (.word 5) ∧
    refusalOf (exec (.statusRead 3) searching) = some (.statusIndex 3) := by decide +kernel

/-- R80: 249 bytes, the first `{`, the last `}`. -/
theorem test_jobFrame_offered : (nextOf (exec (.jobFrame (hexOf 80 gen) (hexOf 32 easy)) State.reset)).map
    (fun s => (s.rx.length, s.rx.head?, s.rx.getLast?, s.rxConsumed)) =
      some (249, some (.byte 0x7B#8), some (.byte 0x7D#8), 0) := by decide +kernel

/-- R72: the held share is written, another is refused. -/
theorem test_shareFrame :
    (nextOf (exec (.shareFrame 0 zeroDigest) { found with txAnswers := [.ok] })).map (·.txWire.length) = some 95 ∧
    refusalOf (exec (.shareFrame 1 zeroDigest) { found with txAnswers := [.ok] }) = some .shareNotHeld := by
  decide +kernel

/-! ## States that meet the invariant -/

theorem empty_buffer_inv (s : State) (h1 : s.rxBuf = []) (h2 : s.rxCount = 0) (h3 : s.params = Params.default) :
    RxInv s := by
  constructor <;> simp [h1, h2, h3, Memory.wf, Params.default]

theorem prepared_inv : BlockInv prepared := by
  have hA : ActiveJob prepared (Bytes.zeros 80) easy := ⟨rfl, rfl⟩
  have hS : SearchData prepared (Bytes.zeros 80) := ⟨rfl, blk2 (Bytes.zeros 80), rfl, by decide +kernel, by decide +kernel⟩
  have h0 : prepared.ctrlState = .midstatePrepared := rfl
  exact
    { params := by decide, rx := empty_buffer_inv _ rfl rfl rfl, mid_job := fun _ => rfl,
      job_written := fun _ => ⟨_, _, hA⟩, ingest_clear := fun h => absurd rfl h,
      search_data := fun _ => ⟨_, _, hA, hS⟩, ctrl_mid := fun _ => rfl, ctrl_rx := fun _ => rfl,
      err_field := fun _ => rfl, err_channel := fun _ => rfl, outcome_open := fun _ => rfl,
      share_absent := fun _ => ⟨rfl, rfl⟩, share_held := fun h => by rw [h0] at h; simp at h,
      none_below := fun h => by rw [h0] at h; simp at h, none_at_all := fun h => by rw [h0] at h; simp at h,
      cancel_hook := fun _ => rfl }

theorem nothing_below_zero (hdr : Bytes 80) (tgt : Bytes 32) : NoMatchBelow hdr tgt 0 := fun m h => by omega

theorem searching_inv : BlockInv searching := by
  have hp := prepared_inv
  have h0 : searching.ctrlState = .searching := rfl
  exact
    { params := hp.params, rx := empty_buffer_inv _ rfl rfl rfl, mid_job := hp.mid_job,
      job_written := hp.job_written, ingest_clear := hp.ingest_clear, search_data := hp.search_data,
      ctrl_mid := fun _ => rfl, ctrl_rx := fun _ => rfl, err_field := fun _ => rfl, err_channel := fun _ => rfl,
      outcome_open := fun _ => rfl, share_absent := fun _ => ⟨rfl, rfl⟩,
      share_held := fun h => by rw [h0] at h; simp at h, none_below := fun _ hdr tgt _ => nothing_below_zero hdr tgt,
      none_at_all := fun h => by rw [h0] at h; simp at h, cancel_hook := fun _ => rfl }

theorem found_inv : BlockInv found := by
  have hp := prepared_inv
  have h0 : found.ctrlState = .found := rfl
  have hd : doubleHash (headerWithNonce (Bytes.zeros 80) 0) = zeroDigest := by decide +kernel
  have hm : meetsTarget zeroDigest easy = true := by decide +kernel
  exact
    { params := hp.params, rx := empty_buffer_inv _ rfl rfl rfl, mid_job := hp.mid_job,
      job_written := hp.job_written, ingest_clear := hp.ingest_clear, search_data := hp.search_data,
      ctrl_mid := fun _ => rfl, ctrl_rx := fun _ => rfl, err_field := fun _ => rfl, err_channel := fun _ => rfl,
      outcome_open := fun _ => rfl, share_absent := fun h => absurd h0 h,
      share_held := fun _ hdr tgt hA => by
        have e1 : Bytes.zeros 80 = hdr := Option.some.inj hA.1
        have e2 : easy = tgt := Option.some.inj hA.2
        subst e1; subst e2
        refine ⟨rfl, ?_, ?_⟩
        · show some zeroDigest = some (doubleHash (headerWithNonce (Bytes.zeros 80) 0))
          rw [hd]
        · show meetsTarget (doubleHash (headerWithNonce (Bytes.zeros 80) 0)) easy = true
          rw [hd]; exact hm,
      none_below := fun _ hdr tgt _ => nothing_below_zero hdr tgt,
      none_at_all := fun h => by rw [h0] at h; simp at h, cancel_hook := fun _ => rfl }

theorem reset_inv : BlockInv State.reset := by
  have h0 : State.reset.ctrlState = .idle := rfl
  exact
    { params := by decide, rx := empty_buffer_inv _ rfl rfl rfl, mid_job := fun h => (by cases h),
      job_written := fun h => (by cases h), ingest_clear := fun _ => rfl, search_data := fun h => (by cases h),
      ctrl_mid := fun h => absurd h0 h, ctrl_rx := fun _ => rfl, err_field := fun _ => rfl,
      err_channel := fun _ => rfl, outcome_open := fun _ => rfl, share_absent := fun _ => ⟨rfl, rfl⟩,
      share_held := fun h => by rw [h0] at h; simp at h, none_below := fun h => by rw [h0] at h; simp at h,
      none_at_all := fun h => by rw [h0] at h; simp at h, cancel_hook := fun _ => rfl }

/-- After reset and a failed read, with a second failure waiting. -/
def failedRead : State :=
  { State.reset with rx := [.fail], lastOutcome := .transportFailure, errChannel := some .rx }

theorem failedRead_inv : BlockInv failedRead := by
  have hr := reset_inv
  have h0 : failedRead.ctrlState = .idle := rfl
  exact
    { params := hr.params, rx := empty_buffer_inv _ rfl rfl rfl, mid_job := hr.mid_job, job_written := hr.job_written,
      ingest_clear := hr.ingest_clear, search_data := hr.search_data, ctrl_mid := hr.ctrl_mid, ctrl_rx := hr.ctrl_rx,
      err_field := fun _ => rfl, err_channel := fun h => absurd rfl h, outcome_open := fun h => absurd h0 h,
      share_absent := hr.share_absent, share_held := hr.share_held, none_below := hr.none_below,
      none_at_all := hr.none_at_all, cancel_hook := hr.cancel_hook }

/-- The invariant does not look at the transport's queues or at the schedule. -/
theorem with_queues_inv {s : State} (h : BlockInv s) (rx : List RxAnswer) (tx : List TxAnswer) (turns : List Turn) :
    BlockInv { s with rx := rx, txAnswers := tx, schedule := turns } :=
  { params := h.params, rx := ⟨h.rx.canonical, h.rx.bounded, h.rx.count_le, h.rx.written, h.rx.one_brace, h.rx.full_complete⟩,
    mid_job := h.mid_job, job_written := h.job_written, ingest_clear := h.ingest_clear, search_data := h.search_data,
    ctrl_mid := h.ctrl_mid, ctrl_rx := h.ctrl_rx, err_field := h.err_field, err_channel := h.err_channel,
    outcome_open := h.outcome_open, share_absent := h.share_absent, share_held := h.share_held,
    none_below := h.none_below, none_at_all := h.none_at_all, cancel_hook := h.cancel_hook }

/-! ## Witnesses: for every obligation with hypotheses, a state and operands that meet them, clause by clause -/

theorem witness_ResetGivesTheListedValues :
    (∃ (s : State) (a : Abandoned), s.schedule = [.reset a] ∧ s.ctrlState = .found ∧ s.shareNonce = some 0 ∧
      s.shareHash = some zeroDigest ∧ 0 < a.txReceived) ∧
    (∃ (s : State) (a : Abandoned), s.schedule = [.reset a] ∧ s.ctrlState ≠ .found ∧ s.shareNonce = none) :=
  ⟨⟨{ found with schedule := [.reset ⟨false, 95⟩] }, ⟨false, 95⟩, rfl, rfl, rfl, rfl, by decide⟩,
    ⟨{ searching with schedule := [.reset ⟨true, 0⟩] }, ⟨true, 0⟩, rfl, by decide, rfl⟩⟩

theorem witness_FirstStepAfterResetReadsAByte :
    (⟨1, .skip, .absent⟩ : Params).wf ∧ (⟨65535, .strict, .present⟩ : Params).wf ∧
    (rbrace = rbrace ∨ (State.resetWith ⟨1, .skip, .absent⟩).params.rxBufLen ≠ 1) ∧
    (0x7B#8 = rbrace ∨ (State.resetWith ⟨65535, .strict, .present⟩).params.rxBufLen ≠ 1) ∧
    (0x7B#8 ≠ rbrace ∧ (State.resetWith ⟨1, .skip, .absent⟩).params.rxBufLen = 1) := by decide

theorem witness_InvariantHoldsAtReset :
    (⟨1, .strict, .present⟩ : Params).wf ∧ (⟨65535, .skip, .absent⟩ : Params).wf := by decide

theorem witness_EveryStepKeepsTheInvariant : ∃ s t : State, BlockInv s ∧ step s = .next t ∧ t.ctrlState = .searching :=
  ⟨prepared, _, prepared_inv, rfl, rfl⟩

theorem witness_NoStepReadsAnUnwrittenElement : BlockInv State.reset ∧ BlockInv searching ∧ BlockInv found :=
  ⟨reset_inv, searching_inv, found_inv⟩

theorem witness_ReadingAnUnwrittenElementFaults :
    (selectStep { searching with tail := none } = some .trial) ∧
    (selectStep { searching with midstate := none } = some .trial ∧ searching.tail ≠ none) ∧
    (selectStep { searching with jobTarget := none } = some .trial ∧ searching.midstate ≠ none) ∧
    ({ found with shareNonce := none } : State).ctrlState = .found ∧
    (({ found with shareHash := none } : State).ctrlState = .found ∧ found.shareNonce ≠ none) ∧
    (({ State.reset with rxCount := 1 } : State).rxCount ≠ 0 ∧
      Memory.read ({ State.reset with rxCount := 1 } : State).rxBuf 0 = none) ∧
    (frameComplete { State.reset with rxCount := 2, rxBuf := [(1, rbrace)] } = some true ∧
      receivedFrame { State.reset with rxCount := 2, rxBuf := [(1, rbrace)] } = none) := by decide +kernel

/-- R258 with R72: where the frame's last byte is unwritten RX_BYTE faults, and TRIAL, whose guard reads no byte, is refused. -/
theorem test_unwritten_frame_end :
    faultOf (exec .rxByte { State.reset with rxCount := 1 }) = some (.unwritten .rxBuf) ∧
    refusalOf (exec .trial { State.reset with rxCount := 1 }) = some (.guardNotHeld .trial) := by decide +kernel

theorem test_unwritten_tail_faults :
    faultOf (exec .trial { searching with tail := none }) = some (.unwritten .tail) := by decide +kernel

theorem witness_CommandStepRunsTheDecodedOperation :
    ({ searching with schedule := [.command [0x20#8, 0x02#8, 0xFF#8]] } : State).schedule =
      .command [0x20#8, 0x02#8, 0xFF#8] :: [] ∧
    decode [0x20#8, 0x02#8, 0xFF#8] = .ok (.statusRead 2, [0xFF#8]) := ⟨rfl, by rfl⟩

theorem witness_ControllerStepRunsTheEnabledStep :
    (selectStep State.reset = some .rxByte ∧ State.reset.schedule = []) ∧
    (selectStep { searching with schedule := [.controller] } = some .trial) := by decide +kernel

theorem witness_OneStepIsEnabledInEachState :
    (frameComplete State.reset = some false ∧ frameComplete (received [rbrace] State.reset) = some true ∧
      frameComplete (received [0x7B#8] State.reset) = some false) ∧
    (frameComplete prepared = some false ∧ prepared.ctrlState = .midstatePrepared) ∧
    (searching.ctrlState = .searching ∧ searching.params.cancelHook = .absent) ∧
    (∃ s : State, s.ctrlState = .searching ∧ s.params.cancelHook = .present ∧ s.cancel = true ∧
      frameComplete s = some false) ∧
    (frameComplete found = some false ∧ found.ctrlState = .found) ∧
    (∃ s : State, s.ctrlState = .exhausted ∧ frameComplete s = some false) :=
  ⟨by decide +kernel, by decide +kernel, by decide +kernel,
    ⟨{ searching with params := ⟨256, .skip, .present⟩, cancel := true }, rfl, rfl, rfl, rfl⟩, by decide +kernel,
    ⟨{ searching with ctrlState := .exhausted }, rfl, rfl⟩⟩

/-- Both ends of each reserved range meet the hypotheses. -/
theorem witness_ReservedOpidsAreRefused :
    ∀ b ∈ [0x00#8, 0x0B#8, 0x0F#8, 0x17#8, 0x1F#8, 0x21#8, 0xEF#8, 0xF2#8, 0xFF#8],
      (b = 0x00#8 ∨ (0x0B ≤ b.toNat ∧ b.toNat ≤ 0x0F) ∨ (0x17 ≤ b.toNat ∧ b.toNat ≤ 0x1F) ∨
        (0x21 ≤ b.toNat ∧ b.toNat ≤ 0xEF) ∨ 0xF2 ≤ b.toNat) ∧
      slice [b] 0 11 ≠ headerMarker ∧ slice [b] 0 10 ≠ nonceMarker ∧
      refusalOf (step { State.reset with schedule := [.command [b]] }) =
        some (.undecodable (.reservedOpid b)) := by decide +kernel

theorem witness_DecodeOfEncodeIsTheOperation :
    WellFormed (.trialDigest h0 (Bytes.zeros 64) 5) = true ∧ WellFormed (.hexDecode [] 0) = true ∧
    WellFormed (.statusRead 2) = true ∧ WellFormed (.jobFrame (hexOf 80 gen) (hexOf 32 easy)) = true := by decide +kernel

theorem witness_EncodeOfDecodeIsTheBytes : decode [0x16#8, 0x00#8] = .ok (.cancelSearch, [0x00#8]) := by rfl

theorem witness_DecodedOperationsAreWellFormed : decode [0x20#8, 0x00#8] = .ok (.statusRead 0, []) := by rfl

theorem witness_RotateMovesEachBit : 0 < 1 ∧ 31 < 32 ∧ (rotr 0x80000001 31).getLsbD 1 = true := by decide +kernel

theorem witness_Sha256RefPadsAndChainsBlocks : ([] : List Byte).length < 2 ^ 61 := by simp

theorem witness_HighestDifferingByteDecides :
    (bs 32 0 = bs 32 0) ∧
    ((bs 32 1).toList[31]? = some 1#8 ∧ (bs 32 0).toList[31]? = some 0#8 ∧ (1#8 : Byte) ≠ 0#8) ∧
    ((bs 32 (256 ^ 31)).toList[0]? = some 1#8 ∧ (bs 32 0).toList[0]? = some 0#8 ∧
      (bs 32 (256 ^ 31)).toList.drop 1 = (bs 32 0).toList.drop 1) := by decide +kernel

theorem witness_StartSearchBeginsAtNonceZero : prepared.ctrlState = .midstatePrepared := rfl

theorem witness_TrialFindsExhaustsOrAdvances :
    (setTailNonce (blk2 gen) 0x7c2bac1d).toList = (blk2 gen).toList.take 12 ++ [0x1d#8, 0xac#8, 0x2b#8, 0x7c#8] ++
      (blk2 gen).toList.drop 16 ∧
    ((genSearch easy 0).ctrlState = .searching ∧ (genSearch easy 0).tail = some (blk2 gen) ∧
      meetsTarget (trialDigest (compress h0 (blk1 gen)) (setTailNonce (blk2 gen) 0) 0) easy = true) ∧
    (meetsTarget (trialDigest (compress h0 (blk1 gen)) (setTailNonce (blk2 gen) 0xFFFFFFFF) 0xFFFFFFFF) (bs 32 0) =
      false) ∧
    (meetsTarget (trialDigest (compress h0 (blk1 gen)) (setTailNonce (blk2 gen) 0) 0) (bs 32 0) = false) := by
  decide +kernel

theorem witness_ReportExhaustedRecordsTheOutcome :
    ({ searching with ctrlState := .exhausted } : State).ctrlState = .exhausted := rfl

theorem witness_CancelSearchEndsTheSearch :
    (∃ s : State, s.ctrlState = .searching ∧ s.params.cancelHook = .present ∧ s.cancel = true) ∧
    searching.params.cancelHook = .absent ∧ found.ctrlState ≠ .searching :=
  ⟨⟨{ searching with params := ⟨256, .skip, .present⟩, cancel := true }, rfl, rfl, rfl⟩, rfl, by decide⟩

theorem witness_EmitShareWritesTheShareOnce :
    (found.ctrlState = .found ∧ found.shareNonce = some 0 ∧ found.shareHash = some zeroDigest ∧ found.txAnswers = []) ∧
    (∃ s : State, s.ctrlState = .found ∧ s.shareNonce = some 0 ∧ s.shareHash = some zeroDigest ∧ s.txAnswers = [.ok]) ∧
    (∃ s : State, s.ctrlState = .found ∧ s.shareNonce = some 0 ∧ s.shareHash = some zeroDigest ∧
      s.txAnswers = [.fail 0, .fail 95]) :=
  ⟨⟨rfl, rfl, rfl, rfl⟩, ⟨{ found with txAnswers := [.ok] }, rfl, rfl, rfl, rfl⟩,
    ⟨{ found with txAnswers := [.fail 0, .fail 95] }, rfl, rfl, rfl, rfl⟩⟩

theorem witness_RxByteStoresOneByte :
    (State.reset.ctrlState = .idle ∧ frameComplete State.reset = some false ∧ State.reset.rx = []) ∧
    (∃ s : State, frameComplete s = some false ∧ s.rx = [.fail] ∧ s.rxCount = 1) ∧
    (∃ s : State, frameComplete s = some false ∧ s.rx = [.byte 0x7D#8] ∧
      (s.rxCount + 1).toNat = s.params.rxBufLen ∧ ¬((0x7D#8 : Byte) ≠ 0x7D#8)) ∧
    (∃ s : State, frameComplete s = some false ∧ s.rx = [.byte 0x78#8] ∧
      (s.rxCount + 1).toNat ≠ s.params.rxBufLen) ∧
    (∃ s : State, frameComplete s = some false ∧ s.rx = [.byte 0x78#8] ∧ (0x78#8 : Byte) ≠ 0x7D#8 ∧
      (s.rxCount + 1).toNat = s.params.rxBufLen) :=
  ⟨by decide, ⟨{ received [0x7B#8] State.reset with rx := [.fail] }, by decide, rfl, rfl⟩,
    ⟨{ State.resetWith ⟨1, .skip, .absent⟩ with rx := [.byte 0x7D#8] }, by decide, rfl, by decide, by decide⟩,
    ⟨{ State.resetWith ⟨2, .skip, .absent⟩ with rx := [.byte 0x78#8] }, by decide, rfl, by decide⟩,
    ⟨{ State.resetWith ⟨1, .skip, .absent⟩ with rx := [.byte 0x78#8] }, by decide, rfl, by decide, by decide⟩⟩

theorem witness_FrameParseRejectsOrAcceptsTheJob :
    (frameComplete (received [rbrace] State.reset) = some true ∧
      receivedFrame (received [rbrace] State.reset) = some [rbrace] ∧ jobParse .skip [rbrace] = .error .header) ∧
    (frameComplete (received genFrame State.reset) = some true ∧
      receivedFrame (received genFrame State.reset) = some genFrame ∧ jobParse .skip genFrame = .ok (gen, easy)) :=
  ⟨⟨by decide, by decide, by rfl⟩, genFrame_complete, received_frame _ _ (by decide +kernel), genFrame_ok⟩

theorem gen_hex : hexDecodePairs (hexOf 80 gen).toList = some gen.toList := hexDecodePairs_hashHex _

theorem easy_hex : hexDecodePairs (hexOf 32 easy).toList = some easy.toList := hexDecodePairs_hashHex _

theorem witness_WellFormedFrameBecomesTheJob :
    (State.reset.params.leadPolicy ≠ .strict ∧
      (∀ j, j < [0x7B#8].length → slice ([0x7B#8] ++ jobFrameText (hexOf 80 gen) (hexOf 32 easy)) j 11 ≠ headerMarker) ∧
      receivedFrame (received ([0x7B#8] ++ jobFrameText (hexOf 80 gen) (hexOf 32 easy)) State.reset) =
        some ([0x7B#8] ++ jobFrameText (hexOf 80 gen) (hexOf 32 easy))) ∧
    hexDecodePairs (hexOf 80 gen).toList = some gen.toList ∧
    hexDecodePairs (hexOf 32 easy).toList = some easy.toList :=
  ⟨⟨by decide, by decide +kernel, received_frame _ _ (by decide +kernel)⟩, gen_hex, easy_hex⟩

theorem witness_HexDecodeDecodesPairs :
    ([0x46#8, 0x66#8].length = 2 * 1 ∧ [0x46#8, 0x66#8].all isHexDigit = true) ∧
    ([0x30#8, 0x67#8].length = 2 * 1 ∧ [0x30#8, 0x67#8].all isHexDigit = false) := by decide

theorem witness_OperandsOutsideTheDomainAreRefused :
    ([0x30#8].length ≠ 2 * 1) ∧ (∃ M : List Byte, 2 ^ 61 ≤ M.length) :=
  ⟨by decide, ⟨List.replicate (2 ^ 61) 0#8, by rw [List.length_replicate]⟩⟩

theorem witness_HeaderMarkerIsTheFirstOne :
    slice (0x0A#8 :: headerMarker) 1 11 = headerMarker ∧ slice (0x0A#8 :: headerMarker) 0 11 ≠ headerMarker ∧
    locateHeader .skip (0x0A#8 :: headerMarker) = some 1 ∧ locateHeader .strict (0x0A#8 :: headerMarker) = none := by
  decide

theorem witness_JobParseAcceptsTheFrameShape :
    (State.reset.params.leadPolicy = .skip ∧ ∀ j, j < [0x7B#8, 0x22#8].length →
      slice ([0x7B#8, 0x22#8] ++ jobFrameText (hexOf 80 gen) (hexOf 32 easy) ++ [rbrace]) j 11 ≠ headerMarker) ∧
    hexDecodePairs (hexOf 80 gen).toList = some gen.toList ∧
    hexDecodePairs (hexOf 32 easy).toList = some easy.toList := ⟨by decide +kernel, gen_hex, easy_hex⟩

theorem witness_JobParseRejectsEveryOtherShape :
    answerOf (.jobParse genFrame) State.reset = some (.job gen easy) ∧
    (genFrame = genFrame.take 248 ++ [0x7D#8] ∧ 0x7D#8 ∉ genFrame.take 248) ∧
    answerOf (.jobParse []) State.reset = some (.malformedJob .header) := by decide +kernel

theorem witness_ShareTextHasTheLayout : (bs 32 0xAB).toList[31]? = some 0xAB#8 ∧ easy.toList[0]? = some 0xFF#8 := by
  decide

theorem witness_ShareDecodeInvertsShareEncode :
    ([] : List Byte).length ≠ 95 ∧ slice (shareEncode 0 easy).toList 0 10 = nonceMarker ∧
    slice (0x7C#8 :: (shareEncode 0 easy).toList.tail) 0 10 ≠ nonceMarker ∧
    (slice ((shareEncode 0 easy).toList.set 10 0x67#8) 10 8).all isHexDigit = false ∧
    (slice ((shareEncode 0 easy).toList.set 91 0x67#8) 28 64).all isHexDigit = false ∧
    slice ((shareEncode 0 easy).toList.set 18 0#8) 18 10 ≠ hashMarker ∧
    slice ((shareEncode 0 easy).toList.set 94 0#8) 92 3 ≠ shareEnd ∧
    (((shareEncode 0 easy).toList.set 17 0x41#8).length = 95 ∧
      slice ((shareEncode 0 easy).toList.set 17 0x41#8) 0 10 = nonceMarker ∧
      slice ((shareEncode 0 easy).toList.set 17 0x41#8) 18 10 = hashMarker ∧
      slice ((shareEncode 0 easy).toList.set 17 0x41#8) 92 3 = shareEnd ∧
      (slice ((shareEncode 0 easy).toList.set 17 0x41#8) 10 8).all isHexDigit = true ∧
      (slice ((shareEncode 0 easy).toList.set 17 0x41#8) 28 64).all isHexDigit = true) := by decide +kernel

/-- R205's corner case: an uppercase digit is accepted (the nonce text `0000000A`). -/
theorem test_shareDecodeRef_uppercase :
    answerOf (.shareDecodeRef ((shareEncode 0 easy).toList.set 17 0x41#8)) State.reset = some (.share 10 easy) := by
  decide +kernel

theorem witness_StatusReadAnswersTheWord : 2 < 3 := by decide

theorem witness_StatusWordReadsBack :
    4 < ((5 : Word).extractLsb' 0 3).toNat ∧ 6 < ((0x700 : Word).extractLsb' 8 4).toNat ∧
    (0x3000 : Word).extractLsb' 12 2 = 3 ∧ (0xC000 : Word).extractLsb' 14 2 = 3 ∧
    (0x20 : Word).extractLsb' 5 3 ≠ 0 := by decide +kernel

theorem witness_ShareFrameIsTheHeldShare :
    (∃ s : State, s.ctrlState = .found ∧ s.shareNonce = some 0 ∧ s.shareHash = some zeroDigest ∧ s.txAnswers = [.ok]) ∧
    ((0 : Word), zeroDigest) ≠ (1, zeroDigest) ∧
    State.reset.ctrlState ≠ .found :=
  ⟨⟨{ found with txAnswers := [.ok] }, rfl, rfl, rfl, rfl⟩, by decide, by decide⟩

theorem witness_UnitOperationsChangeOnlyTheAnswer :
    (∀ c : CtrlStep, Instr.statusRead 1 ≠ c.instr) ∧ (nextOf (exec (.statusRead 1) searching)).isSome = true :=
  ⟨fun c => by cases c <;> simp [CtrlStep.instr], by decide +kernel⟩

theorem witness_NoStepChangesTheParameters : ∃ t, step prepared = .next t ∧ t.ctrlState = .searching := ⟨_, rfl, rfl⟩

theorem witness_NoStepWritesAValidJob : ∃ s t : State, BlockInv s ∧ s.jobValid = true ∧
    (∀ a rest, s.schedule ≠ .reset a :: rest) ∧ step s = .next t ∧ s.tail = some (blk2 (Bytes.zeros 80)) :=
  ⟨prepared, _, prepared_inv, rfl, (fun _ _ h => by cases h), rfl, rfl⟩

theorem witness_NoByteIsReadOutsideIdle : ∃ s t : State, s.ctrlState ≠ .idle ∧ s.rx = [.byte 0#8] ∧ step s = .next t :=
  ⟨{ prepared with rx := [.byte 0#8] }, _, by decide, rfl, rfl⟩

/-- One step of each kind: nothing taken, a failure taken, a byte taken. -/
theorem witness_RxStreamIsTakenInOrder :
    (∃ t, step prepared = .next t) ∧
    ((nextOf (step { State.reset with rx := [.fail] })).map (fun t => (t.rx, t.rxConsumed)) = some ([], 0)) ∧
    ((nextOf (step { State.reset with rx := [.byte 0x7B#8, .fail] })).map (fun t => (t.rx, t.rxConsumed)) =
      some ([.fail], 1)) := ⟨⟨_, rfl⟩, by decide +kernel, by decide +kernel⟩

theorem witness_OnlyTheHeldShareIsWritten :
    ((nextOf (step { found with txAnswers := [.fail 95] })).map fun t => t.txLog) =
      some [⟨(shareText 0 zeroDigest).toList, 95⟩] := by decide +kernel

theorem witness_MidstateComesOnlyFromAnAcceptedJob : ∃ t, step (received genFrame State.reset) = .next t ∧
    t.ctrlState = .midstatePrepared ∧ t.jobSeq = 1 := by
  obtain ⟨t, h1, h2, -, -, h3, -⟩ := test_frameParse_accepts
  refine ⟨t, ?_, h2, h3⟩
  have hs : selectStep (received genFrame State.reset) = some .frameParse := by
    rw [select_idle rfl, genFrame_complete]; rfl
  have h0 : (received genFrame State.reset).schedule = [] := rfl
  simp only [step, h0, controllerTurn, fetchStep, hs]
  exact h1

theorem witness_ErrorEntryReturnsToIdle :
    ((nextOf (step { State.resetWith ⟨1, .skip, .absent⟩ with rx := [.byte 0#8] })).map (·.lastOutcome) =
      some .bufferOverflow) ∧
    ((nextOf (step (received [rbrace] State.reset))).map (·.lastOutcome) = some .malformedJob) ∧
    ((nextOf (step { State.reset with rx := [.fail] })).map (·.lastOutcome) = some .transportFailure) ∧
    ((nextOf (step { found with txAnswers := [.fail 0] })).map (·.lastOutcome) = some .transportFailure) := by
  decide +kernel

/-- The ends of job cycles in the second half of that statement: a second failed read in a row, and an emission. -/
theorem witness_ErrorEntryReturnsToIdle_cycle :
    (∃ s t : State, BlockInv s ∧ (∀ a rest, s.schedule ≠ .reset a :: rest) ∧ step s = .next t ∧ CycleEnds s t ∧
      s.lastOutcome = .transportFailure ∧ t.lastOutcome = .transportFailure) ∧
    (∃ s t : State, BlockInv s ∧ (∀ a rest, s.schedule ≠ .reset a :: rest) ∧ step s = .next t ∧ CycleEnds s t ∧
      s.ctrlState = .found) := by
  refine ⟨⟨failedRead, _, failedRead_inv, fun _ _ h => (by cases h), rfl, ⟨⟨rfl, rfl⟩, .inr (by decide)⟩, rfl, rfl⟩, ?_⟩
  exact ⟨{ found with rx := [], txAnswers := [.ok], schedule := [] }, _, with_queues_inv found_inv [] [.ok] [],
    fun _ _ h => (by cases h), rfl, ⟨⟨rfl, rfl⟩, .inl (fun h => (by cases h.1))⟩, rfl⟩

theorem witness_OnlyTheTransportCanHangTheBlock :
    (BlockInv State.reset ∧ State.reset.schedule = [] ∧ State.reset.rx = []) ∧
    (BlockInv found ∧ found.schedule = [] ∧ found.txAnswers = []) ∧ (BlockInv prepared ∧ prepared.schedule = []) :=
  ⟨⟨reset_inv, rfl, rfl⟩, ⟨found_inv, rfl, rfl⟩, ⟨prepared_inv, rfl⟩⟩

theorem witness_OfferedJobFrameIsAccepted (r : List RxAnswer) : ∃ s : State, BlockInv s ∧ Quiescent s ∧
    s.schedule = [] ∧ 249 ≤ s.params.rxBufLen ∧
    s.rx = (jobFrameText (hexOf 80 gen) (hexOf 32 easy)).map .byte ++ r ∧
    hexDecodePairs (hexOf 80 gen).toList = some gen.toList ∧
    hexDecodePairs (hexOf 32 easy).toList = some easy.toList := by
  generalize hF : (jobFrameText (hexOf 80 gen) (hexOf 32 easy)).map RxAnswer.byte ++ r = q
  exact ⟨_, with_queues_inv reset_inv q [] [], ⟨rfl, rfl⟩, rfl, (by show 249 ≤ 256; decide), rfl, gen_hex, easy_hex⟩

theorem witness_SearchEndsWithinAllNonces : BlockInv searching ∧ searching.ctrlState = .searching ∧
    searching.schedule = [] ∧ searching.params.cancelHook = .absent := ⟨searching_inv, rfl, rfl, rfl⟩

theorem witness_SearchFindsTheLeastNonce : BlockInv prepared ∧ prepared.ctrlState = .midstatePrepared ∧
    prepared.schedule = [] ∧ prepared.params.cancelHook = .absent ∧ ActiveJob prepared (Bytes.zeros 80) easy :=
  ⟨prepared_inv, rfl, rfl, rfl, rfl, rfl⟩

theorem witness_DriveCancelSetsTheLevel :
    (∃ s : State, s.schedule = [.driveCancel true] ∧ s.params.cancelHook = .present) ∧
    (∃ s : State, s.schedule = [.driveCancel true] ∧ s.params.cancelHook = .absent) :=
  ⟨⟨{ State.resetWith ⟨256, .skip, .present⟩ with schedule := [.driveCancel true] }, rfl, rfl⟩,
    ⟨{ State.reset with schedule := [.driveCancel true] }, rfl, rfl⟩⟩

theorem witness_TransportAnswersWaitInOrder :
    (∃ s : State, s.schedule = [.rxAnswer .fail]) ∧ (∃ s : State, s.schedule = [.txAnswer (.fail 95)]) :=
  ⟨⟨{ State.reset with schedule := [.rxAnswer .fail] }, rfl⟩,
    ⟨{ State.reset with schedule := [.txAnswer (.fail 95)] }, rfl⟩⟩

end Sys2Proof.Tests
end

section
/-! PROOFS. The statements of 10_state.md: a read of the status port (R40, R41) and a drive of `CANCEL` (R37). -/

namespace Sys2Proof.Machine

/-! ## The fields of the `STATUS` word (R40) -/

@[simp] theorem statusWord_ctrlState (s : State) : (statusWord s).extractLsb' 0 3 = s.ctrlState.code :=
  BitVec.extractLsb'_append_eq_right

@[simp] theorem statusWord_jobValid (s : State) : (statusWord s).getLsbD 3 = s.jobValid := by
  simp only [statusWord, BitVec.getLsbD_append, Nat.reduceLT, Nat.reduceSub, ↓reduceIte, Nat.lt_add_one,
    BitVec.getLsbD_ofBool, decide_true, Bool.true_and]

@[simp] theorem statusWord_midValid (s : State) : (statusWord s).getLsbD 4 = s.midValid := by
  simp only [statusWord, BitVec.getLsbD_append, Nat.reduceLT, Nat.reduceSub, ↓reduceIte, BitVec.getLsbD_ofBool,
    decide_true, Bool.true_and]

@[simp] theorem statusWord_reserved (s : State) : (statusWord s).extractLsb' 5 3 = 0#3 := by
  simp only [statusWord, BitVec.extractLsb'_append_eq_of_le, BitVec.extractLsb'_append_eq_right, Nat.reduceLeDiff,
    Nat.reduceSub]

@[simp] theorem statusWord_lastOutcome (s : State) : (statusWord s).extractLsb' 8 4 = s.lastOutcome.code := by
  simp only [statusWord, BitVec.extractLsb'_append_eq_of_le, BitVec.extractLsb'_append_eq_right, Nat.reduceLeDiff,
    Nat.reduceSub]

@[simp] theorem statusWord_errField (s : State) : (statusWord s).extractLsb' 12 2 = errFieldCode s.errField := by
  simp only [statusWord, BitVec.extractLsb'_append_eq_of_le, BitVec.extractLsb'_append_eq_right, Nat.reduceLeDiff,
    Nat.reduceSub]

@[simp] theorem statusWord_errChannel (s : State) : (statusWord s).extractLsb' 14 2 = errChannelCode s.errChannel := by
  simp only [statusWord, BitVec.extractLsb'_append_eq_of_le, BitVec.extractLsb'_append_eq_right, Nat.reduceLeDiff,
    Nat.reduceSub]

@[simp] theorem statusWord_rxCount (s : State) : (statusWord s).extractLsb' 16 16 = s.rxCount := by
  simp only [statusWord, BitVec.extractLsb'_append_eq_of_le, BitVec.extractLsb'_eq_self, Nat.reduceLeDiff,
    Nat.reduceSub]

/-! ## The codes as numerals (R21, R32 to R34) -/

theorem ctrlState_code_mem (c : CtrlState) : (c, c.code) ∈ [(CtrlState.idle, 0#3), (.midstatePrepared, 1#3),
    (.searching, 2#3), (.found, 3#3), (.exhausted, 4#3)] := by
  cases c <;> decide

theorem lastOutcome_code_mem (o : LastOutcome) : (o, o.code) ∈ [(LastOutcome.none, 0#4), (.found, 1#4),
    (.exhausted, 2#4), (.bufferOverflow, 3#4), (.malformedJob, 4#4), (.transportFailure, 5#4), (.cancelled, 6#4)] := by
  cases o <;> decide

theorem errFieldCode_mem (f : Option JobField) :
    (f, errFieldCode f) ∈ [(none, 0#2), (some JobField.header, 1#2), (some .target, 2#2)] := by
  rcases f with _ | (_ | _) <;> decide

theorem errChannelCode_mem (c : Option Channel) :
    (c, errChannelCode c) ∈ [(none, 0#2), (some Channel.rx, 1#2), (some .tx, 2#2)] := by
  rcases c with _ | (_ | _) <;> decide

/-! ## `STATUS_READ` (R41) -/

theorem statusPort_eq_none_iff {k : Nat} {s : State} : statusPort k s = none ↔ 2 < k := by
  obtain _ | _ | _ | k := k <;> simp [statusPort]

theorem exec_statusRead_of_some {k : Nat} {s : State} {w : Word} (h : statusPort k s = some w) :
    exec (.statusRead k) s = .next (answer (.word w) s) := by
  simp only [exec, execStatusRead, h]

theorem exec_statusRead_of_none {k : Nat} {s : State} (h : statusPort k s = none) :
    exec (.statusRead k) s = .refused (.statusIndex k) := by
  simp only [exec, execStatusRead, h]

/-- Settles O41: index by index of the port (R40), the `STATUS` word field by field. -/
theorem statusReadAnswersTheWord : Obligations.StatusReadAnswersTheWord := by
  intro s
  refine ⟨⟨statusWord s, exec_statusRead_of_some rfl, ?_⟩, exec_statusRead_of_some rfl, exec_statusRead_of_some rfl,
    fun k hk => exec_statusRead_of_none (statusPort_eq_none_iff.mpr hk)⟩
  rw [statusWord_ctrlState, statusWord_lastOutcome, statusWord_errField, statusWord_errChannel]
  exact ⟨ctrlState_code_mem _, statusWord_jobValid s, statusWord_midValid s, statusWord_reserved s,
    lastOutcome_code_mem _, errFieldCode_mem _, errChannelCode_mem _, statusWord_rxCount s⟩

/-! ## A drive of `CANCEL` (R37) -/

theorem step_of_schedule_cons {s : State} {turn : Turn} {rest : List Turn} (h : s.schedule = turn :: rest) :
    step s = takeTurn turn { s with schedule := rest } := by
  simp only [step, h]

theorem driveCancel_of_present {s : State} {level : Bool} (h : s.params.cancelHook = .present) :
    driveCancel level s = { s with cancel := level } := by
  simp [driveCancel, h]

theorem driveCancel_of_absent {s : State} {level : Bool} (h : s.params.cancelHook = .absent) :
    driveCancel level s = s := by
  simp [driveCancel, h]

/-- Settles O57: the drive is the turn at the head of the schedule, and `CANCEL_HOOK` says whether it is recorded. -/
theorem driveCancelSetsTheLevel : Obligations.DriveCancelSetsTheLevel := by
  intro s level rest hs
  have drives : step s = .next (driveCancel level { s with schedule := rest }) := step_of_schedule_cons hs
  constructor
  · intro present
    rw [drives, driveCancel_of_present]
    exact present
  · intro absent
    rw [drives, driveCancel_of_absent]
    exact absent

end Sys2Proof.Machine
end

section
/-! PROOFS. The statements of 20_memory.md: the order of the transport's answers (R55 to R57, R64) and what is written
to it (R56, R151). -/

namespace Sys2Proof.Machine

/-! ## The surroundings' fields -/

theorem SameSurroundings.rx {s t : State} (h : SameSurroundings s t) : t.rx = s.rx := by
  obtain ⟨-, -, hrx, -⟩ := h; exact hrx

theorem SameSurroundings.txLog {s t : State} (h : SameSurroundings s t) : t.txLog = s.txLog := by
  obtain ⟨-, -, -, -, hlog, -⟩ := h; exact hlog

theorem SameSurroundings.rxConsumed {s t : State} (h : SameSurroundings s t) : t.rxConsumed = s.rxConsumed := by
  obtain ⟨-, -, -, -, -, hcons, -⟩ := h; exact hcons

theorem endTrial_surroundings (d : Bytes 32) (hit : Bool) (s : State) : SameSurroundings s (endTrial d hit s) := by
  obtain ⟨-, h, -⟩ := endTrial_frame d hit s; exact h

theorem ingestByte_surroundings (b : Byte) (s : State) : SameSurroundings s (ingestByte b s) := by
  obtain ⟨-, h, -⟩ := ingestByte_frame b s; exact h

theorem endEmission_surroundings (ok : Bool) (s : State) : SameSurroundings s (endEmission ok s) := by
  obtain ⟨-, h, -⟩ := endEmission_frame ok s; exact h

/-! ## A step without a reset -/

theorem step_of_schedule_nil {s : State} (h : s.schedule = []) : step s = controllerTurn s := by
  simp only [step, h]

/-- `step_effect` where the turn is no reset; an answer offered by the transport is an `Effect.offered`. -/
theorem step_effect_of_not_reset {s t : State} (noReset : ∀ a rest, s.schedule ≠ .reset a :: rest)
    (h : step s = .next t) :
    Effect { s with schedule := s.schedule.tail } t ∨
    (∃ level, t = driveCancel level { s with schedule := s.schedule.tail }) ∨
    ∃ a, t = offerTx a { s with schedule := s.schedule.tail } := by
  cases hs : s.schedule with
  | nil =>
    rw [step_of_schedule_nil hs] at h
    rw [List.tail_nil, ← hs]
    exact .inl (controllerTurn_effect h)
  | cons turn rest =>
    rw [step_of_schedule_cons hs] at h
    cases turn with
    | controller => exact .inl (controllerTurn_effect h)
    | command bs => exact .inl (commandTurn_effect h)
    | reset a => exact absurd hs (noReset a rest)
    | driveCancel level => cases h; exact .inr (.inl ⟨level, rfl⟩)
    | rxAnswer a => cases h; exact .inl (.offered [a])
    | txAnswer a => cases h; exact .inr (.inr ⟨a, rfl⟩)

/-! ## Reads of the transport (R55, R57) -/

/-- What can become of the RX stream: it keeps its answers, or `RX_BYTE` takes the first one. -/
inductive RxStep (s t : State) : Prop where
  | kept (more : List RxAnswer) (count : t.rxConsumed = s.rxConsumed) (stream : t.rx = s.rx ++ more)
  | failed (sel : selectStep s = some .rxByte) (count : t.rxConsumed = s.rxConsumed) (stream : s.rx = .fail :: t.rx)
  | took (b : Byte) (sel : selectStep s = some .rxByte) (count : t.rxConsumed = s.rxConsumed + 1)
    (stream : s.rx = .byte b :: t.rx)

theorem RxStep.unchanged {s t : State} (count : t.rxConsumed = s.rxConsumed) (stream : t.rx = s.rx) : RxStep s t :=
  .kept [] count (by rw [stream, List.append_nil])

theorem RxStep.of_surroundings {s t : State} (h : SameSurroundings s t) : RxStep s t :=
  .unchanged h.rxConsumed h.rx

theorem Effect.rxStep {s t : State} (e : Effect s t) : RxStep s t := by
  cases e with
  | offered as => exact .kept as rfl rfl
  | readFails r sel stream => exact .failed sel (beginIngestion_rxConsumed s) stream
  | readsByte b r sel stream =>
    have same := ingestByte_surroundings b { beginIngestion s with rx := r, rxConsumed := s.rxConsumed + 1 }
    exact .took b sel same.rxConsumed (by rw [stream, same.rx])
  | tried => exact .of_surroundings (endTrial_surroundings _ _ { s with tail := _ })
  | emitted => exact .unchanged (endEmission_surroundings _ _).rxConsumed (endEmission_surroundings _ _).rx
  | answered | waitsRx | waitsTx | malformed | accepted | started | reported | cancelled => exact .unchanged rfl rfl

theorem step_rxStep {s t : State} (noReset : ∀ a rest, s.schedule ≠ .reset a :: rest) (h : step s = .next t) :
    RxStep { s with schedule := s.schedule.tail } t := by
  obtain e | ⟨level, rfl⟩ | ⟨a, rfl⟩ := step_effect_of_not_reset noReset h
  · exact e.rxStep
  · exact .unchanged rfl rfl
  · exact .unchanged rfl rfl

/-- Settles O49: `RX_BYTE` alone takes an answer, and takes the first. -/
theorem rxStreamIsTakenInOrder : Obligations.RxStreamIsTakenInOrder := by
  intro s t noReset h
  cases step_rxStep noReset h with
  | kept more count stream => exact .inl ⟨count, more, stream⟩
  | failed _ count stream => exact .inr (.inl ⟨count, stream⟩)
  | took b _ count stream => exact .inr (.inr ⟨b, count, stream⟩)

/-! ## Writes to the transport (R56, R151) -/

theorem TxAnswer.received_le (a : TxAnswer) (S : List Byte) : a.received S ≤ S.length := by
  cases a with
  | ok => exact le_rfl
  | fail k => exact Nat.min_le_right k S.length

/-- One write more is recorded, of the text of the share held in `FOUND`, and `k` of its bytes arrived. -/
def WroteHeldShare (s t : State) : Prop :=
  ∃ (n : Word) (h : Bytes 32) (k : Nat), s.ctrlState = .found ∧ s.shareNonce = some n ∧ s.shareHash = some h ∧
    k ≤ 95 ∧ t.txLog = s.txLog ++ [⟨(shareText n h).toList, k⟩]

theorem Effect.txLog_cases {s t : State} (e : Effect s t) : t.txLog = s.txLog ∨ WroteHeldShare s t := by
  cases e with
  | emitted n h a r sel nonce hash =>
    have arrived : a.received (shareText n h).toList ≤ 95 := by
      simpa only [(shareText n h).length_eq] using a.received_le (shareText n h).toList
    exact .inr ⟨n, h, _, state_of_select sel, nonce, hash, arrived, (endEmission_surroundings _ _).txLog⟩
  | readFails => exact .inl (beginIngestion_txLog s)
  | readsByte => exact .inl ((ingestByte_surroundings _ _).txLog.trans (beginIngestion_txLog s))
  | tried => exact .inl (endTrial_surroundings _ _ _).txLog
  | answered | offered | waitsRx | waitsTx | malformed | accepted | started | reported | cancelled => exact .inl rfl

/-- A reset records at most the write of the share it abandons (R250, log 10). -/
theorem resetEvent_txLog_cases (a : Abandoned) (s : State) :
    (resetEvent a s).txLog = s.txLog ∨ WroteHeldShare s (resetEvent a s) := by
  have log : (resetEvent a s).txLog = abandonWrite a.txReceived s := rfl
  unfold abandonWrite at log
  split at log
  · rename_i n h found nonce hash
    split at log
    · exact .inl log
    · have arrived : min a.txReceived (shareText n h).toList.length ≤ 95 := by
        simpa only [(shareText n h).length_eq] using Nat.min_le_right a.txReceived 95
      exact .inr ⟨n, h, _, found, nonce, hash, arrived, log⟩
  · exact .inl log

/-- Settles O50: `EMIT_SHARE`'s write and the one a reset abandons are of the held share; nothing else writes. -/
theorem onlyTheHeldShareIsWritten : Obligations.OnlyTheHeldShareIsWritten := by
  intro s t h
  cases step_effect h with
  | ran e => exact e.txLog_cases
  | reset a => exact resetEvent_txLog_cases a { s with schedule := s.schedule.tail }
  | drove | offeredRx | offeredTx => exact .inl rfl

/-! ## What the surroundings put on the transport (R64, R80) -/

/-- Settles O43: the frame is `jobFrameText`. -/
theorem jobFrameIsOfferedOnRx : Obligations.JobFrameIsOfferedOnRx := by
  intro hh th s
  refine ⟨jobFrameText hh th, ?_, jobFrameText_length hh th, rfl⟩
  simp only [jobFrameText, headerMarker, targetMarker, quote, rbrace, List.append_assoc, List.cons_append,
    List.nil_append]

/-- Settles O58: the turn at the head of the schedule is `offerRx` of one answer, or `offerTx`. -/
theorem transportAnswersWaitInOrder : Obligations.TransportAnswersWaitInOrder := by
  intro s rest
  exact ⟨fun a hs => step_of_schedule_cons hs, fun a hs => step_of_schedule_cons hs⟩

end Sys2Proof.Machine
end

section
/-! PROOFS. The statements of 30_encoding.md: the operations that are no controller step and no wire frame change nothing
but the answer port (R70, R41, R116, log 2). -/

namespace Sys2Proof.Machine

/-! ## An answer leaves everything else as it is -/

theorem answer_block (r : OpResult) (s : State) : SameBlock s (answer r s) := by
  simp only [SameBlock, answer_ctrlState, answer_jobValid, answer_midValid, answer_jobHeader, answer_jobTarget,
    answer_jobSeq, answer_midstate, answer_tail, answer_nonce, answer_shareNonce, answer_shareHash, answer_rxBuf,
    answer_rxCount, answer_lastOutcome, answer_errField, answer_errChannel, and_self]

theorem answer_surroundings (r : OpResult) (s : State) : SameSurroundings s (answer r s) := by
  simp only [SameSurroundings, answer_params, answer_cancel, answer_rx, answer_txAnswers, answer_txLog,
    answer_rxConsumed, answer_schedule, and_self]

/-! ## Operations that only answer (R70) -/

/-- An outcome in `s` whose next state, where it has one, is `s` with an answer in the port. -/
def OnlyAnswers (s : State) (o : Host.Outcome State Fault Refusal) : Prop :=
  ∀ t, o = .next t → ∃ r, t = answer r s

theorem onlyAnswers_next (r : OpResult) (s : State) : OnlyAnswers s (.next (answer r s)) := by
  intro t h
  cases h
  exact ⟨r, rfl⟩

theorem onlyAnswers_refused (x : Refusal) (s : State) : OnlyAnswers s (.refused x) := by
  intro t h
  cases h

/-- `HEX_DECODE`: the digits, `NOT_HEX`, or a refusal for the length (R175). -/
theorem execHexDecode_onlyAnswers (C : List Byte) (n : Nat) (s : State) : OnlyAnswers s (execHexDecode C n s) := by
  unfold execHexDecode
  split
  · split
    · exact onlyAnswers_next _ s
    · exact onlyAnswers_next _ s
  · exact onlyAnswers_refused _ s

/-- `JOB_PARSE`: the job or the malformed field; as a unit operation it raises no error (R180, log 19). -/
theorem execJobParse_onlyAnswers (F : List Byte) (s : State) : OnlyAnswers s (execJobParse F s) := by
  unfold execJobParse
  split
  · exact onlyAnswers_next _ s
  · exact onlyAnswers_next _ s

/-- `STATUS_READ`: the word, or a refusal for an index above 2 (R41). -/
theorem execStatusRead_onlyAnswers (k : Nat) (s : State) : OnlyAnswers s (execStatusRead k s) := by
  unfold execStatusRead
  split
  · exact onlyAnswers_next _ s
  · exact onlyAnswers_refused _ s

/-- `SHA256_REF`: the digest, or a refusal for the length (R118). -/
theorem execSha256Ref_onlyAnswers (M : List Byte) (s : State) : OnlyAnswers s (execSha256Ref M s) := by
  unfold execSha256Ref
  split
  · exact onlyAnswers_next _ s
  · exact onlyAnswers_refused _ s

/-- `SHARE_DECODE_REF`: the share or a rejection (R205). -/
theorem execShareDecodeRef_onlyAnswers (T : List Byte) (s : State) : OnlyAnswers s (execShareDecodeRef T s) := by
  unfold execShareDecodeRef
  split
  · exact onlyAnswers_next _ s
  · exact onlyAnswers_next _ s

/-- What the hypotheses leave: unit functions, the status port and the reference functions (R70). -/
theorem exec_onlyAnswers {i : Instr} (s : State) (noStep : ∀ c : CtrlStep, i ≠ c.instr)
    (noJobFrame : ∀ hh th, i ≠ .jobFrame hh th) (noShareFrame : ∀ n h, i ≠ .shareFrame n h) :
    OnlyAnswers s (exec i s) := by
  cases i with
  | compress | hashHeader | hash32 | doubleHash | meetsTarget | prepMidstate | trialDigest | shareEncode =>
    exact onlyAnswers_next _ s
  | hexDecode C n => exact execHexDecode_onlyAnswers C n s
  | jobParse F => exact execJobParse_onlyAnswers F s
  | statusRead k => exact execStatusRead_onlyAnswers k s
  | sha256Ref M => exact execSha256Ref_onlyAnswers M s
  | shareDecodeRef T => exact execShareDecodeRef_onlyAnswers T s
  | rxByte => exact absurd rfl (noStep .rxByte)
  | frameParse => exact absurd rfl (noStep .frameParse)
  | startSearch => exact absurd rfl (noStep .startSearch)
  | trial => exact absurd rfl (noStep .trial)
  | emitShare => exact absurd rfl (noStep .emitShare)
  | reportExhausted => exact absurd rfl (noStep .reportExhausted)
  | cancelSearch => exact absurd rfl (noStep .cancelSearch)
  | jobFrame hh th => exact absurd rfl (noJobFrame hh th)
  | shareFrame n h => exact absurd rfl (noShareFrame n h)

/-- Settles O45: the next state of such an operation is `answer`'s. -/
theorem unitOperationsChangeOnlyTheAnswer : Obligations.UnitOperationsChangeOnlyTheAnswer := by
  intro i s t noStep noJobFrame noShareFrame h
  obtain ⟨r, rfl⟩ := exec_onlyAnswers s noStep noJobFrame noShareFrame t h
  exact ⟨answer_block r s, answer_surroundings r s⟩

end Sys2Proof.Machine
end

section
/-! PROOFS. The statements of 40_hash_engine.md: the compression (R106 to R110), the two fixed message shapes (R112 to
R114) and the reference function (R118). -/

namespace Sys2Proof.Machine

/-! ## The two fixed message shapes (R112 to R114) -/

theorem blk1_toList (hdr : Bytes 80) : (blk1 hdr).toList = hdr.toList.take 64 := rfl

theorem exec_hashHeader (hdr : Bytes 80) (s : State) :
    exec (.hashHeader hdr) s = .next { s with result := some (.digest (hashHeader hdr)) } := rfl

theorem exec_hash32 (d1 : Bytes 32) (s : State) :
    exec (.hash32 d1) s = .next { s with result := some (.digest (hash32 d1)) } := rfl

theorem exec_doubleHash (hdr : Bytes 80) (s : State) :
    exec (.doubleHash hdr) s = .next { s with result := some (.digest (hash32 (hashHeader hdr))) } := rfl

/-- Settles O18: the block is `BLK3` of the string (R77). -/
theorem hash32IsOneCompression : Obligations.Hash32IsOneCompression := by
  intro d1 s
  exact ⟨blk3 d1, compress h0 (blk3 d1), hash32 d1, blk3_toList d1, rfl, ser_toList _, exec_hash32 d1 s⟩

/-- Settles O17: the blocks are `BLK1` and `BLK2` of the header (R75, R76) and `BLK3` of pass 1's digest (R77). -/
theorem headerHashesFollowTheLayouts : Obligations.HeaderHashesFollowTheLayouts := by
  intro hdr s
  exact ⟨blk1 hdr, blk2 hdr, blk3 (hashHeader hdr), compress (compress h0 (blk1 hdr)) (blk2 hdr),
    compress h0 (blk3 (hashHeader hdr)), hashHeader hdr, hash32 (hashHeader hdr),
    blk1_toList hdr, blk2_toList hdr, rfl, ser_toList _, blk3_toList _, rfl, ser_toList _, rfl,
    exec_hashHeader hdr s, exec_hash32 _ s, exec_doubleHash hdr s⟩

/-! ## The schedule word by word (R106, R107) -/

/-- `W[t]` (R106, R107). -/
def scheduleWord (B : Bytes 64) (t : Nat) : Word := (messageSchedule B).getD t 0

theorem messageSchedule_getElem? {B : Bytes 64} {t : Nat} (h : t < 64) :
    (messageSchedule B)[t]? = some (scheduleWord B t) := by
  rw [scheduleWord, List.getD_eq_getElem _ _ (by rw [messageSchedule_length]; exact h), List.getElem?_eq_getElem]

/-- Where `n` words have been added to the block's own, the words so far are `W[0..n+15]`. -/
theorem scheduleWord_eq_getD_extendSchedule {B : Bytes 64} {n t : Nat} (hn : n ≤ 48) (ht : t < n + 16) :
    scheduleWord B t = (extendSchedule n (wordsBE B.toList).reverse).reverse.getD t 0 := by
  have stable := extendSchedule_stable n (48 - n) (wordsBE B.toList).reverse t
    (by simpa [wordsBE_length _ 16 B.length_eq] using ht)
  rw [Nat.add_sub_cancel' hn] at stable
  rw [scheduleWord, messageSchedule, List.getD_eq_getElem?_getD, List.getD_eq_getElem?_getD, stable]

/-- The words so far stand newest first: place `j` holds the word made `j` words before the newest one, `W[n+15]`. -/
theorem extendSchedule_getD {B : Bytes 64} {n j : Nat} (hn : n ≤ 48) (hj : j < n + 16) :
    (extendSchedule n (wordsBE B.toList).reverse).getD j 0 = scheduleWord B (n + 15 - j) := by
  have len : (extendSchedule n (wordsBE B.toList).reverse).length = n + 16 := by
    rw [extendSchedule_length, List.length_reverse, wordsBE_length _ 16 B.length_eq]
  rw [scheduleWord_eq_getD_extendSchedule hn (by omega), List.getD_eq_getElem?_getD, List.getD_eq_getElem?_getD,
    List.getElem?_reverse (by omega), len, show n + 16 - 1 - (n + 15 - j) = j by omega]

/-- R106: the first 16 words are the block's. -/
theorem scheduleWord_eq_be32 (B : Bytes 64) {t : Nat} (h : t < 16) : ∃ b0 b1 b2 b3,
    B.toList[4 * t]? = some b0 ∧ B.toList[4 * t + 1]? = some b1 ∧ B.toList[4 * t + 2]? = some b2 ∧
      B.toList[4 * t + 3]? = some b3 ∧ scheduleWord B t = be32 b0 b1 b2 b3 := by
  obtain ⟨b0, b1, b2, b3, h0, h1, h2, h3, hword⟩ := wordsBE_getElem? B.toList 16 t B.length_eq h
  refine ⟨b0, b1, b2, b3, h0, h1, h2, h3, ?_⟩
  rw [scheduleWord_eq_getD_extendSchedule (Nat.zero_le 48) (by omega), extendSchedule, List.reverse_reverse,
    List.getD_eq_getElem?_getD, hword, Option.getD_some]

/-- R107: every later word comes from the words 2, 7, 15 and 16 places before it. -/
theorem scheduleWord_expansion (B : Bytes 64) {t : Nat} (h16 : 16 ≤ t) (h64 : t < 64) :
    scheduleWord B t = smallSigma1 (scheduleWord B (t - 2)) + scheduleWord B (t - 7) +
      smallSigma0 (scheduleWord B (t - 15)) + scheduleWord B (t - 16) := by
  obtain ⟨n, rfl⟩ := Nat.exists_eq_add_of_le' h16
  have newest := extendSchedule_getD (B := B) (n := n + 1) (j := 0) (by omega) (by omega)
  rw [extendSchedule_succ, List.getD_cons_zero, nextScheduleWord] at newest
  have before {j : Nat} (hj : j < n + 16) := extendSchedule_getD (B := B) (n := n) (j := j) (by omega) hj
  rw [before (by omega), before (by omega), before (by omega), before (by omega)] at newest
  exact newest.symm

/-! ## The rounds one by one (R108 to R110) -/

theorem roundConstants_length : roundConstants.length = 64 := rfl

/-- The working variables after the first `t` rounds (R108). -/
def roundsUpTo (S : HashState) (B : Bytes 64) (t : Nat) : HashState :=
  ((roundConstants.zip (messageSchedule B)).take t).foldl compressRound S

theorem roundsUpTo_zero (S : HashState) (B : Bytes 64) : roundsUpTo S B 0 = S := rfl

theorem roundsUpTo_succ (S : HashState) (B : Bytes 64) {t : Nat} {k : Word} (hk : roundConstants[t]? = some k)
    (h : t < 64) : roundsUpTo S B (t + 1) = compressRound (roundsUpTo S B t) (k, scheduleWord B t) := by
  have pair : (roundConstants.zip (messageSchedule B))[t]? = some (k, scheduleWord B t) :=
    List.getElem?_zip_eq_some.mpr ⟨hk, messageSchedule_getElem? h⟩
  rw [roundsUpTo, List.take_add_one, pair, List.foldl_append]
  rfl

theorem roundsUpTo_all (S : HashState) (B : Bytes 64) : roundsUpTo S B 64 = rounds S B := by
  rw [roundsUpTo, rounds, List.take_of_length_le]
  rw [List.length_zip, roundConstants_length, messageSchedule_length, Nat.min_self]

theorem exec_compress (S : HashState) (B : Bytes 64) (s : State) :
    exec (.compress S B) s = .next { s with result := some (.hashState (feedForward S (rounds S B))) } := rfl

/-- Settles O15: `W` is `scheduleWord`, `v` is `roundsUpTo`. -/
theorem compressFollowsTheRounds : Obligations.CompressFollowsTheRounds := by
  intro S B s
  refine ⟨scheduleWord B, roundsUpTo S B, fun t ht => scheduleWord_eq_be32 B ht,
    fun t h16 h64 => scheduleWord_expansion B h16 h64, roundsUpTo_zero S B, fun t ht => ?_, ?_⟩
  · have hk := List.getElem?_eq_getElem (roundConstants_length.symm ▸ ht)
    exact ⟨_, hk, roundsUpTo_succ S B hk ht⟩
  · rw [roundsUpTo_all]
    exact exec_compress S B s

/-! ## The reference function (R118) -/

theorem padZeros_fills_block (len : Nat) : (len + 1 + padZeros len + 8) % 64 = 0 := by
  unfold padZeros; omega

theorem padZeros_least (len : Nat) {y : Nat} (h : y < padZeros len) : (len + 1 + y + 8) % 64 ≠ 0 := by
  unfold padZeros at h; omega

theorem beNat_be64Bytes {n : Nat} (h : n < 2 ^ 64) : beNat (be64Bytes n) = n :=
  beNat_bytesBE 8 n h

theorem sha256Ref_eq_foldl (M : List Byte) : ∃ blocks : List (Bytes 64),
    padMessage M = blocks.flatMap (·.toList) ∧ sha256Ref M = ser (blocks.foldl compress h0) := by
  obtain ⟨whole, -⟩ := padMessage_length M
  obtain ⟨blocks, cut, chain⟩ := compressBlocks_eq_foldl ((padMessage M).length / 64) (padMessage M) h0 (by omega)
  exact ⟨blocks, cut, congrArg ser chain⟩

theorem exec_sha256Ref {M : List Byte} (h : M.length < 2 ^ 61) (s : State) :
    exec (.sha256Ref M) s = .next { s with result := some (.digest (sha256Ref M)) } :=
  if_pos h

/-- Settles O19: the zeros are `padZeros`, and what is compressed are the blocks of the padded message. -/
theorem sha256RefPadsAndChainsBlocks : Obligations.Sha256RefPadsAndChainsBlocks := by
  intro M s h
  obtain ⟨blocks, cut, digest⟩ := sha256Ref_eq_foldl M
  refine ⟨padZeros M.length, padMessage M, blocks, blocks.foldl compress h0, sha256Ref M,
    padZeros_fills_block _, fun y hy => padZeros_least _ hy, rfl, beNat_be64Bytes (by omega), bytesBE_length 8 _,
    cut, rfl, ?_, exec_sha256Ref h s⟩
  rw [digest, ser_toList]

end Sys2Proof.Machine
end

section
/-! PROOFS. The statements of 41_comparator.md: `MEETS_TARGET` byte by byte (R130) and as a comparison of numbers
(R131). -/

namespace Sys2Proof.Machine

/-! ## The scan over two byte strings (R130) -/

/-- The scan of two strings from the highest index down, for strings of any length; `meetsTarget` is its case of 32
bytes. -/
def scanBytes (h t : List Byte) : Bool := scanDown (h.zip t).reverse

theorem meetsTarget_eq_scanBytes (h t : Bytes 32) : meetsTarget h t = scanBytes h.toList t.toList := rfl

theorem scanDown_cons_self (b : Byte) (r : List (Byte × Byte)) : scanDown ((b, b) :: r) = scanDown r :=
  if_neg (not_not_intro rfl)

theorem scanDown_cons_of_ne {a b : Byte} (h : a ≠ b) (r : List (Byte × Byte)) :
    scanDown ((a, b) :: r) = decide (a.toNat < b.toNat) :=
  if_pos h

theorem scanDown_singleton (a b : Byte) : scanDown [(a, b)] = decide (a.toNat ≤ b.toNat) := by
  by_cases h : a = b
  · subst h
    rw [scanDown_cons_self, decide_eq_true (le_refl a.toNat), scanDown]
  · rw [scanDown_cons_of_ne h, decide_eq_decide]
    exact ⟨le_of_lt, fun le => lt_of_le_of_ne le fun e => h (BitVec.eq_of_toNat_eq e)⟩

/-- What stands behind a difference is not looked at. -/
theorem scanDown_append (l m : List (Byte × Byte)) :
    scanDown (l ++ m) = if ∀ p ∈ l, p.1 = p.2 then scanDown m else scanDown l := by
  induction l with
  | nil => simp
  | cons p l ih =>
    obtain ⟨a, b⟩ := p
    by_cases h : a = b
    · subst h
      simp only [List.cons_append, scanDown_cons_self, ih, List.forall_mem_cons, true_and]
    · rw [List.cons_append, scanDown_cons_of_ne h, scanDown_cons_of_ne h,
        if_neg fun eq => h (eq (a, b) List.mem_cons_self)]

theorem forall_mem_zip_eq_iff {h t : List Byte} (len : h.length = t.length) :
    (∀ p ∈ h.zip t, p.1 = p.2) ↔ h = t := by
  rw [← List.forall₂_eq_eq_eq, List.forall₂_iff_zip]
  exact ⟨fun eq => ⟨len, fun m => eq _ m⟩, fun ⟨_, eq⟩ _ m => eq m⟩

/-- The high bytes decide, unless they are equal. -/
theorem scanBytes_append {hLow tLow hHigh tHigh : List Byte} (low : hLow.length = tLow.length)
    (high : hHigh.length = tHigh.length) : scanBytes (hLow ++ hHigh) (tLow ++ tHigh) =
      if hHigh = tHigh then scanBytes hLow tLow else scanBytes hHigh tHigh := by
  simp only [scanBytes, List.zip_append low, List.reverse_append, scanDown_append, List.mem_reverse,
    forall_mem_zip_eq_iff high]

/-- The scan reaches byte 0 only where all the bytes above it are equal. -/
theorem scanBytes_cons (a b : Byte) {h t : List Byte} (len : h.length = t.length) :
    scanBytes (a :: h) (b :: t) = if h = t then decide (a.toNat ≤ b.toNat) else scanBytes h t := by
  rw [← scanDown_singleton]
  exact scanBytes_append (hLow := [a]) (tLow := [b]) rfl len

/-! ## The scan is the little-endian order (R131) -/

theorem leNat_injective {h t : List Byte} (len : h.length = t.length) (eq : leNat h = leNat t) : h = t := by
  rw [← bytesLE_leNat h, len, eq, bytesLE_leNat]

theorem scanBytes_eq_decide_leNat_le {h t : List Byte} (len : h.length = t.length) :
    scanBytes h t = decide (leNat h ≤ leNat t) := by
  induction h generalizing t with
  | nil =>
    obtain rfl := List.eq_nil_of_length_eq_zero len.symm
    rfl
  | cons a h ih =>
    obtain _ | ⟨b, t⟩ := t
    · cases len
    have tails : h.length = t.length := Nat.succ.inj len
    rw [scanBytes_cons a b tails, leNat, leNat]
    split
    · next eq =>
      rw [eq, decide_eq_decide]
      omega
    · next ne =>
      have differ : leNat h ≠ leNat t := fun eq => ne (leNat_injective tails eq)
      have ha := a.isLt
      have hb := b.isLt
      rw [ih tails, decide_eq_decide]
      omega

/-- Settles O22: both strings have 32 bytes, so the scan of their bytes is the order of their numbers. -/
theorem meetsTargetIsTheLittleEndianOrder : Obligations.MeetsTargetIsTheLittleEndianOrder := by
  intro h t
  exact scanBytes_eq_decide_leNat_le (h.length_eq.trans t.length_eq.symm)

/-! ## The highest differing byte (R130) -/

theorem drop_eq_of_getElem?_eq {h t : List Byte} {k : Nat} (above : ∀ j, k < j → h[j]? = t[j]?) :
    h.drop (k + 1) = t.drop (k + 1) := by
  apply List.ext_getElem?
  intro j
  rw [List.getElem?_drop, List.getElem?_drop, above _ (by omega)]

theorem scanBytes_of_highest_difference {h t : List Byte} (len : h.length = t.length) {k : Nat} {a b : Byte}
    (ha : h[k]? = some a) (hb : t[k]? = some b) (ne : a ≠ b) (above : ∀ j, k < j → h[j]? = t[j]?) :
    scanBytes h t = decide (a.toNat < b.toNat) := by
  have lengths (n : Nat) : (h.take n).length = (t.take n).length := by rw [List.length_take, List.length_take, len]
  have high := drop_eq_of_getElem?_eq above
  calc scanBytes h t
      = scanBytes (h.take (k + 1) ++ h.drop (k + 1)) (t.take (k + 1) ++ t.drop (k + 1)) := by
        rw [List.take_append_drop, List.take_append_drop]
    _ = scanBytes (h.take (k + 1)) (t.take (k + 1)) := by
        rw [scanBytes_append (lengths _) (congrArg List.length high), if_pos high]
    _ = scanBytes (h.take k ++ [a]) (t.take k ++ [b]) := by
        rw [List.take_add_one, List.take_add_one, ha, hb, Option.toList_some, Option.toList_some]
    _ = scanBytes [a] [b] := by
        rw [scanBytes_append (hHigh := [a]) (tHigh := [b]) (lengths k) rfl,
          if_neg fun eq => ne (List.singleton_inj.mp eq)]
    _ = decide (a.toNat < b.toNat) := scanDown_cons_of_ne ne []

theorem exec_meetsTarget (h t : Bytes 32) (s : State) :
    exec (.meetsTarget h t) s = .next { s with result := some (.bool (meetsTarget h t)) } := rfl

/-- Settles O21: the scan passes the equal bytes above `k` and stops there. -/
theorem highestDifferingByteDecides : Obligations.HighestDifferingByteDecides := by
  intro h t s
  refine ⟨fun eq => ?_, fun k a b ha hb ne above => ?_⟩
  · rw [exec_meetsTarget, eq, meetsTargetIsTheLittleEndianOrder t t, decide_eq_true (le_refl _)]
  · rw [exec_meetsTarget, meetsTarget_eq_scanBytes,
      scanBytes_of_highest_difference (h.length_eq.trans t.length_eq.symm) ha hb ne above]

end Sys2Proof.Machine
end

section
/-! PROOFS. The statements of 42_search_controller.md: the choice of a step (R141), the digest of a trial (R143, R144,
R149), the steps of a search and of its ends (R145, R147, R151 to R153), what leaves RX and `MIDSTATE` alone (R142, R154),
and a whole search (R150, R155). -/

namespace Sys2Proof.Machine

/-! ## Choice and refusal of a step (R141, R72) -/

theorem select_trial {s : State} (h : s.ctrlState = .searching)
    (level : s.params.cancelHook = .absent ∨ s.cancel = false) : selectStep s = some .trial := by
  rw [select_searching h, if_neg]
  rintro ⟨present, high⟩
  obtain absent | low := level
  · rw [absent] at present; cases present
  · rw [low] at high; cases high

theorem select_cancelSearch {s : State} (h : s.ctrlState = .searching) (present : s.params.cancelHook = .present)
    (high : s.cancel = true) : selectStep s = some .cancelSearch := by
  rw [select_searching h, if_pos ⟨present, high⟩]

theorem hook_of_select_cancelSearch {s : State} (h : selectStep s = some .cancelSearch) :
    s.params.cancelHook = .present := by
  rw [select_searching (state_of_select h)] at h
  split at h
  · rename_i hook; exact hook.1
  · cases h

theorem selectStep_isSome {s : State} {complete : Bool} (h : frameComplete s = some complete) :
    ∃ d, selectStep s = some d := by
  cases hs : s.ctrlState with
  | idle => exact ⟨_, by rw [select_idle hs, h, Option.map_some]⟩
  | midstatePrepared => exact ⟨_, select_prepared hs⟩
  | searching => rw [select_searching hs]; split <;> exact ⟨_, rfl⟩
  | found => exact ⟨_, select_found hs⟩
  | exhausted => exact ⟨_, select_exhausted hs⟩

theorem guarded_of_other {c d : CtrlStep} {s : State} {body : Host.Outcome State Fault Refusal}
    (h : selectStep s = some d) (ne : d ≠ c) : guarded c s body = .refused (.guardNotHeld c) := by
  simp only [guarded, h, if_neg ne]

theorem emitHeldShare_not_refused (s : State) (r : Refusal) : emitHeldShare s ≠ .refused r := by
  unfold emitHeldShare
  split
  · nofun
  · nofun
  · split <;> nofun

/-- A controller step's meaning is a guarded body that refuses nothing itself. -/
theorem exec_instr_guarded (c : CtrlStep) (s : State) :
    ∃ body, exec c.instr s = guarded c s body ∧ ∀ r, body ≠ .refused r := by
  cases c with
  | rxByte => exact ⟨_, rfl, fun r => by split <;> nofun⟩
  | frameParse =>
    refine ⟨_, rfl, fun r => ?_⟩
    split
    · nofun
    · split <;> nofun
  | trial => exact ⟨_, rfl, fun r => by split <;> nofun⟩
  | emitShare => exact ⟨_, rfl, emitHeldShare_not_refused s⟩
  | startSearch | reportExhausted | cancelSearch => exact ⟨_, rfl, nofun⟩

theorem exec_instr_refused_iff {c d : CtrlStep} {s : State} (h : selectStep s = some d) :
    exec c.instr s = .refused (.guardNotHeld c) ↔ selectStep s ≠ some c := by
  obtain ⟨body, guard, notRefused⟩ := exec_instr_guarded c s
  rw [guard]
  constructor
  · intro refused sel
    rw [guarded_of_select sel] at refused
    exact notRefused _ refused
  · intro other
    exact guarded_of_other h fun eq => other (eq ▸ h)

/-- Settles O9: the row of R141's table for each controller state, and R72's refusal everywhere else. -/
theorem oneStepIsEnabledInEachState : Obligations.OneStepIsEnabledInEachState := by
  intro s complete h
  obtain ⟨d, sel⟩ := selectStep_isSome h
  exact ⟨fun idle => by rw [select_idle idle, h, Option.map_some], select_prepared, select_trial, select_cancelSearch,
    select_found, select_exhausted, fun c => exec_instr_refused_iff sel⟩

/-! ## The digest of a trial (R143, R144, R149) -/

theorem exec_prepMidstate (hdr : Bytes 80) (s : State) : exec (.prepMidstate hdr) s =
    .next { s with result := some (.midstate (compress h0 (blk1 hdr)) (blk2 hdr)) } := rfl

theorem exec_trialDigest (mid : HashState) (tail : Bytes 64) (n : Word) (s : State) :
    exec (.trialDigest mid tail n) s = .next { s with result := some (.digest (trialDigest mid tail n)) } := rfl

/-- Settles O23: the block is `BLK1` and the tail `BLK2` of the header (R75, R76). -/
theorem prepMidstateBuildsMidstateAndTail : Obligations.PrepMidstateBuildsMidstateAndTail := by
  intro hdr s
  exact ⟨blk1 hdr, blk2 hdr, blk1_toList hdr, blk2_toList hdr, exec_prepMidstate hdr s⟩

/-- Settles O24: the block is the tail with the nonce put in (R82). -/
theorem trialDigestCompressesTheTail : Obligations.TrialDigestCompressesTheTail := by
  intro mid tail n s
  exact ⟨setTailNonce tail n, _, _, setTailNonce_toList tail n, rfl, rfl, exec_trialDigest mid tail n s⟩

theorem headerWithNonce_toList (hdr : Bytes 80) (n : Word) : (headerWithNonce hdr n).toList = hdr.toList.take 76 ++
    [n.extractLsb' 0 8, n.extractLsb' 8 8, n.extractLsb' 16 8, n.extractLsb' 24 8] := rfl

/-- R149 for every tail made from the header: what nonce stands in it does not matter. -/
theorem trialDigest_eq_doubleHash {hdr : Bytes 80} {tail : Bytes 64} (n : Word)
    (front : slice tail.toList 0 12 = slice hdr.toList 64 12) (back : slice tail.toList 16 48 = blk2Pad) :
    trialDigest (compress h0 (blk1 hdr)) tail n = doubleHash (headerWithNonce hdr n) := by
  rw [trialDigest, setTailNonce_eq_blk2 hdr tail n front back, ← blk1_headerWithNonce hdr n, doubleHash, hashHeader]

/-- Settles O25: `PREP_MIDSTATE`'s tail is made from the header. -/
theorem trialDigestIsTheDoubleHash : Obligations.TrialDigestIsTheDoubleHash := by
  intro hdr n
  exact ⟨trialDigest_eq_doubleHash n (blk2_front hdr) (blk2_back hdr), headerWithNonce_toList hdr n⟩

/-! ## `START_SEARCH`, `REPORT_EXHAUSTED`, `CANCEL_SEARCH` (R145, R152, R153) -/

/-- Settles O26: in `MIDSTATE_PREPARED` the step is the enabled one, so its body runs. -/
theorem startSearchBeginsAtNonceZero : Obligations.StartSearchBeginsAtNonceZero := by
  intro s prepared
  exact guarded_of_select (select_prepared prepared)

/-- Settles O28: in `EXHAUSTED` the step is the enabled one, so its body runs. -/
theorem reportExhaustedRecordsTheOutcome : Obligations.ReportExhaustedRecordsTheOutcome := by
  intro s exhausted
  exact guarded_of_select (select_exhausted exhausted)

theorem selectStep_cancel_irrelevant {s : State} (level : Bool) (h : s.ctrlState ≠ .searching) :
    selectStep { s with cancel := level } = selectStep s := by
  cases hs : s.ctrlState with
  | searching => exact absurd hs h
  | idle | midstatePrepared | found | exhausted => simp only [selectStep, frameComplete, hs]

/-- Settles O29: `CANCEL` is looked at in `SEARCHING` only, and there with the hook only. -/
theorem cancelSearchEndsTheSearch : Obligations.CancelSearchEndsTheSearch := by
  intro s
  refine ⟨fun searching present high => ?_, fun absent sel => ?_, fun level => selectStep_cancel_irrelevant level⟩
  · have sel := select_cancelSearch searching present high
    exact ⟨guarded_of_select sel, guarded_of_other sel (by decide)⟩
  · have present := hook_of_select_cancelSearch sel
    rw [absent] at present
    cases present

/-! ## `TRIAL` (R147) -/

theorem endTrial_of_hit (d : Bytes 32) (s : State) :
    endTrial d true s = { s with shareNonce := some s.nonce, shareHash := some d, ctrlState := .found } := rfl

theorem endTrial_of_last (d : Bytes 32) {s : State} (last : s.nonce = lastNonce) :
    endTrial d false s = { s with ctrlState := .exhausted } :=
  if_pos last

theorem endTrial_of_not_last (d : Bytes 32) {s : State} (notLast : s.nonce ≠ lastNonce) :
    endTrial d false s = { s with nonce := s.nonce + 1 } :=
  if_neg notLast

theorem exec_trial {s : State} {tail : Bytes 64} {mid : HashState} {tgt : Bytes 32} (sel : selectStep s = some .trial)
    (hTail : s.tail = some tail) (hMid : s.midstate = some mid) (hTgt : s.jobTarget = some tgt) :
    exec .trial s = .next (endTrial (trialDigest mid (setTailNonce tail s.nonce) s.nonce)
      (meetsTarget (trialDigest mid (setTailNonce tail s.nonce) s.nonce) tgt)
      { s with tail := some (setTailNonce tail s.nonce) }) := by
  simp only [exec, execTrial, guarded_of_select sel, hTail, hMid, hTgt]

/-- Settles O27: the three ends of `endTrial`. -/
theorem trialFindsExhaustsOrAdvances : Obligations.TrialFindsExhaustsOrAdvances := by
  intro s tail T mid tgt d searching level hTail hMid hTgt hT hd
  obtain rfl : T = setTailNonce tail s.nonce := bytes_eq (hT.trans (setTailNonce_toList tail s.nonce).symm)
  have run := exec_trial (select_trial searching level) hTail hMid hTgt
  rw [← hd] at run
  refine ⟨fun hit => ?_, fun miss last => ?_, fun miss notLast => ?_⟩
  · rw [run, hit, endTrial_of_hit]
  · rw [run, miss, endTrial_of_last]
    exact last
  · rw [run, miss, endTrial_of_not_last]
    exact notLast

/-! ## `EMIT_SHARE` and `SHARE_FRAME` (R151, R224, R81) -/

theorem exec_emitShare_of_found {s : State} (h : s.ctrlState = .found) : exec .emitShare s = emitHeldShare s :=
  guarded_of_select (select_found h)

theorem emitHeldShare_of_no_answer {s : State} {n : Word} {h : Bytes 32} (hn : s.shareNonce = some n)
    (hh : s.shareHash = some h) (wait : s.txAnswers = []) : emitHeldShare s = .next s := by
  simp only [emitHeldShare, hn, hh, txWrite, wait]

theorem shareEncode_length (n : Word) (h : Bytes 32) : (shareEncode n h).toList.length = 95 :=
  (shareEncode n h).length_eq

theorem emitHeldShare_of_ok {s : State} {n : Word} {h : Bytes 32} {r : List TxAnswer} (hn : s.shareNonce = some n)
    (hh : s.shareHash = some h) (ok : s.txAnswers = .ok :: r) : emitHeldShare s = .next { s with
      txAnswers := r, txLog := s.txLog ++ [⟨(shareText n h).toList, 95⟩], shareNonce := none, shareHash := none,
      lastOutcome := .found, ctrlState := .idle } := by
  rw [emitHeldShare_of_answer hn hh ok, TxAnswer.received, shareEncode_length]
  rfl

theorem emitHeldShare_of_fail {s : State} {n : Word} {h : Bytes 32} {k : Nat} {r : List TxAnswer}
    (hn : s.shareNonce = some n) (hh : s.shareHash = some h) (fail : s.txAnswers = .fail k :: r) :
    emitHeldShare s = .next { s with
      txAnswers := r, txLog := s.txLog ++ [⟨(shareText n h).toList, min k 95⟩], shareNonce := none, shareHash := none,
      lastOutcome := .transportFailure, errField := none, errChannel := some .tx, rxCount := 0,
      ctrlState := .idle } := by
  rw [emitHeldShare_of_answer hn hh fail, TxAnswer.received, shareEncode_length]
  rfl

theorem txWire_of_txLog_append {s t : State} {S : List Byte} {k : Nat} (h : t.txLog = s.txLog ++ [⟨S, k⟩]) :
    t.txWire = s.txWire ++ S.take k := by
  rw [State.txWire, State.txWire, h, List.flatMap_append, List.flatMap_singleton]

/-- Settles O30: the transport's answer decides; without one the block waits (log 5). -/
theorem emitShareWritesTheShareOnce : Obligations.EmitShareWritesTheShareOnce := by
  intro s n h r found hn hh
  rw [exec_emitShare_of_found found]
  have length := (shareText n h).length_eq
  refine ⟨emitHeldShare_of_no_answer hn hh, fun ok => ⟨_, emitHeldShare_of_ok hn hh ok, rfl, ?_⟩,
    fun k fail => ⟨_, emitHeldShare_of_fail hn hh fail, rfl, ?_⟩⟩
  · rw [txWire_of_txLog_append rfl, List.take_of_length_le length.le]
  · rw [txWire_of_txLog_append rfl, List.take_eq_take_min (i := k), length]

theorem exec_shareFrame_of_held {s : State} {n : Word} {h : Bytes 32} (found : s.ctrlState = .found)
    (hn : s.shareNonce = some n) (hh : s.shareHash = some h) : exec (.shareFrame n h) s = emitHeldShare s := by
  simp only [exec, execShareFrame, guarded_of_select (select_found found), hn, hh, and_self, if_true]

theorem exec_shareFrame_of_other {s : State} {n m : Word} {h k : Bytes 32} (found : s.ctrlState = .found)
    (hm : s.shareNonce = some m) (hk : s.shareHash = some k) (ne : (m, k) ≠ (n, h)) :
    exec (.shareFrame n h) s = .refused .shareNotHeld := by
  have other : ¬(m = n ∧ k = h) := fun ⟨hmn, hkh⟩ => ne (by rw [hmn, hkh])
  simp only [exec, execShareFrame, guarded_of_select (select_found found), hm, hk, if_neg other]

/-- R72 for `EMIT_SHARE`, whose guard reads no byte of `RXBUF`: it is refused where no step can be chosen, too. -/
theorem guarded_emitShare_of_not_found {s : State} (body : Host.Outcome State Fault Refusal)
    (h : s.ctrlState ≠ .found) : guarded .emitShare s body = .refused (.guardNotHeld .emitShare) := by
  cases sel : selectStep s with
  | none => rw [guarded_of_unreadable sel, if_neg (by decide)]
  | some d => exact guarded_of_other sel fun eq => h (state_of_select (eq ▸ sel))

/-- Settles O44: the held share is written as `EMIT_SHARE` writes it; all else is refused (log 12). -/
theorem shareFrameIsTheHeldShare : Obligations.ShareFrameIsTheHeldShare := by
  intro s n h
  refine ⟨fun found hn hh => ?_, fun m k => exec_shareFrame_of_other, guarded_emitShare_of_not_found _⟩
  rw [exec_shareFrame_of_held found hn hh, exec_emitShare_of_found found]
  exact ⟨rfl, fun r ok => ⟨_, emitHeldShare_of_ok hn hh ok, rfl⟩⟩

/-! ## Nothing is read outside `IDLE` (R154) -/

theorem not_select_rxByte {s : State} (h : s.ctrlState ≠ .idle) : selectStep s ≠ some .rxByte :=
  fun sel => h (state_of_select sel)

/-- The RX stream has kept its answers and none is counted as consumed. -/
def NothingRead (s t : State) : Prop := t.rxConsumed = s.rxConsumed ∧ ∃ more, t.rx = s.rx ++ more

theorem nothingRead_of_same {s t : State} (count : t.rxConsumed = s.rxConsumed) (stream : t.rx = s.rx) :
    NothingRead s t :=
  ⟨count, [], by rw [stream, List.append_nil]⟩

theorem RxStep.nothingRead {s t : State} (e : RxStep s t) (h : selectStep s ≠ some .rxByte) : NothingRead s t := by
  cases e with
  | kept more count stream => exact ⟨count, more, stream⟩
  | failed sel => exact absurd sel h
  | took b sel => exact absurd sel h

/-- A reset loses a byte only where it abandons an `RX_BYTE` (R250, log 10). -/
theorem resetEvent_nothingRead (a : Abandoned) {s : State} (h : selectStep s ≠ some .rxByte) :
    NothingRead s (resetEvent a s) :=
  nothingRead_of_same rfl (if_neg fun ⟨_, sel⟩ => h sel)

/-- Settles O48: only `RX_BYTE`, running or abandoned, takes an answer of a read. -/
theorem noByteIsReadOutsideIdle : Obligations.NoByteIsReadOutsideIdle := by
  intro s notIdle
  have noRead : selectStep { s with schedule := s.schedule.tail } ≠ some .rxByte := not_select_rxByte notIdle
  refine ⟨not_select_rxByte notIdle, fun t h => ?_⟩
  change NothingRead { s with schedule := s.schedule.tail } t
  cases step_effect h with
  | ran e => exact e.rxStep.nothingRead noRead
  | reset a => exact resetEvent_nothingRead a noRead
  | drove level => exact nothingRead_of_same rfl rfl
  | offeredRx a => exact ⟨rfl, [a], rfl⟩
  | offeredTx a => exact nothingRead_of_same rfl rfl

/-! ## Where `MIDSTATE` comes from (R142) -/

/-- `MIDSTATE` and the job id stay, and `MIDSTATE_PREPARED` is not entered. -/
def KeepsMidstate (s t : State) : Prop :=
  t.midstate = s.midstate ∧ t.jobSeq = s.jobSeq ∧
    (t.ctrlState = .midstatePrepared → s.ctrlState = .midstatePrepared)

/-- A job is stored and counted in `IDLE`, and its midstate and tail are built. -/
def AcceptsJob (s t : State) : Prop :=
  s.ctrlState = .idle ∧ t.ctrlState = .midstatePrepared ∧ t.jobSeq = s.jobSeq + 1 ∧
    ∃ hdr, t.jobHeader = some hdr ∧ t.midstate = some (compress h0 (blk1 hdr)) ∧ t.tail = some (blk2 hdr)

theorem keepsMidstate_of_same {s t : State} (mid : t.midstate = s.midstate) (seq : t.jobSeq = s.jobSeq)
    (ctrl : t.ctrlState = s.ctrlState) : KeepsMidstate s t :=
  ⟨mid, seq, fun prepared => ctrl ▸ prepared⟩

theorem keepsMidstate_of_elsewhere {s t : State} (mid : t.midstate = s.midstate) (seq : t.jobSeq = s.jobSeq)
    (ctrl : t.ctrlState ≠ .midstatePrepared) : KeepsMidstate s t :=
  ⟨mid, seq, fun prepared => absurd prepared ctrl⟩

theorem endTrial_keepsMidstate (d : Bytes 32) (hit : Bool) (s : State) : KeepsMidstate s (endTrial d hit s) := by
  unfold endTrial
  split
  · exact keepsMidstate_of_elsewhere rfl rfl nofun
  · split
    · exact keepsMidstate_of_elsewhere rfl rfl nofun
    · exact keepsMidstate_of_same rfl rfl rfl

theorem ingestByte_keepsMidstate (b : Byte) (s : State) : KeepsMidstate s (ingestByte b s) := by
  obtain ⟨eq, -⟩ | ⟨eq, -⟩ := ingestByte_cases b s
  · rw [eq]; exact keepsMidstate_of_same rfl rfl rfl
  · rw [eq]; exact keepsMidstate_of_elsewhere rfl rfl nofun

theorem endEmission_keepsMidstate (ok : Bool) (s : State) : KeepsMidstate s (endEmission ok s) := by
  cases ok with
  | true => exact keepsMidstate_of_elsewhere rfl rfl nofun
  | false => exact keepsMidstate_of_elsewhere rfl rfl nofun

theorem beginIngestion_keepsMidstate (s : State) : KeepsMidstate s (beginIngestion s) :=
  keepsMidstate_of_same (beginIngestion_midstate s) (beginIngestion_jobSeq s) (beginIngestion_ctrlState s)

theorem KeepsMidstate.trans {s t u : State} (h : KeepsMidstate s t) (k : KeepsMidstate t u) : KeepsMidstate s u := by
  obtain ⟨hMid, hSeq, hCtrl⟩ := h
  obtain ⟨kMid, kSeq, kCtrl⟩ := k
  exact ⟨kMid.trans hMid, kSeq.trans hSeq, fun prepared => hCtrl (kCtrl prepared)⟩

theorem Effect.keepsMidstate_or_acceptsJob {s t : State} (e : Effect s t) : KeepsMidstate s t ∨ AcceptsJob s t := by
  cases e with
  | accepted F hdr tgt sel => exact .inr ⟨state_of_select sel, rfl, rfl, hdr, rfl, rfl, rfl⟩
  | answered | offered | waitsRx | waitsTx => exact .inl (keepsMidstate_of_same rfl rfl rfl)
  | malformed | started | reported | cancelled => exact .inl (keepsMidstate_of_elsewhere rfl rfl nofun)
  | readFails =>
    exact .inl ((beginIngestion_keepsMidstate s).trans (keepsMidstate_of_elsewhere rfl rfl nofun))
  | readsByte b r =>
    have ingest := ingestByte_keepsMidstate b { beginIngestion s with rx := r, rxConsumed := s.rxConsumed + 1 }
    exact .inl ((beginIngestion_keepsMidstate s).trans ingest)
  | tried => exact .inl (endTrial_keepsMidstate _ _ { s with tail := _ })
  | emitted => exact .inl (endEmission_keepsMidstate _ { s with txAnswers := _, txLog := _ })

/-- Settles O51: of all effects only the accepted job's writes `MIDSTATE`. -/
theorem midstateComesOnlyFromAnAcceptedJob : Obligations.MidstateComesOnlyFromAnAcceptedJob := by
  intro s t noReset h
  change KeepsMidstate { s with schedule := s.schedule.tail } t ∨ AcceptsJob { s with schedule := s.schedule.tail } t
  obtain e | ⟨level, rfl⟩ | ⟨a, rfl⟩ := step_effect_of_not_reset noReset h
  · exact e.keepsMidstate_or_acceptsJob
  · exact .inl (keepsMidstate_of_same rfl rfl rfl)
  · exact .inl (keepsMidstate_of_same rfl rfl rfl)

/-! ## A whole search (R150, R155) -/

/-- A search of this job that no turn and no `CANCEL` can disturb, at its nonce: every lower one has failed. -/
structure SearchAt (hdr : Bytes 80) (tgt : Bytes 32) (s : State) : Prop where
  searching : s.ctrlState = .searching
  undisturbed : s.schedule = []
  noHook : s.params.cancelHook = .absent
  target : s.jobTarget = some tgt
  data : SearchData s hdr
  failed_below : NoMatchBelow hdr tgt s.nonce.toNat

/-- How a search ends (R150): with the least nonce that meets the target, or with none. -/
def SearchEnded (hdr : Bytes 80) (tgt : Bytes 32) (t : State) : Prop :=
  (t.ctrlState = .found ∧ ∃ n : Word, t.shareNonce = some n ∧ t.shareHash = some (doubleHash (headerWithNonce hdr n)) ∧
    meetsTarget (doubleHash (headerWithNonce hdr n)) tgt = true ∧ NoMatchBelow hdr tgt n.toNat) ∨
  (t.ctrlState = .exhausted ∧ t.nonce = lastNonce ∧
    ∀ n : Word, meetsTarget (doubleHash (headerWithNonce hdr n)) tgt = false)

theorem noMatchBelow_succ {hdr : Bytes 80} {tgt : Bytes 32} {n : Word} (below : NoMatchBelow hdr tgt n.toNat)
    (miss : meetsTarget (doubleHash (headerWithNonce hdr n)) tgt = false) : NoMatchBelow hdr tgt (n.toNat + 1) := by
  intro m hm
  obtain lt | eq := Nat.lt_succ_iff_lt_or_eq.mp hm
  · exact below m lt
  · rw [BitVec.eq_of_toNat_eq eq]; exact miss

theorem toNat_succ_of_ne_lastNonce {n : Word} (h : n ≠ lastNonce) : (n + 1).toNat = n.toNat + 1 := by
  unfold lastNonce at h
  bv_omega

theorem step_of_select {s : State} {c : CtrlStep} (h : s.schedule = []) (sel : selectStep s = some c) :
    step s = exec c.instr s := by
  simp only [step_of_schedule_nil h, controllerTurn, fetchStep, sel]

/-- One trial ends the search or goes on to the next nonce (R147). -/
theorem SearchAt.trial {hdr : Bytes 80} {tgt : Bytes 32} {s : State} (h : SearchAt hdr tgt s) :
    ∃ t, step s = .next t ∧
      (SearchEnded hdr tgt t ∨ SearchAt hdr tgt t ∧ t.nonce.toNat = s.nonce.toNat + 1) := by
  obtain ⟨searching, undisturbed, noHook, target, ⟨mid, tail, hTail, front, back⟩, below⟩ := h
  have front' := (setTailNonce_front tail s.nonce).trans front
  have back' := (setTailNonce_back tail s.nonce).trans back
  have run : step s = exec .trial s := step_of_select undisturbed (select_trial searching (.inl noHook))
  obtain ⟨found, exhausted, advanced⟩ := trialFindsExhaustsOrAdvances s tail _ _ tgt _ searching (.inl noHook) hTail
    mid target (setTailNonce_toList tail s.nonce) (trialDigest_eq_doubleHash s.nonce front' back').symm
  cases hit : meetsTarget (doubleHash (headerWithNonce hdr s.nonce)) tgt with
  | true => exact ⟨_, run.trans (found hit), .inl (.inl ⟨rfl, s.nonce, rfl, rfl, hit, below⟩)⟩
  | false =>
    have failed := noMatchBelow_succ below hit
    by_cases last : s.nonce = lastNonce
    · rw [last] at failed
      exact ⟨_, run.trans (exhausted hit last), .inl (.inr ⟨rfl, last, fun n => failed n n.isLt⟩)⟩
    · have next := toNat_succ_of_ne_lastNonce last
      rw [← next] at failed
      exact ⟨_, run.trans (advanced hit last),
        .inr ⟨⟨searching, undisturbed, noHook, target, ⟨mid, _, rfl, front', back'⟩, failed⟩, next⟩⟩

/-- The nonces not yet tried bound the trials that are left (R155). -/
theorem SearchAt.ends {hdr : Bytes 80} {tgt : Bytes 32} {k : Nat} {s : State} (h : SearchAt hdr tgt s)
    (left : s.nonce.toNat + k = 2 ^ 32) :
    ∃ (j : Nat) (t : State), j ≤ k ∧ Host.Core.run core j s = .next t ∧ SearchEnded hdr tgt t := by
  induction k generalizing s with
  | zero => exact absurd left s.nonce.isLt.ne
  | succ k ih =>
    obtain ⟨t, run, ended | ⟨goesOn, next⟩⟩ := h.trial
    · exact ⟨1, t, by omega, run_succ_of_next run, ended⟩
    · obtain ⟨j, u, bound, rest, ended⟩ := ih goesOn (by omega)
      exact ⟨j + 1, u, by omega, (run_succ_of_next run).trans rest, ended⟩

theorem SearchEnded.ctrlState {hdr : Bytes 80} {tgt : Bytes 32} {t : State} (h : SearchEnded hdr tgt t) :
    t.ctrlState = .found ∨ t.ctrlState = .exhausted := by
  obtain ⟨found, -⟩ | ⟨exhausted, -⟩ := h
  · exact .inl found
  · exact .inr exhausted

/-- Settles O55: at most the nonces from the register on are left to try. -/
theorem searchEndsWithinAllNonces : Obligations.SearchEndsWithinAllNonces := by
  intro s inv searching undisturbed noHook
  have notIdle : s.ctrlState ≠ .idle := by rw [searching]; nofun
  obtain ⟨hdr, tgt, job, data⟩ := inv.search_data (inv.ctrl_mid notIdle)
  have search : SearchAt hdr tgt s :=
    ⟨searching, undisturbed, noHook, job.2, data, inv.none_below (.inl searching) hdr tgt job⟩
  obtain ⟨k, t, bound, run, ended⟩ := search.ends (Nat.add_sub_cancel' s.nonce.isLt.le)
  exact ⟨k, t, bound.trans (Nat.sub_le _ _), run, ended.ctrlState⟩

theorem ActiveJob.unique {s : State} {hdr hdr' : Bytes 80} {tgt tgt' : Bytes 32} (h : ActiveJob s hdr tgt)
    (h' : ActiveJob s hdr' tgt') : hdr = hdr' ∧ tgt = tgt' := by
  obtain ⟨hHdr, hTgt⟩ := h
  obtain ⟨hHdr', hTgt'⟩ := h'
  exact ⟨Option.some.inj (hHdr.symm.trans hHdr'), Option.some.inj (hTgt.symm.trans hTgt')⟩

theorem BlockInv.searchData {s : State} {hdr : Bytes 80} {tgt : Bytes 32} (inv : BlockInv s)
    (notIdle : s.ctrlState ≠ .idle) (job : ActiveJob s hdr tgt) : SearchData s hdr := by
  obtain ⟨hdr', tgt', job', data⟩ := inv.search_data (inv.ctrl_mid notIdle)
  obtain ⟨rfl, -⟩ := job.unique job'
  exact data

/-- Settles O56: `START_SEARCH` begins a search at nonce 0, below which there is none to fail. -/
theorem searchFindsTheLeastNonce : Obligations.SearchFindsTheLeastNonce := by
  intro s hdr tgt inv prepared undisturbed noHook job
  have start := (step_of_select undisturbed (select_prepared prepared)).trans (startSearchBeginsAtNonceZero s prepared)
  have data := inv.searchData (by rw [prepared]; nofun) job
  have search : SearchAt hdr tgt { s with nonce := 0, ctrlState := .searching } :=
    ⟨rfl, undisturbed, noHook, job.2, data, fun m below => absurd below (Nat.not_lt_zero _)⟩
  obtain ⟨k, t, bound, run, ended⟩ := search.ends (Nat.zero_add _)
  exact ⟨k + 1, t, Nat.succ_le_succ bound, (run_succ_of_next start).trans run, ended⟩

end Sys2Proof.Machine
end

section
/-! PROOFS. The statements of 43_job_parser.md: the hex decoder (R175), the place of the header marker (R176), what
`JOB_PARSE` accepts and which field it names (R178 to R182), the steps `RX_BYTE` and `FRAME_PARSE` (R172, R184, R185), and
the reception of a whole job frame (R140, R64). -/

namespace Sys2Proof.Machine

/-! ## `HEX_DECODE` (R175) -/

/-- Settles O35: both operations test the length of their operand first. -/
theorem operandsOutsideTheDomainAreRefused : Obligations.OperandsOutsideTheDomainAreRefused :=
  fun _ _ _ _ => ⟨fun h => if_neg h, fun h => if_neg (Nat.not_lt.mpr h)⟩

theorem exec_hexDecode_of_some {C : List Byte} {n : Nat} {out : Bytes n} (len : C.length = 2 * n)
    (h : hexDecode C n = some out) (s : State) :
    exec (.hexDecode C n) s = .next { s with result := some (.bytes out.toList) } := by
  simp only [exec, execHexDecode, if_pos len, h, answer]

theorem exec_hexDecode_of_none {C : List Byte} {n : Nat} (len : C.length = 2 * n) (h : hexDecode C n = none)
    (s : State) : exec (.hexDecode C n) s = .next { s with result := some .notHex } := by
  simp only [exec, execHexDecode, if_pos len, h, answer]

theorem hexDecode_isSome_iff {C : List Byte} {n : Nat} (len : C.length = 2 * n) :
    (∃ out, hexDecode C n = some out) ↔ C.all isHexDigit = true := by
  rw [← Option.ne_none_iff_exists', ne_eq, hexDecode_eq_none len, not_not]

/-- Settles O34: 2n characters fail to decode only over a character that is no digit. -/
theorem hexDecodeDecodesPairs : Obligations.HexDecodeDecodesPairs := by
  intro C n s len
  constructor
  · intro digits
    obtain ⟨out, decoded⟩ := (hexDecode_isSome_iff len).mpr digits
    refine ⟨out.toList, out.length_eq, exec_hexDecode_of_some len decoded s, fun k hk => ?_⟩
    exact hexDecodePairs_getElem? C _ (pairs_of_hexDecode decoded) k (by rwa [out.length_eq])
  · intro other
    exact exec_hexDecode_of_none len ((hexDecode_eq_none len).mpr (by rw [other]; nofun)) s

/-! ## The header marker (R176) -/

theorem slice_nil_ne_headerMarker (j : Nat) : slice [] j 11 ≠ headerMarker := by
  simp only [slice, List.drop_nil, List.take_nil, headerMarker]
  nofun

theorem slice_cons_succ (b : Byte) (r : List Byte) (j n : Nat) : slice (b :: r) (j + 1) n = slice r j n := rfl

theorem findHeaderMarker_cons_of_stands {b : Byte} {r : List Byte} (h : slice (b :: r) 0 11 = headerMarker) :
    findHeaderMarker (b :: r) = some 0 := if_pos h

theorem findHeaderMarker_cons_of_not_stands {b : Byte} {r : List Byte} (h : slice (b :: r) 0 11 ≠ headerMarker) :
    findHeaderMarker (b :: r) = (findHeaderMarker r).map (· + 1) := if_neg h

theorem findHeaderMarker_eq_some_iff {F : List Byte} {m : Nat} :
    findHeaderMarker F = some m ↔ slice F m 11 = headerMarker ∧ ∀ j, j < m → slice F j 11 ≠ headerMarker := by
  induction F generalizing m with
  | nil => exact ⟨nofun, fun h => absurd h.1 (slice_nil_ne_headerMarker m)⟩
  | cons b r ih =>
    by_cases here : slice (b :: r) 0 11 = headerMarker
    · rw [findHeaderMarker_cons_of_stands here]
      cases m with
      | zero => simp [here]
      | succ m => exact ⟨nofun, fun h => absurd here (h.2 0 m.succ_pos)⟩
    · rw [findHeaderMarker_cons_of_not_stands here, Option.map_eq_some_iff]
      cases m with
      | zero => simp [here]
      | succ m =>
        rw [Nat.forall_lt_succ_left]
        simp only [Nat.add_right_cancel_iff, exists_eq_right, ih, slice_cons_succ, ne_eq, here, not_false_eq_true,
          true_and]

theorem findHeaderMarker_eq_none_iff {F : List Byte} :
    findHeaderMarker F = none ↔ ∀ j, slice F j 11 ≠ headerMarker := by
  induction F with
  | nil => exact ⟨fun _ => slice_nil_ne_headerMarker, fun _ => rfl⟩
  | cons b r ih =>
    by_cases here : slice (b :: r) 0 11 = headerMarker
    · rw [findHeaderMarker_cons_of_stands here]
      exact ⟨nofun, fun h => absurd here (h 0)⟩
    · rw [findHeaderMarker_cons_of_not_stands here, Option.map_eq_none_iff, ih]
      exact (and_iff_right here).symm.trans
        (Nat.and_forall_add_one (p := fun j => slice (b :: r) j 11 ≠ headerMarker))

theorem locateHeader_strict_eq_some_iff {F : List Byte} {m : Nat} :
    locateHeader .strict F = some m ↔ m = 0 ∧ slice F 0 11 = headerMarker := by
  simp only [locateHeader, Option.ite_none_right_eq_some, Option.some.injEq]
  exact ⟨fun ⟨stands, zero⟩ => ⟨zero.symm, stands⟩, fun ⟨zero, stands⟩ => ⟨stands, zero.symm⟩⟩

/-- Settles O36: `SKIP` searches from the front, `STRICT` looks at index 0 only. -/
theorem headerMarkerIsTheFirstOne : Obligations.HeaderMarkerIsTheFirstOne :=
  fun _ _ => ⟨findHeaderMarker_eq_some_iff, findHeaderMarker_eq_none_iff, locateHeader_strict_eq_some_iff⟩

/-- The marker stands where it is located. -/
theorem slice_of_locateHeader {p : LeadPolicy} {F : List Byte} {m : Nat} (h : locateHeader p F = some m) :
    slice F m 11 = headerMarker := by
  cases p with
  | strict =>
    obtain ⟨rfl, stands⟩ := locateHeader_strict_eq_some_iff.mp h
    exact stands
  | skip => exact (findHeaderMarker_eq_some_iff.mp h).1

/-- The first marker is located, under `STRICT` where nothing stands before it. -/
theorem locateHeader_of_first {p : LeadPolicy} {F : List Byte} {m : Nat} (strict : p = .strict → m = 0)
    (stands : slice F m 11 = headerMarker) (first : ∀ j, j < m → slice F j 11 ≠ headerMarker) :
    locateHeader p F = some m := by
  cases p with
  | strict =>
    obtain rfl := strict rfl
    exact locateHeader_strict_eq_some_iff.mpr ⟨rfl, stands⟩
  | skip => exact findHeaderMarker_eq_some_iff.mpr ⟨stands, first⟩

/-! ## The two parts of a job frame (R178 to R180) -/

/-- The header part stands at `m`: marker, 160 hex digits of `hdr` and the closing quote (R178, R179). -/
structure HeaderPart (p : LeadPolicy) (F : List Byte) (m : Nat) (hdr : Bytes 80) : Prop where
  located : locateHeader p F = some m
  fits : m + 172 ≤ F.length
  digits : hexDecode (slice F (m + 11) 160) 80 = some hdr
  closed : slice F (m + 171) 1 = [quote]

/-- The target part stands behind a header part at `m`: marker, 64 hex digits of `tgt` and the frame's end (R180). -/
structure TargetPart (F : List Byte) (m : Nat) (tgt : Bytes 32) : Prop where
  fits : m + 249 ≤ F.length
  marker : slice F (m + 172) 11 = targetMarker
  digits : hexDecode (slice F (m + 183) 64) 32 = some tgt
  closed : slice F (m + 247) 1 = [quote]
  ended : slice F (m + 248) 1 = [rbrace]

theorem parseTarget_of_targetPart {F : List Byte} {m : Nat} {tgt : Bytes 32} (h : TargetPart F m tgt)
    (hdr : Bytes 80) : parseTarget F m hdr = .ok (hdr, tgt) := by
  obtain ⟨fits, marker, digits, closed, ended⟩ := h
  have fitsMarker : m + 183 ≤ F.length := by omega
  simp [parseTarget, fits, fitsMarker, marker, digits, closed, ended]

theorem jobParse_of_headerPart {p : LeadPolicy} {F : List Byte} {m : Nat} {hdr : Bytes 80}
    (h : HeaderPart p F m hdr) : jobParse p F = parseTarget F m hdr := by
  obtain ⟨located, fits, digits, closed⟩ := h
  simp [jobParse, located, fits, digits, closed]

/-- The target part is there, or its field is named (R180, R182). -/
theorem parseTarget_cases (F : List Byte) (m : Nat) (hdr : Bytes 80) :
    parseTarget F m hdr = .error .target ∨ ∃ tgt, TargetPart F m tgt := by
  unfold parseTarget
  split
  · exact .inl rfl
  · rename_i marker
    split
    · exact .inl rfl
    · rename_i fits
      split
      · exact .inl rfl
      · rename_i tgt digits
        split
        · exact .inl rfl
        · rename_i ends
          push Not at marker fits ends
          exact .inr ⟨tgt, fits, marker.2, digits, ends.1, ends.2⟩

/-- The header part is there, or its field is named (R180, R182). -/
theorem jobParse_cases (p : LeadPolicy) (F : List Byte) :
    jobParse p F = .error .header ∨ ∃ m hdr, HeaderPart p F m hdr := by
  unfold jobParse
  split
  · exact .inl rfl
  · rename_i m located
    split
    · exact .inl rfl
    · rename_i fits
      split
      · exact .inl rfl
      · rename_i hdr digits
        split
        · exact .inl rfl
        · rename_i closed
          exact .inr ⟨m, hdr, located, not_not.mp fits, digits, not_not.mp closed⟩

theorem parseTarget_ne_header (F : List Byte) (m : Nat) (hdr : Bytes 80) :
    parseTarget F m hdr ≠ .error .header := by
  obtain target | ⟨tgt, part⟩ := parseTarget_cases F m hdr
  · rw [target]; nofun
  · rw [parseTarget_of_targetPart part]; nofun

theorem jobParse_eq_header_iff {p : LeadPolicy} {F : List Byte} :
    jobParse p F = .error .header ↔ ¬∃ m hdr, HeaderPart p F m hdr := by
  constructor
  · rintro rejected ⟨m, hdr, part⟩
    rw [jobParse_of_headerPart part] at rejected
    exact parseTarget_ne_header F m hdr rejected
  · exact (jobParse_cases p F).resolve_right

theorem jobParse_eq_ok_iff_parts {p : LeadPolicy} {F : List Byte} {hdr : Bytes 80} {tgt : Bytes 32} :
    jobParse p F = .ok (hdr, tgt) ↔ ∃ m, HeaderPart p F m hdr ∧ TargetPart F m tgt := by
  constructor
  · intro accepted
    obtain header | ⟨m, hdr', part⟩ := jobParse_cases p F
    · rw [header] at accepted; cases accepted
    · rw [jobParse_of_headerPart part] at accepted
      obtain target | ⟨tgt', part'⟩ := parseTarget_cases F m hdr'
      · rw [target] at accepted; cases accepted
      · rw [parseTarget_of_targetPart part'] at accepted
        cases accepted
        exact ⟨m, part, part'⟩
  · rintro ⟨m, part, part'⟩
    rw [jobParse_of_headerPart part, parseTarget_of_targetPart part']

/-- The header part in terms of its characters: 160 characters decode where all are hex digits (R175). -/
theorem exists_headerPart_iff {p : LeadPolicy} {F : List Byte} :
    (∃ m hdr, HeaderPart p F m hdr) ↔ ∃ m, locateHeader p F = some m ∧ m + 172 ≤ F.length ∧
      (slice F (m + 11) 160).all isHexDigit = true ∧ slice F (m + 171) 1 = [quote] := by
  have len {m : Nat} (fits : m + 172 ≤ F.length) : (slice F (m + 11) 160).length = 2 * 80 := by
    rw [slice_length]; omega
  constructor
  · rintro ⟨m, hdr, located, fits, digits, closed⟩
    exact ⟨m, located, fits, (hexDecode_isSome_iff (len fits)).mp ⟨hdr, digits⟩, closed⟩
  · rintro ⟨m, located, fits, digits, closed⟩
    obtain ⟨hdr, decoded⟩ := (hexDecode_isSome_iff (len fits)).mpr digits
    exact ⟨m, hdr, located, fits, decoded, closed⟩

/-! ## The shape of R80 -/

/-- The bytes of R80's shape at `m`, put together from its pieces. -/
theorem slice_eq_jobFrameText {F : List Byte} {m : Nat} {hh : Bytes 160} {th : Bytes 64}
    (marker : slice F m 11 = headerMarker) (header : slice F (m + 11) 160 = hh.toList)
    (closed : slice F (m + 171) 1 = [quote]) (marker' : slice F (m + 172) 11 = targetMarker)
    (target : slice F (m + 183) 64 = th.toList) (closed' : slice F (m + 247) 1 = [quote])
    (ended : slice F (m + 248) 1 = [rbrace]) : slice F m 249 = jobFrameText hh th := by
  simp only [slice_split F m 248 1, slice_split F m 247 1, slice_split F m 183 64, slice_split F m 172 11,
    slice_split F m 171 1, slice_split F m 11 160, marker, header, closed, marker', target, closed', ended,
    jobFrameText, List.append_assoc, List.cons_append, List.nil_append]

/-- A string is what stands before, in and behind a slice of it. -/
theorem take_append_slice_append_drop (F : List Byte) (m n : Nat) :
    F.take m ++ slice F m n ++ F.drop (m + n) = F := by
  rw [slice, List.append_assoc, ← List.drop_drop, List.take_append_drop, List.take_append_drop]

theorem slice_append_length_add (A B : List Byte) (k n : Nat) : slice (A ++ B) (A.length + k) n = slice B k n := by
  rw [slice_append_right A B _ n (Nat.le_add_right _ _), Nat.add_sub_cancel_left]

/-- `JOB_PARSE` accepts just R80's shape behind the skipped bytes, whatever follows it (R180, R80, log 19). -/
theorem jobParse_eq_ok_iff {p : LeadPolicy} {F : List Byte} {hdr : Bytes 80} {tgt : Bytes 32} :
    jobParse p F = .ok (hdr, tgt) ↔ ∃ (lead rest : List Byte) (hh : Bytes 160) (th : Bytes 64),
      F = lead ++ jobFrameText hh th ++ rest ∧ locateHeader p F = some lead.length ∧
      hexDecodePairs hh.toList = some hdr.toList ∧ hexDecodePairs th.toList = some tgt.toList := by
  rw [jobParse_eq_ok_iff_parts]
  constructor
  · rintro ⟨m, ⟨located, -, digits, closed⟩, ⟨fits, marker', digits', closed', ended⟩⟩
    have header : (slice F (m + 11) 160).length = 160 := by rw [slice_length]; omega
    have target : (slice F (m + 183) 64).length = 64 := by rw [slice_length]; omega
    have shape := slice_eq_jobFrameText (hh := ⟨_, header⟩) (th := ⟨_, target⟩) (slice_of_locateHeader located) rfl
      closed marker' rfl closed' ended
    refine ⟨F.take m, F.drop (m + 249), ⟨_, header⟩, ⟨_, target⟩, ?_, ?_, pairs_of_hexDecode digits,
      pairs_of_hexDecode digits'⟩
    · rw [← shape, take_append_slice_append_drop]
    · rw [located, List.length_take_of_le (by omega)]
  · rintro ⟨lead, rest, hh, th, rfl, located, digits, digits'⟩
    obtain ⟨-, header, closed, marker', target, closed', ended⟩ := jobFrameText_slices hh th rest
    have fits : lead.length + 249 ≤ (lead ++ (jobFrameText hh th ++ rest)).length := by
      simp only [List.length_append, jobFrameText_length]; omega
    rw [List.append_assoc] at located ⊢
    refine ⟨lead.length, ⟨located, by omega, ?_, ?_⟩, ⟨fits, ?_, ?_, ?_, ?_⟩⟩
    · rw [slice_append_length_add, header, hexDecode_of_pairs digits]
    · rw [slice_append_length_add, closed]
    · rw [slice_append_length_add, marker']
    · rw [slice_append_length_add, target, hexDecode_of_pairs digits']
    · rw [slice_append_length_add, closed']
    · rw [slice_append_length_add, ended]

/-- R80's shape behind leading bytes without a marker, under `STRICT` behind none, is accepted (R176, R180). -/
theorem jobParse_of_shape {p : LeadPolicy} {lead rest : List Byte} {hh : Bytes 160} {th : Bytes 64} {hdr : Bytes 80}
    {tgt : Bytes 32} (strict : p = .strict → lead = [])
    (noMarker : ∀ j, j < lead.length → slice (lead ++ jobFrameText hh th ++ rest) j 11 ≠ headerMarker)
    (digits : hexDecodePairs hh.toList = some hdr.toList) (digits' : hexDecodePairs th.toList = some tgt.toList) :
    jobParse p (lead ++ jobFrameText hh th ++ rest) = .ok (hdr, tgt) := by
  have stands : slice (lead ++ jobFrameText hh th ++ rest) lead.length 11 = headerMarker := by
    rw [List.append_assoc, ← (jobFrameText_slices hh th rest).1]
    exact slice_append_length_add lead _ 0 11
  have located := locateHeader_of_first (fun h => by rw [strict h, List.length_nil]) stands noMarker
  exact jobParse_eq_ok_iff.mpr ⟨lead, rest, hh, th, rfl, located, digits, digits'⟩

theorem exec_jobParse_of_ok {s : State} {F : List Byte} {hdr : Bytes 80} {tgt : Bytes 32}
    (h : jobParse s.params.leadPolicy F = .ok (hdr, tgt)) :
    exec (.jobParse F) s = .next { s with result := some (.job hdr tgt) } := by
  simp only [exec, execJobParse, h, answer]

theorem exec_jobParse_of_error {s : State} {F : List Byte} {f : JobField}
    (h : jobParse s.params.leadPolicy F = .error f) :
    exec (.jobParse F) s = .next { s with result := some (.malformedJob f) } := by
  simp only [exec, execJobParse, h, answer]

/-- Settles O37: the parser's answer goes to the port. -/
theorem jobParseAcceptsTheFrameShape : Obligations.JobParseAcceptsTheFrameShape :=
  fun _ _ _ _ _ _ _ strict noMarker digits digits' =>
    exec_jobParse_of_ok (jobParse_of_shape strict noMarker digits digits')

/-- The bytes of a job frame before its `}` (R80). -/
def jobFrameBody (hh : Bytes 160) (th : Bytes 64) : List Byte :=
  headerMarker ++ hh.toList ++ [quote] ++ targetMarker ++ th.toList ++ [quote]

theorem jobFrameText_eq_body (hh : Bytes 160) (th : Bytes 64) :
    jobFrameText hh th = jobFrameBody hh th ++ [rbrace] := by
  simp [jobFrameText, jobFrameBody]

theorem rbrace_mem_jobFrameText (hh : Bytes 160) (th : Bytes 64) : rbrace ∈ jobFrameText hh th := by
  rw [jobFrameText_eq_body]
  exact List.mem_concat_self

/-- Nothing follows a part that holds the string's only `b`, its last byte. -/
theorem eq_nil_of_concat_eq_append {G A rest : List Byte} {b : Byte} (eq : G ++ [b] = A ++ rest) (only : b ∉ G)
    (mem : b ∈ A) : rest = [] := by
  obtain rfl | ⟨front, last, rfl⟩ := rest.eq_nil_or_concat
  · rfl
  · rw [List.concat_eq_append, ← List.append_assoc] at eq
    exact absurd (List.append_inj_left' eq rfl ▸ List.mem_append_left front mem) only

/-- Settles O38: an accepted string has R80's shape by `jobParse_eq_ok_iff`. -/
theorem jobParseRejectsEveryOtherShape : Obligations.JobParseRejectsEveryOtherShape := by
  intro s F
  have named := (jobParse_eq_header_iff (p := s.params.leadPolicy) (F := F)).trans exists_headerPart_iff.not
  cases parsed : jobParse s.params.leadPolicy F with
  | error f =>
    refine ⟨_, exec_jobParse_of_error parsed, ?_, nofun, ?_⟩
    · cases f with
      | header => exact .inr (.inl rfl)
      | target => exact .inr (.inr rfl)
    · rw [parsed, Except.error.injEq] at named
      exact (iff_of_eq (OpResult.malformedJob.injEq f .header)).trans named
  | ok job =>
    obtain ⟨hdr, tgt⟩ := job
    refine ⟨_, exec_jobParse_of_ok parsed, .inl ⟨hdr, tgt, rfl⟩, ?_, ?_⟩
    · rintro _ _ ⟨⟩
      obtain ⟨lead, rest, hh, th, shape, located, digits, digits'⟩ := jobParse_eq_ok_iff.mp parsed
      refine ⟨?_, lead, rest, hh, th, shape, located, ?_, ?_, digits, digits'⟩
      · rw [shape, List.length_append, List.length_append, jobFrameText_length]
        omega
      · intro strict
        rw [strict] at located
        exact List.length_eq_zero_iff.mp (locateHeader_strict_eq_some_iff.mp located).1
      · intro G eq only
        exact eq_nil_of_concat_eq_append (eq.symm.trans shape) only
          (List.mem_append_right lead (rbrace_mem_jobFrameText hh th))
    · rw [parsed] at named
      exact ⟨nofun, fun none => absurd (named.mpr none) nofun⟩

/-! ## The received frame (R171) -/

theorem receivedFrame_eq_some_iff {s : State} {F : List Byte} : receivedFrame s = some F ↔
    F.length = s.rxCount.toNat ∧ ∀ i, i < s.rxCount.toNat → Memory.read s.rxBuf i = F[i]? := by
  simp only [receivedFrame, Memory.readFrom_eq_some, Nat.zero_add]

/-- A received frame is complete just where its last byte is `}` (R43, R171). -/
theorem frameComplete_of_receivedFrame {s : State} {F : List Byte} (h : receivedFrame s = some F) :
    frameComplete s = some (F.getLast? == some rbrace) := by
  obtain ⟨len, bytes⟩ := receivedFrame_eq_some_iff.mp h
  unfold frameComplete
  split
  · rename_i zero
    rw [zero] at len
    obtain rfl := List.length_eq_zero_iff.mp len
    rfl
  · rename_i some
    have pos : 0 < s.rxCount.toNat := Nat.pos_of_ne_zero fun zero => some (BitVec.eq_of_toNat_eq zero)
    rw [bytes _ (Nat.sub_lt pos Nat.one_pos), ← len, ← List.getLast?_eq_getElem?]
    obtain ⟨b, last⟩ : ∃ b, F.getLast? = Option.some b :=
      Option.isSome_iff_exists.mp (List.getLast?_isSome.mpr (List.ne_nil_of_length_pos (len ▸ pos)))
    rw [last]
    rfl

/-! ## `FRAME_PARSE` (R184, R185) -/

theorem select_frameParse {s : State} (idle : s.ctrlState = .idle) (complete : frameComplete s = some true) :
    selectStep s = some .frameParse := by
  rw [select_idle idle, complete]; rfl

theorem select_rxByte {s : State} (idle : s.ctrlState = .idle) (incomplete : frameComplete s = some false) :
    selectStep s = some .rxByte := by
  rw [select_idle idle, incomplete]; rfl

theorem exec_frameParse_of_error {s : State} {F : List Byte} {f : JobField} (sel : selectStep s = some .frameParse)
    (received : receivedFrame s = some F) (rejected : jobParse s.params.leadPolicy F = .error f) :
    exec .frameParse s = .next (raiseError (.malformedJob f) s) := by
  simp only [exec, execFrameParse, guarded_of_select sel, received, rejected]

theorem exec_frameParse_of_ok {s : State} {F : List Byte} {hdr : Bytes 80} {tgt : Bytes 32}
    (sel : selectStep s = some .frameParse) (received : receivedFrame s = some F)
    (accepted : jobParse s.params.leadPolicy F = .ok (hdr, tgt)) :
    exec .frameParse s = .next (acceptJob hdr tgt s) := by
  simp only [exec, execFrameParse, guarded_of_select sel, received, accepted]

/-- Settles O32: the enabled step follows the parser's answer. -/
theorem frameParseRejectsOrAcceptsTheJob : Obligations.FrameParseRejectsOrAcceptsTheJob := by
  intro s F idle complete received
  have sel := select_frameParse idle complete
  exact ⟨fun _ => exec_frameParse_of_error sel received, fun _ _ => exec_frameParse_of_ok sel received⟩

/-- R80's shape, behind whatever leading bytes, is a complete frame. -/
theorem frameComplete_of_shape {s : State} {lead : List Byte} {hh : Bytes 160} {th : Bytes 64}
    (h : receivedFrame s = some (lead ++ jobFrameText hh th)) : frameComplete s = some true := by
  rw [frameComplete_of_receivedFrame h, jobFrameText_eq_body, ← List.append_assoc, List.getLast?_concat]
  rfl

/-- Settles O33: R80's shape is a complete frame, and the parser accepts it. -/
theorem wellFormedFrameBecomesTheJob : Obligations.WellFormedFrameBecomesTheJob := by
  intro s lead hh th hdr tgt idle received strict noMarker digits digits'
  have accepted : jobParse s.params.leadPolicy (lead ++ jobFrameText hh th) = .ok (hdr, tgt) := by
    rw [← List.append_nil (lead ++ _)] at noMarker ⊢
    exact jobParse_of_shape strict noMarker digits digits'
  exact (frameParseRejectsOrAcceptsTheJob s _ idle (frameComplete_of_shape received) received).2 hdr tgt accepted

/-! ## `RX_BYTE` (R172, R222, R224) -/

theorem beginIngestion_eq (s : State) : beginIngestion s = { s with
    jobValid := if s.rxCount = 0 then false else s.jobValid
    midValid := if s.rxCount = 0 then false else s.midValid } := by
  unfold beginIngestion
  split <;> rfl

theorem execRxByte_of_no_answer {s : State} (sel : selectStep s = some .rxByte) (h : s.rx = []) :
    execRxByte s = .next s := by
  simp only [execRxByte, guarded_of_select sel, beginIngestion_eq, rxRead, h]

theorem ingestByte_rxBuf (b : Byte) (s : State) :
    (ingestByte b s).rxBuf = Memory.write s.rxBuf s.rxCount.toNat b := by
  obtain ⟨eq, -⟩ | ⟨eq, -⟩ := ingestByte_cases b s
  · rw [eq, storeRx_rxBuf]
  · rw [eq, raiseError_rxBuf, storeRx_rxBuf]

theorem ingestByte_of_room {b : Byte} {s : State} (h : ¬(b ≠ rbrace ∧ (s.rxCount + 1).toNat = s.params.rxBufLen)) :
    ingestByte b s = storeRx b s := if_neg h

theorem ingestByte_of_full {b : Byte} {s : State} (ne : b ≠ rbrace)
    (full : (s.rxCount + 1).toNat = s.params.rxBufLen) :
    ingestByte b s = raiseError .bufferOverflow (storeRx b s) := if_pos ⟨ne, full⟩

/-- Settles O31: one case per answer of the transport, and for a byte one each for room and overflow. -/
theorem rxByteStoresOneByte : Obligations.RxByteStoresOneByte := by
  intro s r idle incomplete
  have sel := select_rxByte idle incomplete
  refine ⟨execRxByte_of_no_answer sel, fun fails => ?_, fun b answered => ?_⟩
  · rw [exec, execRxByte_of_fail sel fails, beginIngestion_eq, idle]
    rfl
  · refine ⟨_, execRxByte_of_byte sel answered, fun a => ?_, fun room => ?_, fun ne full => ?_⟩
    · rw [ingestByte_rxBuf, Memory.read_write, beginIngestion_eq]
    · rw [beginIngestion_eq, ingestByte_of_room]
      · rfl
      · exact room
    · rw [beginIngestion_eq, ingestByte_of_full ne, idle]
      · rfl
      · exact full

/-! ## The reception of a whole frame (R140, R64) -/

/-- The block receives a frame: since `s` it has read `G`, and `left` waits in the transport. -/
structure Receiving (s : State) (G : List Byte) (left : List RxAnswer) (t : State) : Prop where
  idle : t.ctrlState = .idle
  undisturbed : t.schedule = []
  received : receivedFrame t = some G
  waiting : t.rx = left
  consumed : t.rxConsumed = s.rxConsumed + G.length
  params : t.params = s.params
  jobSeq : t.jobSeq = s.jobSeq
  txLog : t.txLog = s.txLog

theorem Receiving.begins {s : State} (quiescent : Quiescent s) (undisturbed : s.schedule = []) :
    Receiving s [] s.rx s := by
  obtain ⟨idle, empty⟩ := quiescent
  have received : receivedFrame s = some [] := by simp [receivedFrame_eq_some_iff, empty]
  exact ⟨idle, undisturbed, received, rfl, rfl, rfl, rfl, rfl⟩

theorem receivedFrame_of_stored {s t : State} {G : List Byte} {b : Byte} (h : receivedFrame s = some G)
    (stored : ∀ a, Memory.read t.rxBuf a = if a = s.rxCount.toNat then some b else Memory.read s.rxBuf a)
    (count : t.rxCount.toNat = s.rxCount.toNat + 1) : receivedFrame t = some (G ++ [b]) := by
  obtain ⟨len, bytes⟩ := receivedFrame_eq_some_iff.mp h
  refine receivedFrame_eq_some_iff.mpr ⟨by simp [len, count], fun i hi => ?_⟩
  rw [stored]
  split
  · rename_i last
    rw [last, ← len, List.getElem?_concat_length]
  · rename_i earlier
    rw [bytes i (by omega), List.getElem?_append_left (by omega)]

/-- One `RX_BYTE` takes the next byte of a frame that is not complete and has room for it. -/
theorem Receiving.next {s t : State} {G : List Byte} {b : Byte} {left : List RxAnswer}
    (h : Receiving s G (.byte b :: left) t) (wf : s.params.wf) (incomplete : rbrace ∉ G)
    (fits : G.length + 1 ≤ s.params.rxBufLen) (room : b = rbrace ∨ G.length + 1 < s.params.rxBufLen) :
    ∃ u, step t = .next u ∧ Receiving s (G ++ [b]) left u := by
  obtain ⟨idle, undisturbed, received, waiting, consumed, params, jobSeq, txLog⟩ := h
  have len := (receivedFrame_eq_some_iff.mp received).1
  have notComplete : frameComplete t = some false := by
    rw [frameComplete_of_receivedFrame received, beq_false_of_ne]
    exact fun last => incomplete (List.mem_of_getLast? last)
  have count : (t.rxCount + 1).toNat = t.rxCount.toNat + 1 := by
    have := wf.2
    bv_omega
  have noOverflow : ¬(b ≠ rbrace ∧ (t.rxCount + 1).toNat = t.params.rxBufLen) := by
    rw [count, params, ← len]
    rintro ⟨ne, full⟩
    exact room.elim ne fun lt => absurd full lt.ne
  obtain ⟨u, run, stored, kept, -⟩ := (rxByteStoresOneByte t left idle notComplete).2.2 b waiting
  have kept := kept noOverflow
  refine ⟨u, (step_of_select undisturbed (select_rxByte idle notComplete)).trans run, ?_⟩
  have received' : receivedFrame u = some (G ++ [b]) :=
    receivedFrame_of_stored received stored ((congrArg (·.rxCount.toNat) kept).trans count)
  have consumed' : t.rxConsumed + 1 = s.rxConsumed + (G ++ [b]).length := by
    rw [consumed, List.length_append, List.length_singleton, Nat.add_assoc]
  rw [kept] at received' ⊢
  exact ⟨idle, undisturbed, received', rfl, consumed', params, jobSeq, txLog⟩

/-- One step per byte reads a frame's bytes up to its `}`. -/
theorem Receiving.run {s t : State} {G B : List Byte} {left : List RxAnswer}
    (h : Receiving s G (B.map .byte ++ left) t) (wf : s.params.wf) (incomplete : rbrace ∉ G ++ B)
    (room : (G ++ B).length < s.params.rxBufLen) :
    ∃ u, Host.Core.run core B.length t = .next u ∧ Receiving s (G ++ B) left u := by
  induction B generalizing G t with
  | nil => exact ⟨t, rfl, (List.append_nil G).symm ▸ h⟩
  | cons b B ih =>
    rw [List.append_cons] at incomplete room
    have room' : G.length + 1 < s.params.rxBufLen := by
      simp only [List.length_append, List.length_cons] at room
      omega
    have incomplete' : rbrace ∉ G := fun mem => incomplete (by simp [mem])
    obtain ⟨u, first, h'⟩ := h.next wf incomplete' room'.le (.inr room')
    obtain ⟨v, rest, h''⟩ := ih h' incomplete room
    exact ⟨v, (run_succ_of_next first).trans rest, List.append_cons G b B ▸ h''⟩

theorem rbrace_not_mem_of_digits {C out : List Byte} (h : hexDecodePairs C = some out) : rbrace ∉ C := by
  intro mem
  have digits := ((hexDecodePairs_isSome C).mp (Option.isSome_of_eq_some h)).1
  exact absurd (List.all_eq_true.mp digits _ mem) (by decide)

theorem jobFrameBody_length (hh : Bytes 160) (th : Bytes 64) : (jobFrameBody hh th).length = 248 := by
  have := jobFrameText_length hh th
  rw [jobFrameText_eq_body, List.length_append, List.length_singleton] at this
  omega

theorem rbrace_not_mem_jobFrameBody {hh : Bytes 160} {th : Bytes 64} (hdr : rbrace ∉ hh.toList)
    (tgt : rbrace ∉ th.toList) : rbrace ∉ jobFrameBody hh th := by
  simp only [jobFrameBody, List.mem_append, hdr, tgt, or_false]
  decide

/-- Settles O54: 248 steps read the frame up to its `}`, one reads that, and `FRAME_PARSE` accepts. -/
theorem offeredJobFrameIsAccepted : Obligations.OfferedJobFrameIsAccepted := by
  intro s hh th hdr tgt r inv quiescent undisturbed room offered digits digits'
  have len := jobFrameBody_length hh th
  have noBrace := rbrace_not_mem_jobFrameBody (rbrace_not_mem_of_digits digits) (rbrace_not_mem_of_digits digits')
  have begins := Receiving.begins quiescent undisturbed
  rw [offered, jobFrameText_eq_body, List.map_append, List.append_assoc] at begins
  obtain ⟨t, body, h⟩ := begins.run inv.params noBrace (by rw [List.nil_append]; omega)
  obtain ⟨u, brace, h⟩ := h.next inv.params noBrace (by rw [List.nil_append]; omega) (.inl rfl)
  rw [List.nil_append, ← jobFrameText_eq_body] at h
  have complete := frameComplete_of_shape (lead := []) h.received
  have accepts := wellFormedFrameBecomesTheJob u [] hh th hdr tgt h.idle h.received (fun _ => rfl) nofun digits digits'
  have parse := (step_of_select h.undisturbed (select_frameParse h.idle complete)).trans accepts
  rw [len] at body
  refine ⟨_, (run_add_of_next 248 2 s t body).trans ((run_succ_of_next brace).trans (run_succ_of_next parse)), rfl, rfl,
    rfl, ?_, rfl, rfl, rfl, rfl, rfl, h.waiting, ?_, h.txLog⟩
  · exact congrArg (· + 1) h.jobSeq
  · exact h.consumed.trans (by rw [jobFrameText_length])

end Sys2Proof.Machine
end

section
/-! PROOFS. The statements of 44_share_encoder.md: the layout of `SHARE_ENCODE`'s text (R81, R200 to R203) and the texts
`SHARE_DECODE_REF` accepts (R205, R206). -/

namespace Sys2Proof.Machine

/-! ## `SHARE_ENCODE` (R200, R202, R203) -/

theorem slice_getElem? {F : List Byte} {lo n i : Nat} (h : i < n) : (slice F lo n)[i]? = F[lo + i]? := by
  rw [slice, List.getElem?_take_of_lt h, List.getElem?_drop]

/-- `NONCE_HEX` digit by digit (R202). -/
theorem nonceHex_eq_map (n : Word) :
    nonceHex n = (List.range 8).map fun j => hexchar (n.toNat / 16 ^ (7 - j) % 16) := by
  simp [nonceHex, List.range_succ, BitVec.extractLsb'_toNat, Nat.shiftRight_eq_div_pow]

theorem nonceHex_getElem? {n : Word} {j : Nat} (h : j < 8) :
    (nonceHex n)[j]? = some (hexchar (n.toNat / 16 ^ (7 - j) % 16)) := by
  rw [nonceHex_eq_map, List.getElem?_map, List.getElem?_range h, Option.map_some]

/-- Settles O39: the five pieces of R81 with the digits inside the second and the fourth. -/
theorem shareTextHasTheLayout : Obligations.ShareTextHasTheLayout := by
  intro n h s
  obtain ⟨opening, nonce, middle, hash, ending⟩ := List.append_nil (shareText n h).toList ▸ shareText_slices n h []
  refine ⟨shareText n h, rfl, opening, fun j hj => ?_, middle, fun k b hb => ?_, ending⟩
  · rw [← slice_getElem? hj, nonce, nonceHex_getElem? hj]
  · have hk : k < 32 := h.length_eq ▸ (List.getElem?_eq_some_iff.mp hb).1
    have digits := hashHex_getElem? h.toList k b hb
    rwa [← hash, slice_getElem? (by omega), slice_getElem? (by omega), ← Nat.add_assoc, Nat.add_right_comm] at digits

/-! ## The number a string of hex digits writes (R205) -/

theorem hexNumber_cons_eq_some_iff {c : Byte} {r : List Byte} {m : Nat} :
    hexNumber (c :: r) = some m ↔ ∃ v k, hexval c = some v ∧ hexNumber r = some k ∧ v * 16 ^ r.length + k = m := by
  rw [hexNumber]
  cases hexval c with
  | none => simp
  | some v => cases hexNumber r <;> simp

theorem hexNumber_lt {C : List Byte} {m : Nat} (h : hexNumber C = some m) : m < 16 ^ C.length := by
  induction C generalizing m with
  | nil => cases h; exact Nat.one_pos
  | cons c r ih =>
    obtain ⟨v, k, value, rest, rfl⟩ := hexNumber_cons_eq_some_iff.mp h
    have hk := ih rest
    have hv := Nat.mul_le_mul_right (16 ^ r.length) (Nat.le_of_lt_succ (hexval_lt c v value))
    rw [List.length_cons, Nat.pow_succ]
    omega

theorem hexNumber_isSome (C : List Byte) : (hexNumber C).isSome = true ↔ C.all isHexDigit = true := by
  induction C with
  | nil => simp [hexNumber]
  | cons c r ih =>
    rw [List.all_cons, Bool.and_eq_true, ← ih, isHexDigit]
    simp only [Option.isSome_iff_exists, hexNumber_cons_eq_some_iff]
    exact ⟨fun ⟨_, v, k, value, rest, _⟩ => ⟨⟨v, value⟩, k, rest⟩,
      fun ⟨⟨v, value⟩, k, rest⟩ => ⟨_, v, k, value, rest, rfl⟩⟩

/-- The number is the sum of the digits' values, each at its place. -/
theorem hexNumber_getElem? {C : List Byte} {m : Nat} (h : hexNumber C = some m) : ∃ v : Nat → Nat,
    (∀ j, j < C.length → ∃ c, C[j]? = some c ∧ hexval c = some (v j)) ∧
    m = ∑ j ∈ Finset.range C.length, v j * 16 ^ (C.length - 1 - j) := by
  induction C generalizing m with
  | nil => cases h; exact ⟨fun _ => 0, nofun, rfl⟩
  | cons c r ih =>
    obtain ⟨v₀, k, value, rest, rfl⟩ := hexNumber_cons_eq_some_iff.mp h
    obtain ⟨v, digits, rfl⟩ := ih rest
    refine ⟨fun | 0 => v₀ | j + 1 => v j, fun j hj => ?_, ?_⟩
    · cases j with
      | zero => exact ⟨c, rfl, value⟩
      | succ j => exact digits j (Nat.lt_of_succ_lt_succ hj)
    · rw [List.length_cons, Finset.sum_range_succ', Nat.add_comm]
      simp only [Nat.add_sub_cancel, Nat.sub_zero, Nat.sub_add_eq, Nat.sub_right_comm]

/-! ## `SHARE_DECODE_REF` (R205, R206) -/

theorem shareDecodeRef_eq_some_iff {S : List Byte} {n : Word} {h : Bytes 32} : shareDecodeRef S = some (n, h) ↔
    (S.length = 95 ∧ slice S 0 10 = nonceMarker ∧ slice S 18 10 = hashMarker ∧ slice S 92 3 = shareEnd) ∧
    (∃ m, hexNumber (slice S 10 8) = some m ∧ BitVec.ofNat 32 m = n) ∧
    hexDecodePairs (slice S 28 64) = some h.toList := by
  rw [shareDecodeRef, Option.ite_none_right_eq_some]
  refine and_congr_right fun _ => ?_
  cases hexNumber (slice S 10 8) with
  | none => simp
  | some m =>
    cases hexDecodePairs (slice S 28 64) with
    | none => simp
    | some out => simp [ofList?_eq_some, and_comm]

/-- The texts that are accepted: R81's, with digits of either case. -/
theorem shareDecodeRef_isSome_iff {S : List Byte} : (shareDecodeRef S).isSome = true ↔
    (S.length = 95 ∧ slice S 0 10 = nonceMarker ∧ slice S 18 10 = hashMarker ∧ slice S 92 3 = shareEnd) ∧
    (slice S 10 8).all isHexDigit = true ∧ (slice S 28 64).all isHexDigit = true := by
  simp only [Option.isSome_iff_exists, Prod.exists, shareDecodeRef_eq_some_iff]
  constructor
  · rintro ⟨n, h, shape, ⟨m, number, -⟩, pairs⟩
    exact ⟨shape, (hexNumber_isSome _).mp (Option.isSome_of_eq_some number),
      ((hexDecodePairs_isSome _).mp (Option.isSome_of_eq_some pairs)).1⟩
  · rintro ⟨shape, nonceDigits, hashDigits⟩
    have len : (slice S 28 64).length = 64 := by rw [slice_length, shape.1]; rfl
    obtain ⟨m, number⟩ := Option.isSome_iff_exists.mp ((hexNumber_isSome _).mpr nonceDigits)
    obtain ⟨h, decoded⟩ := (hexDecode_isSome_iff (n := 32) len).mpr hashDigits
    exact ⟨_, h, shape, ⟨m, number, rfl⟩, pairs_of_hexDecode decoded⟩

theorem shareDecodeRef_shareEncode (n : Word) (h : Bytes 32) :
    shareDecodeRef (shareEncode n h).toList = some (n, h) := by
  obtain ⟨opening, nonce, middle, hash, ending⟩ := List.append_nil (shareText n h).toList ▸ shareText_slices n h []
  refine shareDecodeRef_eq_some_iff.mpr ⟨⟨(shareText n h).length_eq, opening, middle, ending⟩, ⟨n.toNat, ?_, ?_⟩, ?_⟩
  · exact (congrArg hexNumber nonce).trans (hexNumber_nonceHex n)
  · rw [BitVec.ofNat_toNat, BitVec.setWidth_eq]
  · exact (congrArg hexDecodePairs hash).trans (hexDecodePairs_hashHex h.toList)

/-- The nonce of an accepted text is the number its eight digits write. -/
theorem nonce_of_shareDecodeRef {S : List Byte} {n : Word} {h : Bytes 32} (decoded : shareDecodeRef S = some (n, h)) :
    ∃ v : Nat → Nat, (∀ j, j < 8 → ∃ c, S[10 + j]? = some c ∧ hexval c = some (v j)) ∧
      n.toNat = ∑ j ∈ Finset.range 8, v j * 16 ^ (7 - j) := by
  obtain ⟨⟨len, -⟩, ⟨m, number, rfl⟩, -⟩ := shareDecodeRef_eq_some_iff.mp decoded
  have len : (slice S 10 8).length = 8 := by rw [slice_length, len]; rfl
  have bound : m < 2 ^ 32 := (hexNumber_lt number).trans_eq (by rw [len]; rfl)
  obtain ⟨v, digits, sum⟩ := hexNumber_getElem? number
  rw [len] at digits sum
  refine ⟨v, fun j hj => slice_getElem? hj ▸ digits j hj, ?_⟩
  rw [BitVec.toNat_ofNat, Nat.mod_eq_of_lt bound, sum]

/-- The hash of an accepted text is what its 32 pairs write. -/
theorem hash_of_shareDecodeRef {S : List Byte} {n : Word} {h : Bytes 32} (decoded : shareDecodeRef S = some (n, h))
    {k : Nat} (hk : k < 32) : ∃ chi clo vhi vlo, S[28 + 2 * k]? = some chi ∧ S[29 + 2 * k]? = some clo ∧
      hexval chi = some vhi ∧ hexval clo = some vlo ∧ h.toList[k]? = some (BitVec.ofNat 8 (vhi * 16 + vlo)) := by
  obtain ⟨-, -, pairs⟩ := shareDecodeRef_eq_some_iff.mp decoded
  have digits := hexDecodePairs_getElem? _ _ pairs k (by rwa [h.length_eq])
  rwa [slice_getElem? (by omega), slice_getElem? (by omega), ← Nat.add_assoc, Nat.add_right_comm] at digits

theorem exec_shareDecodeRef_of_some {S : List Byte} {n : Word} {h : Bytes 32} (decoded : shareDecodeRef S = some (n, h))
    (s : State) : exec (.shareDecodeRef S) s = .next { s with result := some (.share n h) } := by
  simp only [exec, execShareDecodeRef, decoded, answer]

theorem exec_shareDecodeRef_of_none {S : List Byte} (rejected : shareDecodeRef S = none) (s : State) :
    exec (.shareDecodeRef S) s = .next { s with result := some .reject } := by
  simp only [exec, execShareDecodeRef, rejected, answer]

/-- Settles O40: what is accepted by `shareDecodeRef_isSome_iff` gives the numbers its digits write. -/
theorem shareDecodeInvertsShareEncode : Obligations.ShareDecodeInvertsShareEncode := by
  refine ⟨fun n h => exec_shareDecodeRef_of_some (shareDecodeRef_shareEncode n h), fun S s other => ?_,
    fun S s len opening middle ending nonceDigits hashDigits => ?_⟩
  · refine exec_shareDecodeRef_of_none (Option.not_isSome_iff_eq_none.mp fun accepted => ?_) s
    obtain ⟨⟨len, opening, middle, ending⟩, nonceDigits, hashDigits⟩ := shareDecodeRef_isSome_iff.mp accepted
    simp [len, opening, middle, ending, nonceDigits, hashDigits] at other
  · have accepted := shareDecodeRef_isSome_iff.mpr ⟨⟨len, opening, middle, ending⟩, nonceDigits, hashDigits⟩
    obtain ⟨⟨n, h⟩, decoded⟩ := Option.isSome_iff_exists.mp accepted
    obtain ⟨v, digits, sum⟩ := nonce_of_shareDecodeRef decoded
    refine ⟨n, h, v, exec_shareDecodeRef_of_some decoded s, digits, ?_, fun k hk => hash_of_shareDecodeRef decoded hk⟩
    rw [sum]
    simp [Finset.sum_range_succ]

end Sys2Proof.Machine
end

section
/-! PROOFS. The statements of 60_exceptions.md: what ends a job cycle and what that end records (R220, R221, R140), and
where the controller makes no progress (R238). -/

namespace Sys2Proof.Machine

/-! ## A recorded error (R220, R221) -/

/-- The controller state in which an error can arise (R220). -/
def BlockError.source : BlockError → CtrlState
  | .bufferOverflow => .idle
  | .malformedJob _ => .idle
  | .transportFailure .rx => .idle
  | .transportFailure .tx => .found

/-- A step that takes this error has led to `t` (R221): the error is recorded with its own details and no other, and the
controller is in `IDLE` with no partial frame. -/
structure Raised (e : BlockError) (t : State) : Prop where
  outcome : t.lastOutcome = e.outcome
  field : t.errField = e.field
  channel : t.errChannel = e.channel
  idle : t.ctrlState = .idle
  empty : t.rxCount = 0

theorem raised_raiseError (e : BlockError) (s : State) : Raised e (raiseError e s) :=
  ⟨rfl, rfl, rfl, rfl, rfl⟩

theorem Raised.recorded {e : BlockError} {t : State} (h : Raised e t) :
    t.lastOutcome = e.outcome ∧ t.errField = e.field ∧ t.errChannel = e.channel :=
  ⟨h.outcome, h.field, h.channel⟩

/-! ## What a step does to the job cycle (R13, R140) -/

/-- What a step that is no reset does to the job cycle and its outcome: the cycle goes on, or one of R32's ends is
recorded. -/
inductive CycleStep (s t : State) : Prop where
  | goesOn (outcome : t.lastOutcome = s.lastOutcome ∨ t.lastOutcome = .none) (noEnd : BlockInv s → ¬CycleEnds s t)
  | readFailed (sel : selectStep s = some .rxByte) (stream : s.rx = .fail :: t.rx)
    (raised : Raised (.transportFailure .rx) t)
  | overflowed (b : Byte) (sel : selectStep s = some .rxByte) (stream : s.rx = .byte b :: t.rx) (ne : b ≠ rbrace)
    (full : (s.rxCount + 1).toNat = s.params.rxBufLen) (raised : Raised .bufferOverflow t)
  | malformed (f : JobField) (sel : selectStep s = some .frameParse) (stream : t.rx = s.rx)
    (raised : Raised (.malformedJob f) t)
  | emitted (sel : selectStep s = some .emitShare) (taken : s.txAnswers = .ok :: t.txAnswers)
    (outcome : t.lastOutcome = .found) (field : t.errField = s.errField) (channel : t.errChannel = s.errChannel)
  | emissionFailed (k : Nat) (sel : selectStep s = some .emitShare) (taken : s.txAnswers = .fail k :: t.txAnswers)
    (raised : Raised (.transportFailure .tx) t)
  | reported (sel : selectStep s = some .reportExhausted) (outcome : t.lastOutcome = .exhausted)
    (field : t.errField = s.errField) (channel : t.errChannel = s.errChannel)
  | cancelled (sel : selectStep s = some .cancelSearch) (outcome : t.lastOutcome = .cancelled)
    (field : t.errField = s.errField) (channel : t.errChannel = s.errChannel)

theorem CycleEnds.idle {s t : State} (h : CycleEnds s t) : t.ctrlState = .idle := h.1.1

theorem CycleEnds.empty {s t : State} (h : CycleEnds s t) : t.rxCount = 0 := h.1.2

theorem CycleStep.of_ctrlState_ne_idle {s t : State} (outcome : t.lastOutcome = s.lastOutcome ∨ t.lastOutcome = .none)
    (notIdle : t.ctrlState ≠ .idle) : CycleStep s t :=
  .goesOn outcome fun _ ends => notIdle ends.idle

theorem CycleStep.of_unchanged {s t : State} {more : List RxAnswer} (outcome : t.lastOutcome = s.lastOutcome)
    (ctrl : t.ctrlState = s.ctrlState) (count : t.rxCount = s.rxCount) (stream : t.rx = s.rx ++ more) :
    CycleStep s t := by
  refine .goesOn (.inl outcome) fun _ ends => ?_
  have shorter := ends.changes ctrl count
  rw [stream, List.length_append] at shorter
  omega

theorem BlockInv.rxCount_succ_toNat {s : State} (inv : BlockInv s) (incomplete : frameComplete s = some false) :
    (s.rxCount + 1).toNat = s.rxCount.toNat + 1 := by
  have room := inv.rx.room incomplete
  have bound := inv.params.2
  bv_omega

/-- A byte that is stored leaves a frame begun; one that overflows the buffer ends the cycle (R172, R222). -/
theorem ingestByte_cycleStep {b : Byte} {s u : State} (sel : selectStep s = some .rxByte)
    (outcome : u.lastOutcome = s.lastOutcome) (count : u.rxCount = s.rxCount) (params : u.params = s.params)
    (stream : s.rx = .byte b :: u.rx) : CycleStep s (ingestByte b u) := by
  obtain ⟨stored, -⟩ | ⟨overflow, ne, full⟩ := ingestByte_cases b u
  · rw [stored]
    refine .goesOn (.inl outcome) fun inv ends => ?_
    have empty : s.rxCount + 1 = 0 := count ▸ ends.empty
    have begun := inv.rxCount_succ_toNat (frameComplete_of_rxByte sel)
    rw [empty] at begun
    exact absurd begun (Nat.succ_ne_zero _).symm
  · rw [overflow]
    rw [count, params] at full
    exact .overflowed b sel stream ne full (raised_raiseError _ _)

theorem endTrial_cycleStep {s u : State} (d : Bytes 32) (hit : Bool) (searching : u.ctrlState = .searching)
    (outcome : u.lastOutcome = s.lastOutcome) : CycleStep s (endTrial d hit u) := by
  unfold endTrial
  split
  · exact .of_ctrlState_ne_idle (.inl outcome) nofun
  · split
    · exact .of_ctrlState_ne_idle (.inl outcome) nofun
    · exact .of_ctrlState_ne_idle (.inl outcome) (by rw [searching]; nofun)

theorem Effect.cycleStep {s t : State} (e : Effect s t) : CycleStep s t := by
  cases e with
  | answered | waitsRx | waitsTx => exact .of_unchanged rfl rfl rfl (List.append_nil _).symm
  | offered as => exact .of_unchanged rfl rfl rfl rfl
  | readFails r sel stream => exact .readFailed sel stream (raised_raiseError _ _)
  | readsByte b r sel stream =>
    exact ingestByte_cycleStep sel (beginIngestion_lastOutcome s) (beginIngestion_rxCount s) (beginIngestion_params s)
      stream
  | malformed F f sel => exact .malformed f sel rfl (raised_raiseError _ s)
  | accepted => exact .of_ctrlState_ne_idle (.inr rfl) nofun
  | started => exact .of_ctrlState_ne_idle (.inl rfl) nofun
  | tried tail mid tgt sel =>
    have searching : s.ctrlState = .searching := state_of_select sel
    exact endTrial_cycleStep _ _ searching rfl
  | emitted n h a r sel _ _ taken =>
    cases a with
    | ok => exact .emitted sel taken rfl rfl rfl
    | fail k => exact .emissionFailed k sel taken (raised_raiseError _ _)
  | reported sel => exact .reported sel rfl rfl rfl
  | cancelled sel => exact .cancelled sel rfl rfl rfl

theorem BlockInv.with_schedule {s : State} (inv : BlockInv s) (turns : List Turn) :
    BlockInv { s with schedule := turns } :=
  inv.congr (by simp only [SameBlock, and_self]) rfl inv.cancel_hook

/-- The turns still to come play no part. -/
theorem CycleStep.of_schedule {s t : State} {turns : List Turn} (h : CycleStep { s with schedule := turns } t) :
    CycleStep s t := by
  cases h with
  | goesOn outcome noEnd => exact .goesOn outcome fun inv ends => noEnd (inv.with_schedule turns) ends
  | readFailed sel stream raised => exact .readFailed sel stream raised
  | overflowed b sel stream ne full raised => exact .overflowed b sel stream ne full raised
  | malformed f sel stream raised => exact .malformed f sel stream raised
  | emitted sel taken outcome field channel => exact .emitted sel taken outcome field channel
  | emissionFailed k sel taken raised => exact .emissionFailed k sel taken raised
  | reported sel outcome field channel => exact .reported sel outcome field channel
  | cancelled sel outcome field channel => exact .cancelled sel outcome field channel

theorem step_cycleStep {s t : State} (noReset : ∀ a rest, s.schedule ≠ .reset a :: rest) (h : step s = .next t) :
    CycleStep s t := by
  obtain e | ⟨level, rfl⟩ | ⟨a, rfl⟩ := step_effect_of_not_reset noReset h
  · exact e.cycleStep.of_schedule
  · exact .of_unchanged rfl rfl rfl (List.append_nil _).symm
  · exact .of_unchanged rfl rfl rfl (List.append_nil _).symm

/-! ## What a cycle's end records (R221, R140) -/

/-- R220's outcomes. -/
def LastOutcome.isError : LastOutcome → Bool
  | .bufferOverflow | .malformedJob | .transportFailure => true
  | .none | .found | .exhausted | .cancelled => false

theorem CycleStep.raised_of_new_error {s t : State} (h : CycleStep s t) (new : t.lastOutcome ≠ s.lastOutcome)
    (error : t.lastOutcome.isError = true) : ∃ e, Raised e t ∧ s.ctrlState = e.source := by
  cases h with
  | goesOn outcome =>
    obtain same | none := outcome
    · exact absurd same new
    · rw [none] at error; cases error
  | readFailed sel _ raised => exact ⟨_, raised, state_of_select sel⟩
  | overflowed _ sel _ _ _ raised => exact ⟨_, raised, state_of_select sel⟩
  | malformed _ sel _ raised => exact ⟨_, raised, state_of_select sel⟩
  | emissionFailed _ sel _ raised => exact ⟨_, raised, state_of_select sel⟩
  | emitted _ _ outcome | reported _ outcome | cancelled _ outcome => rw [outcome] at error; cases error

theorem step_raised_of_new_error {s t : State} (h : step s = .next t) (new : t.lastOutcome ≠ s.lastOutcome)
    (error : t.lastOutcome.isError = true) : ∃ e, Raised e t ∧ s.ctrlState = e.source := by
  cases step_effect h with
  | ran e => exact e.cycleStep.of_schedule.raised_of_new_error new error
  | reset a => cases error
  | drove | offeredRx | offeredTx => exact absurd rfl new

theorem BlockInv.no_error_details {s : State} (inv : BlockInv s) (notIdle : s.ctrlState ≠ .idle) :
    s.errField = none ∧ s.errChannel = none := by
  have outcome := inv.outcome_open notIdle
  exact ⟨inv.err_field (by rw [outcome]; nofun), inv.err_channel (by rw [outcome]; nofun)⟩

/-- Settles O52: the error a step takes says what is recorded, and every end of a cycle is one of `CycleStep`'s. -/
theorem errorEntryReturnsToIdle : Obligations.ErrorEntryReturnsToIdle := by
  refine ⟨fun s t run new => ?_, fun s t inv noReset run ends => ?_⟩
  · have raised := step_raised_of_new_error run new
    refine ⟨fun overflow => ?_, fun malformed => ?_, fun failure => ?_⟩
    · obtain ⟨e, ⟨outcome, field, channel, idle, empty⟩, source⟩ := raised (by rw [overflow]; rfl)
      cases e with
      | bufferOverflow => exact ⟨idle, empty, field, channel, source⟩
      | malformedJob | transportFailure => rw [outcome] at overflow; cases overflow
    · obtain ⟨e, ⟨outcome, field, channel, idle, empty⟩, source⟩ := raised (by rw [malformed]; rfl)
      cases e with
      | malformedJob f => exact ⟨idle, empty, by rw [field]; nofun, channel, source⟩
      | bufferOverflow | transportFailure => rw [outcome] at malformed; cases malformed
    · obtain ⟨e, ⟨outcome, field, channel, idle, empty⟩, source⟩ := raised (by rw [failure]; rfl)
      cases e with
      | transportFailure c =>
        cases c with
        | rx => exact ⟨idle, empty, field, .inl ⟨channel, source⟩⟩
        | tx => exact ⟨idle, empty, field, .inr ⟨channel, source⟩⟩
      | bufferOverflow | malformedJob => rw [outcome] at failure; cases failure
  · cases step_cycleStep noReset run with
    | goesOn _ noEnd => exact absurd ends (noEnd inv)
    | readFailed sel stream raised =>
      have idle : s.ctrlState = .idle := state_of_select sel
      have incomplete : frameComplete s = some false := frameComplete_of_rxByte sel
      have recorded : t.lastOutcome = .transportFailure ∧ t.errField = none ∧ t.errChannel = some .rx :=
        raised.recorded
      simp [idle, incomplete, stream, recorded]
    | overflowed b sel stream ne full raised =>
      have idle : s.ctrlState = .idle := state_of_select sel
      have incomplete : frameComplete s = some false := frameComplete_of_rxByte sel
      have recorded : t.lastOutcome = .bufferOverflow ∧ t.errField = none ∧ t.errChannel = none :=
        raised.recorded
      have filled : s.rxCount.toNat + 1 = s.params.rxBufLen := (inv.rxCount_succ_toNat incomplete).symm.trans full
      simp [idle, incomplete, stream, recorded, filled, show b ≠ 0x7D#8 from ne]
    | malformed f sel stream raised =>
      have idle : s.ctrlState = .idle := state_of_select sel
      have complete : frameComplete s = some true := frameComplete_of_frameParse sel
      have recorded : t.lastOutcome = .malformedJob ∧ t.errField = some f ∧ t.errChannel = none :=
        raised.recorded
      simp [idle, complete, stream, recorded]
    | emitted sel taken outcome field channel =>
      have found : s.ctrlState = .found := state_of_select sel
      simp [found, taken, outcome, field, channel, inv.no_error_details]
    | emissionFailed k sel taken raised =>
      have found : s.ctrlState = .found := state_of_select sel
      have recorded : t.lastOutcome = .transportFailure ∧ t.errField = none ∧ t.errChannel = some .tx :=
        raised.recorded
      simp [found, taken, recorded]
    | reported sel outcome field channel =>
      have exhausted : s.ctrlState = .exhausted := state_of_select sel
      simp [exhausted, outcome, field, channel, inv.no_error_details]
    | cancelled sel outcome field channel =>
      have searching : s.ctrlState = .searching := state_of_select sel
      simp [searching, outcome, field, channel, inv.no_error_details]

/-! ## Progress (R238) -/

theorem BlockInv.share_of_found {s : State} (inv : BlockInv s) (found : s.ctrlState = .found) :
    ∃ n h, s.shareNonce = some n ∧ s.shareHash = some h := by
  obtain ⟨hdr, tgt, job, -⟩ := inv.search_data (inv.ctrl_mid (by rw [found]; nofun))
  obtain ⟨nonce, hash, -⟩ := inv.share_held found hdr tgt job
  exact ⟨_, _, nonce, hash⟩

theorem selectStep_eq_rxByte_iff {s : State} :
    selectStep s = some .rxByte ↔ s.ctrlState = .idle ∧ frameComplete s = some false :=
  ⟨fun sel => ⟨state_of_select sel, frameComplete_of_rxByte sel⟩,
    fun ⟨idle, incomplete⟩ => select_rxByte idle incomplete⟩

theorem selectStep_eq_emitShare_iff {s : State} : selectStep s = some .emitShare ↔ s.ctrlState = .found :=
  ⟨state_of_select, select_found⟩

theorem execRxByte_eq_self_iff {s : State} (sel : selectStep s = some .rxByte) :
    execRxByte s = .next s ↔ s.rx = [] := by
  refine ⟨fun stays => ?_, execRxByte_of_no_answer sel⟩
  cases stream : s.rx with
  | nil => rfl
  | cons answer r =>
    cases answer with
    | byte b =>
      rw [execRxByte_of_byte sel stream, Host.Outcome.next.injEq] at stays
      have taken : s.rx = r := (congrArg State.rx stays).symm.trans (ingestByte_surroundings b _).rx
      exact absurd (stream.symm.trans taken) (List.cons_ne_self _ _)
    | fail =>
      rw [execRxByte_of_fail sel stream, Host.Outcome.next.injEq] at stays
      have taken : s.rx = r := (congrArg State.rx stays).symm
      exact absurd (stream.symm.trans taken) (List.cons_ne_self _ _)

theorem endEmission_ctrlState (ok : Bool) (s : State) : (endEmission ok s).ctrlState = .idle := by
  cases ok <;> rfl

theorem emitHeldShare_eq_self_iff {s : State} {n : Word} {h : Bytes 32} (found : s.ctrlState = .found)
    (hn : s.shareNonce = some n) (hh : s.shareHash = some h) : emitHeldShare s = .next s ↔ s.txAnswers = [] := by
  refine ⟨fun stays => ?_, emitHeldShare_of_no_answer hn hh⟩
  cases answers : s.txAnswers with
  | nil => rfl
  | cons a r =>
    rw [emitHeldShare_of_answer hn hh answers, Host.Outcome.next.injEq] at stays
    have idle : s.ctrlState = .idle := (congrArg State.ctrlState stays).symm.trans (endEmission_ctrlState _ _)
    rw [found] at idle
    cases idle

theorem rxCount_ne_zero_of_frameComplete {s : State} (complete : frameComplete s = some true) : s.rxCount ≠ 0 := by
  intro empty
  rw [frameComplete, if_pos empty] at complete
  cases complete

theorem execFrameParse_ne_self (s : State) : execFrameParse s ≠ .next s := by
  intro stays
  obtain ⟨sel, stays⟩ := guarded_next stays
  split at stays
  · cases stays
  · split at stays
    · rw [Host.Outcome.next.injEq] at stays
      exact rxCount_ne_zero_of_frameComplete (frameComplete_of_frameParse sel) (congrArg State.rxCount stays).symm
    · rw [Host.Outcome.next.injEq] at stays
      have prepared := (state_of_select sel).symm.trans (congrArg State.ctrlState stays).symm
      cases prepared

theorem endTrial_ne {s u : State} (d : Bytes 32) (hit : Bool) (searching : s.ctrlState = .searching)
    (nonce : u.nonce = s.nonce) : endTrial d hit u ≠ s := by
  unfold endTrial
  intro stays
  split at stays
  · rw [← stays] at searching; cases searching
  · split at stays
    · rw [← stays] at searching; cases searching
    · have same : u.nonce + 1 = s.nonce := congrArg State.nonce stays
      rw [nonce] at same
      bv_omega

theorem execTrial_ne_self (s : State) : execTrial s ≠ .next s := by
  intro stays
  obtain ⟨sel, stays⟩ := guarded_next stays
  have searching : s.ctrlState = .searching := state_of_select sel
  split at stays
  · cases stays
  · cases stays
  · cases stays
  · rw [Host.Outcome.next.injEq] at stays
    exact absurd stays (endTrial_ne _ _ searching rfl)

/-- Only `RX_BYTE` and `EMIT_SHARE` can leave the state as it is. -/
theorem exec_instr_ne_self {c : CtrlStep} {s : State} (sel : selectStep s = some c) (notRead : c ≠ .rxByte)
    (notWrite : c ≠ .emitShare) : exec c.instr s ≠ .next s := by
  have state := state_of_select sel
  intro stays
  cases c with
  | rxByte => exact notRead rfl
  | emitShare => exact notWrite rfl
  | frameParse => exact execFrameParse_ne_self s stays
  | trial => exact execTrial_ne_self s stays
  | startSearch | reportExhausted | cancelSearch =>
    obtain ⟨-, stays⟩ := guarded_next stays
    rw [Host.Outcome.next.injEq] at stays
    exact absurd ((congrArg State.ctrlState stays).trans state) nofun

/-- Settles O53: an enabled step, and a read or write once it is answered, moves the controller, `NONCE`, `RX_COUNT` or
the RX stream. -/
theorem onlyTheTransportCanHangTheBlock : Obligations.OnlyTheTransportCanHangTheBlock := by
  intro s inv undisturbed
  obtain ⟨c, sel⟩ := inv.selectable
  rw [step_of_select undisturbed sel, ← and_assoc, ← selectStep_eq_rxByte_iff, ← selectStep_eq_emitShare_iff, sel,
    Option.some.injEq, Option.some.injEq]
  cases c with
  | rxByte =>
    have waits : exec CtrlStep.rxByte.instr s = .next s ↔ s.rx = [] := execRxByte_eq_self_iff sel
    simpa using waits
  | emitShare =>
    have found : s.ctrlState = .found := state_of_select sel
    obtain ⟨n, h, hn, hh⟩ := inv.share_of_found found
    have waits : exec CtrlStep.emitShare.instr s = .next s ↔ s.txAnswers = [] :=
      exec_emitShare_of_found found ▸ emitHeldShare_eq_self_iff found hn hh
    simpa using waits
  | frameParse | startSearch | trial | reportExhausted | cancelSearch =>
    simpa using exec_instr_ne_self sel nofun nofun

end Sys2Proof.Machine
end

section
/-! PROOFS. The statements of 70_reset_and_hazards.md: the parameters stay (R252), and a valid job is not written
(R256). -/

namespace Sys2Proof.Machine

/-! ## The parameters (R252) -/

theorem SameSurroundings.params {s t : State} (h : SameSurroundings s t) : t.params = s.params := by
  obtain ⟨params, -⟩ := h; exact params

theorem Effect.params {s t : State} (e : Effect s t) : t.params = s.params := by
  cases e with
  | answered | offered | waitsRx | waitsTx | malformed | accepted | started | reported | cancelled => rfl
  | readFails => exact beginIngestion_params s
  | readsByte b r => exact (ingestByte_surroundings b _).params.trans (beginIngestion_params s)
  | tried => exact (endTrial_surroundings _ _ _).params
  | emitted => exact (endEmission_surroundings _ _).params

/-- Settles O46: an operation, a reset and the surroundings' turns all keep the parameters. -/
theorem noStepChangesTheParameters : Obligations.NoStepChangesTheParameters := by
  intro s t h
  cases step_effect h with
  | ran e => exact e.params
  | reset | drove | offeredRx | offeredTx => rfl

/-! ## The job and the tail (R256) -/

/-- A written tail stays written, and only its bytes 12..15 may have changed. -/
def TailKept (s t : State) : Prop :=
  ∀ tail, s.tail = some tail → ∃ tail', t.tail = some tail' ∧
    slice tail'.toList 0 12 = slice tail.toList 0 12 ∧ slice tail'.toList 16 48 = slice tail.toList 16 48

/-- R256: the job registers stay, and the tail up to its nonce. -/
def KeepsJob (s t : State) : Prop := SameJob s t ∧ TailKept s t

theorem keepsJob_of_same {s t : State} (job : SameJob s t) (tail : t.tail = s.tail) : KeepsJob s t :=
  ⟨job, fun T written => ⟨T, tail.trans written, rfl, rfl⟩⟩

theorem KeepsJob.trans {s t u : State} (h : KeepsJob s t) (k : KeepsJob t u) : KeepsJob s u := by
  obtain ⟨⟨header, target, seq⟩, tail⟩ := h
  obtain ⟨⟨header', target', seq'⟩, tail'⟩ := k
  refine ⟨⟨header'.trans header, target'.trans target, seq'.trans seq⟩, fun T written => ?_⟩
  obtain ⟨T', written, front, back⟩ := tail T written
  obtain ⟨T'', written, front', back'⟩ := tail' T' written
  exact ⟨T'', written, front'.trans front, back'.trans back⟩

theorem setTailNonce_keepsJob {s : State} {T : Bytes 64} (n : Word) (written : s.tail = some T) :
    KeepsJob s { s with tail := some (setTailNonce T n) } := by
  refine ⟨⟨rfl, rfl, rfl⟩, fun T' written' => ⟨setTailNonce T n, rfl, ?_⟩⟩
  obtain rfl : T = T' := Option.some.inj (written.symm.trans written')
  exact ⟨setTailNonce_front T n, setTailNonce_back T n⟩

theorem endTrial_keepsJob (d : Bytes 32) (hit : Bool) (s : State) : KeepsJob s (endTrial d hit s) := by
  obtain ⟨job, -, -, tail, -⟩ := endTrial_frame d hit s
  exact keepsJob_of_same job tail

theorem beginIngestion_keepsJob (s : State) : KeepsJob s (beginIngestion s) :=
  keepsJob_of_same ⟨beginIngestion_jobHeader s, beginIngestion_jobTarget s, beginIngestion_jobSeq s⟩
    (beginIngestion_tail s)

theorem ingestByte_keepsJob (b : Byte) (s : State) : KeepsJob s (ingestByte b s) := by
  obtain ⟨job, -, -, tail, -⟩ := ingestByte_frame b s
  exact keepsJob_of_same job tail

theorem endEmission_keepsJob (ok : Bool) (s : State) : KeepsJob s (endEmission ok s) := by
  obtain ⟨job, -, -, tail, -⟩ := endEmission_frame ok s
  exact keepsJob_of_same job tail

/-- Only `FRAME_PARSE` writes the job, and but for it only `TRIAL` the tail, whose nonce it sets (R147, R185). -/
theorem Effect.keepsJob {s t : State} (e : Effect s t) (noParse : selectStep s ≠ some .frameParse) :
    KeepsJob s t := by
  cases e with
  | answered | offered | waitsRx | waitsTx | malformed | started | reported | cancelled =>
    exact keepsJob_of_same ⟨rfl, rfl, rfl⟩ rfl
  | accepted F hdr tgt sel => exact absurd sel noParse
  | readFails => exact beginIngestion_keepsJob s
  | readsByte b r =>
    have ingest := ingestByte_keepsJob b { beginIngestion s with rx := r, rxConsumed := s.rxConsumed + 1 }
    exact (beginIngestion_keepsJob s).trans ingest
  | tried T mid tgt sel written => exact (setTailNonce_keepsJob s.nonce written).trans (endTrial_keepsJob _ _ _)
  | emitted => exact endEmission_keepsJob _ { s with txAnswers := _, txLog := _ }

/-- A frame can be complete only once one has begun, and where one has begun there is no job (R22, R172). -/
theorem BlockInv.not_select_frameParse {s : State} (inv : BlockInv s) (valid : s.jobValid = true) :
    selectStep s ≠ some .frameParse := by
  intro sel
  have begun : s.rxCount ≠ 0 := rxCount_ne_zero_of_frameComplete (frameComplete_of_frameParse sel)
  have noJob : s.jobValid = false := inv.ingest_clear begun
  exact absurd valid (Bool.eq_false_iff.mp noJob)

/-- Settles O47: while the job is valid `FRAME_PARSE` is not enabled, and no other effect writes the job. -/
theorem noStepWritesAValidJob : Obligations.NoStepWritesAValidJob := by
  intro s t inv valid noReset h
  change KeepsJob { s with schedule := s.schedule.tail } t
  obtain e | ⟨level, rfl⟩ | ⟨a, rfl⟩ := step_effect_of_not_reset noReset h
  · exact e.keepsJob ((inv.with_schedule _).not_select_frameParse valid)
  · exact keepsJob_of_same ⟨rfl, rfl, rfl⟩ rfl
  · exact keepsJob_of_same ⟨rfl, rfl, rfl⟩ rfl

end Sys2Proof.Machine
end

section
/-! PROOFS. How an operation comes to run: a command turn and a controller turn (R70, R141), a reset and the step after
it (R250, R251), and the faults on unwritten elements (R258). -/

namespace Sys2Proof.Machine

/-! ## Turns (log 3) -/

theorem controllerTurn_of_select {s : State} {c : CtrlStep} (sel : selectStep s = some c) :
    controllerTurn s = exec c.instr s := by
  simp only [controllerTurn, fetchStep, sel]

theorem controllerTurn_of_unreadable {s : State} (unreadable : selectStep s = none) :
    controllerTurn s = .fault (.unwritten .rxBuf) := by
  simp only [controllerTurn, fetchStep, unreadable]

theorem commandTurn_of_decode {bs r : List Byte} {i : Instr} (decoded : decode bs = .ok (i, r)) (s : State) :
    commandTurn bs s = exec i s := by
  simp only [commandTurn, fetchCommand, decoded]

/-- Settles O7: the command is the turn at the head of the schedule. -/
theorem commandStepRunsTheDecodedOperation : Obligations.CommandStepRunsTheDecodedOperation := by
  intro s bs r i rest hs decoded
  exact (step_of_schedule_cons hs).trans (commandTurn_of_decode decoded _)

/-- Settles O8: the choice of a step does not depend on the turns to come. -/
theorem controllerStepRunsTheEnabledStep : Obligations.ControllerStepRunsTheEnabledStep := by
  intro s c sel
  refine ⟨fun hs => step_of_select hs sel, fun rest hs => ?_⟩
  have sel : selectStep { s with schedule := rest } = some c := sel
  exact (step_of_schedule_cons hs).trans (controllerTurn_of_select sel)

/-! ## Reset (R250, R251) -/

theorem abandonWrite_of_not_found {s : State} (received : Nat) (notFound : s.ctrlState ≠ .found) :
    abandonWrite received s = s.txLog := by
  unfold abandonWrite
  split
  · rename_i found _ _; exact absurd found notFound
  · rfl

/-- Of a share being emitted a reset leaves as many first bytes on the wire as had arrived. -/
theorem resetEvent_txWire {s : State} {n : Word} {h : Bytes 32} (a : Abandoned) (found : s.ctrlState = .found)
    (hn : s.shareNonce = some n) (hh : s.shareHash = some h) :
    (resetEvent a s).txWire = s.txWire ++ (shareText n h).toList.take a.txReceived := by
  have log : (resetEvent a s).txLog = if a.txReceived = 0 then s.txLog
      else s.txLog ++ [⟨(shareText n h).toList, min a.txReceived (shareText n h).toList.length⟩] := by
    simp only [resetEvent_txLog, abandonWrite, found, hn, hh]
  split at log
  · rename_i none
    rw [State.txWire, State.txWire, log, none, List.take_zero, List.append_nil]
  · rw [txWire_of_txLog_append log, ← List.take_eq_take_min]

/-- Settles O1: the reset values of R42 field by field, then the wire. -/
theorem resetGivesTheListedValues : Obligations.ResetGivesTheListedValues := by
  intro s a rest hs
  refine ⟨resetEvent a { s with schedule := rest }, step_of_schedule_cons hs, rfl, rfl, rfl, rfl, rfl, rfl, rfl, rfl,
    rfl, rfl, rfl, Memory.read_nil, rfl, rfl, rfl, rfl, rfl, fun n h found hn hh => ?_, fun notFound => ?_⟩
  · exact resetEvent_txWire (s := { s with schedule := rest }) a found hn hh
  · have log := abandonWrite_of_not_found (s := { s with schedule := rest }) a.txReceived notFound
    exact congrArg (List.flatMap _) log

/-- Settles O2: after reset no frame is complete, so `RX_BYTE` runs and takes the byte as `RxByteStoresOneByte` says. -/
theorem firstStepAfterResetReadsAByte : Obligations.FirstStepAfterResetReadsAByte := by
  intro s b r _ reset
  generalize s.params = p at *
  subst reset
  obtain ⟨-, -, takesByte⟩ := rxByteStoresOneByte { State.resetWith p with rx := .byte b :: r } r rfl rfl
  obtain ⟨t, takes, stored, room, full⟩ := takesByte b rfl
  have run : step { State.resetWith p with rx := .byte b :: r } = .next t :=
    (step_of_select rfl (select_rxByte rfl rfl)).trans takes
  refine ⟨select_rxByte rfl rfl, fun fits => ?_, fun ne one => ?_⟩
  · have after := room fun ⟨ne, one⟩ => fits.elim ne fun many => many one.symm
    exact ⟨t, run, stored 0, congrArg State.rxCount after, congrArg State.rx after, congrArg State.ctrlState after,
      congrArg State.lastOutcome after⟩
  · have after := full ne one.symm
    exact ⟨t, run, congrArg State.rxCount after, congrArg State.rx after, congrArg State.ctrlState after,
      congrArg State.lastOutcome after⟩

/-! ## Faults on unwritten elements (R258, log 7) -/

theorem exec_trial_fault_tail {s : State} (sel : selectStep s = some .trial) (tail : s.tail = none) :
    exec .trial s = .fault (.unwritten .tail) := by
  simp only [exec, execTrial, guarded_of_select sel, tail]

theorem exec_trial_fault_midstate {s : State} {T : Bytes 64} (sel : selectStep s = some .trial)
    (tail : s.tail = some T) (midstate : s.midstate = none) : exec .trial s = .fault (.unwritten .midstate) := by
  simp only [exec, execTrial, guarded_of_select sel, tail, midstate]

theorem exec_trial_fault_jobTarget {s : State} {T : Bytes 64} {mid : HashState} (sel : selectStep s = some .trial)
    (tail : s.tail = some T) (midstate : s.midstate = some mid) (target : s.jobTarget = none) :
    exec .trial s = .fault (.unwritten .jobTarget) := by
  simp only [exec, execTrial, guarded_of_select sel, tail, midstate, target]

theorem emitHeldShare_fault_shareNonce {s : State} (nonce : s.shareNonce = none) :
    emitHeldShare s = .fault (.unwritten .shareNonce) := by
  simp only [emitHeldShare, nonce]

theorem emitHeldShare_fault_shareHash {s : State} {n : Word} (nonce : s.shareNonce = some n)
    (hash : s.shareHash = none) : emitHeldShare s = .fault (.unwritten .shareHash) := by
  simp only [emitHeldShare, nonce, hash]

theorem exec_shareFrame_fault_shareNonce {s : State} (n : Word) (h : Bytes 32) (found : s.ctrlState = .found)
    (nonce : s.shareNonce = none) : exec (.shareFrame n h) s = .fault (.unwritten .shareNonce) := by
  simp only [exec, execShareFrame, guarded_of_select (select_found found), nonce]

theorem exec_shareFrame_fault_shareHash {s : State} {m : Word} (n : Word) (h : Bytes 32)
    (found : s.ctrlState = .found) (nonce : s.shareNonce = some m) (hash : s.shareHash = none) :
    exec (.shareFrame n h) s = .fault (.unwritten .shareHash) := by
  simp only [exec, execShareFrame, guarded_of_select (select_found found), nonce, hash]

theorem exec_frameParse_fault {s : State} (sel : selectStep s = some .frameParse) (received : receivedFrame s = none) :
    exec .frameParse s = .fault (.unwritten .rxBuf) := by
  simp only [exec, execFrameParse, guarded_of_select sel, received]

/-- `frame_complete` looks at the frame's last byte (R43), and in `IDLE` the choice of a step at `frame_complete`. -/
theorem selectStep_of_unreadable {s : State} (idle : s.ctrlState = .idle) (begun : s.rxCount ≠ 0)
    (unwritten : Memory.read s.rxBuf (s.rxCount.toNat - 1) = none) : selectStep s = none := by
  have unknown : frameComplete s = none := by rw [frameComplete, if_neg begun, unwritten, Option.map_none]
  rw [select_idle idle, unknown, Option.map_none]

/-- Settles O6: element by element in the order in which each operation reads them. -/
theorem readingAnUnwrittenElementFaults : Obligations.ReadingAnUnwrittenElementFaults := by
  intro s
  simp only [Option.ne_none_iff_exists']
  refine ⟨exec_trial_fault_tail, fun sel ⟨_, tail⟩ => exec_trial_fault_midstate sel tail,
    fun sel ⟨_, tail⟩ ⟨_, midstate⟩ => exec_trial_fault_jobTarget sel tail midstate, fun found nonce => ?_,
    fun found ⟨_, nonce⟩ hash => ?_, fun idle begun unwritten => ?_,
    fun idle complete => exec_frameParse_fault (select_frameParse idle complete), exec_shareFrame_fault_shareNonce,
    fun n h found ⟨_, nonce⟩ => exec_shareFrame_fault_shareHash n h found nonce⟩
  · rw [exec_emitShare_of_found found, emitHeldShare_fault_shareNonce nonce]
  · rw [exec_emitShare_of_found found, emitHeldShare_fault_shareHash nonce hash]
  · have unreadable := selectStep_of_unreadable idle begun unwritten
    exact ⟨guarded_of_unreadable unreadable, guarded_of_unreadable unreadable,
      fun hs => (step_of_schedule_nil hs).trans (controllerTurn_of_unreadable unreadable)⟩

end Sys2Proof.Machine
end

section
/-! PROOFS. The rest of 00_scope.md, 10_state.md and 40_hash_engine.md: the rotation bit by bit (R10), the status word
read back (R40), and the fixed message shapes as cases of the reference function (R119). -/

namespace Sys2Proof.Machine

/-! ## `ROTR` (R10) -/

/-- Settles O16: the bits below `32 - n` come from the shift to the right, the others from the shift to the left. -/
theorem rotateMovesEachBit : Obligations.RotateMovesEachBit := by
  intro x n i pos lt hi
  rw [rotr, BitVec.getLsbD_or, BitVec.getLsbD_ushiftRight, BitVec.getLsbD_shiftLeft]
  by_cases low : i + n < 32
  · have right : i < 32 - n := by omega
    rw [Nat.mod_eq_of_lt low, Nat.add_comm n i]
    simp [right]
  · have left : ¬i < 32 - n := by omega
    have out : x.getLsbD (n + i) = false := BitVec.getLsbD_of_ge x _ (by omega)
    rw [out, show (i + n) % 32 = i - (32 - n) by omega]
    simp [left, hi]

/-! ## Reading `STATUS` back (R40, U13 to U15) -/

theorem ctrlState_ofCode?_code (c : CtrlState) : CtrlState.ofCode? c.code = some c := by cases c <;> rfl

theorem lastOutcome_ofCode?_code (o : LastOutcome) : LastOutcome.ofCode? o.code = some o := by cases o <;> rfl

theorem errFieldOfCode?_code (f : Option JobField) : errFieldOfCode? (errFieldCode f) = some f := by
  rcases f with _ | (_ | _) <;> rfl

theorem errChannelOfCode?_code (c : Option Channel) : errChannelOfCode? (errChannelCode c) = some c := by
  rcases c with _ | (_ | _) <;> rfl

theorem ctrlState_ofCode?_of_reserved : ∀ c : BitVec 3, 4 < c.toNat → CtrlState.ofCode? c = none := by decide

theorem lastOutcome_ofCode?_of_reserved : ∀ c : BitVec 4, 6 < c.toNat → LastOutcome.ofCode? c = none := by decide

theorem readStatus_statusWord (s : State) : readStatus (statusWord s) =
    some ⟨s.ctrlState, s.jobValid, s.midValid, s.lastOutcome, s.errField, s.errChannel, s.rxCount⟩ := by
  simp only [readStatus, statusWord_ctrlState, statusWord_jobValid, statusWord_midValid, statusWord_reserved,
    statusWord_lastOutcome, statusWord_errField, statusWord_errChannel, statusWord_rxCount, ctrlState_ofCode?_code,
    lastOutcome_ofCode?_code, errFieldOfCode?_code, errChannelOfCode?_code]
  rfl

/-- What is read as a status has no reserved code and no reserved bit. -/
theorem readStatus_eq_some {w : Word} {f : StatusFields} (h : readStatus w = some f) :
    CtrlState.ofCode? (w.extractLsb' 0 3) ≠ none ∧ LastOutcome.ofCode? (w.extractLsb' 8 4) ≠ none ∧
    errFieldOfCode? (w.extractLsb' 12 2) ≠ none ∧ errChannelOfCode? (w.extractLsb' 14 2) ≠ none ∧
    w.extractLsb' 5 3 = 0 := by
  unfold readStatus at h
  split at h
  · rename_i ctrl outcome field channel
    split at h
    · rename_i zero
      rw [ctrl, outcome, field, channel]
      exact ⟨nofun, nofun, nofun, nofun, zero⟩
    · cases h
  · cases h

/-- Settles O42: each field's code is read back, and no reader accepts a reserved one. -/
theorem statusWordReadsBack : Obligations.StatusWordReadsBack := by
  refine ⟨readStatus_statusWord, fun w reserved => ?_⟩
  cases read : readStatus w with
  | none => rfl
  | some f =>
    obtain ⟨ctrl, outcome, field, channel, zero⟩ := readStatus_eq_some read
    obtain h | h | h | h | h := reserved
    · exact absurd (ctrlState_ofCode?_of_reserved _ h) ctrl
    · exact absurd (lastOutcome_ofCode?_of_reserved _ h) outcome
    · rw [h] at field; exact absurd rfl field
    · rw [h] at channel; exact absurd rfl channel
    · exact absurd zero h

/-! ## The fixed shapes and the reference function (R119) -/

/-- Blocks in a row are compressed one after the other (R118). -/
theorem compressBlocks_flatMap (blocks : List (Bytes 64)) (S : HashState) :
    compressBlocks blocks.length S (blocks.flatMap (·.toList)) = blocks.foldl compress S := by
  induction blocks generalizing S with
  | nil => rfl
  | cons B rest ih =>
    rw [List.length_cons, compressBlocks, firstBlock_append (List.flatMap_cons ..), List.flatMap_cons,
      List.drop_left' B.length_eq, ih, List.foldl_cons]

/-- `SHA256_REF` of a message whose padding makes these blocks. -/
theorem sha256Ref_of_blocks {M : List Byte} {blocks : List (Bytes 64)}
    (padded : padMessage M = blocks.flatMap (·.toList)) : sha256Ref M = ser (blocks.foldl compress h0) := by
  have count : (blocks.flatMap (·.toList)).length / 64 = blocks.length := by
    simp [List.length_flatMap, Bytes.length_eq]
  simp only [sha256Ref, padded, count, compressBlocks_flatMap]

theorem padMessage_header (hdr : Bytes 80) : padMessage hdr.toList = [blk1 hdr, blk2 hdr].flatMap (·.toList) := by
  have zeros : padZeros 80 = 39 := rfl
  have length : be64Bytes (8 * 80) = [0, 0, 0, 0, 0, 0, 2#8, 0x80#8] := by decide
  simp only [padMessage, hdr.length_eq, zeros, length, List.flatMap_cons, List.flatMap_nil, List.append_nil,
    blk1_toList, blk2_toList, ← List.append_assoc, List.take_append_drop]

theorem padMessage_digest (d : Bytes 32) : padMessage d.toList = [blk3 d].flatMap (·.toList) := by
  have zeros : padZeros 32 = 23 := rfl
  have length : be64Bytes (8 * 32) = [0, 0, 0, 0, 0, 0, 1#8, 0#8] := by decide
  simp only [padMessage, d.length_eq, zeros, length, List.flatMap_cons, List.flatMap_nil, List.append_nil, blk3_toList]

theorem hashHeader_eq_sha256Ref (hdr : Bytes 80) : hashHeader hdr = sha256Ref hdr.toList :=
  (sha256Ref_of_blocks (padMessage_header hdr)).symm

theorem hash32_eq_sha256Ref (d : Bytes 32) : hash32 d = sha256Ref d.toList :=
  (sha256Ref_of_blocks (padMessage_digest d)).symm

/-- Settles O20: padding the two fixed lengths gives the blocks of R75 to R77. -/
theorem fixedShapesAgreeWithTheReference : Obligations.FixedShapesAgreeWithTheReference := by
  refine ⟨hashHeader_eq_sha256Ref, hash32_eq_sha256Ref, fun hdr => ?_⟩
  rw [doubleHash, hash32_eq_sha256Ref, hashHeader_eq_sha256Ref]

end Sys2Proof.Machine
end

section
/-! PROOFS. The invariant of the block: it holds after reset, every step keeps it, and under it no step reads an
unwritten element (R45, R258). -/

namespace Sys2Proof.Machine

/-! ## The receive buffer without a frame -/

theorem rxInv_of_empty {t : State} (params : t.params.wf) (empty : t.rxCount = 0)
    (canonical : Memory.wf t.rxBuf = true) (bounded : ∀ a b, Memory.read t.rxBuf a = some b → a < t.params.rxBufLen) :
    RxInv t := by
  have zero : t.rxCount.toNat = 0 := by rw [empty]; rfl
  have pos : 1 ≤ t.params.rxBufLen := params.1
  exact ⟨canonical, bounded, by omega, by omega, by omega, by omega⟩

/-- A byte that overflows the buffer stands in it, and the frame is discarded (R222). -/
theorem RxInv.overflowed {s : State} {b : Byte} (h : RxInv s) (params : s.params.wf)
    (incomplete : frameComplete s = some false) : RxInv (raiseError .bufferOverflow (storeRx b s)) := by
  refine rxInv_of_empty params rfl (Memory.wf_write _ _ _ h.canonical) fun a v read => ?_
  rw [raiseError_rxBuf, storeRx_rxBuf, Memory.read_write] at read
  split at read
  · rename_i here; rw [here]; exact h.room incomplete
  · exact h.bounded a v read

theorem RxInv.congr {s t : State} (h : RxInv s) (buf : t.rxBuf = s.rxBuf) (count : t.rxCount = s.rxCount)
    (params : t.params = s.params) : RxInv t := by
  have complete : frameComplete t = frameComplete s := by rw [frameComplete, frameComplete, buf, count]
  obtain ⟨canonical, bounded, le, written, brace, full⟩ := h
  exact ⟨buf ▸ canonical, by rwa [buf, params], by rwa [count, params], by rwa [buf, count], by rwa [buf, count],
    by rwa [complete, count, params]⟩

/-! ## The two lines on error details (R45) -/

/-- `ERR_FIELD` and `ERR_CHANNEL` are set under their own outcomes only. -/
structure DetailsInv (s : State) : Prop where
  field : s.lastOutcome ≠ .malformedJob → s.errField = none
  channel : s.lastOutcome ≠ .transportFailure → s.errChannel = none

theorem detailsInv_of_none {t : State} (field : t.errField = none) (channel : t.errChannel = none) : DetailsInv t :=
  ⟨fun _ => field, fun _ => channel⟩

theorem Raised.details {e : BlockError} {t : State} (h : Raised e t) : DetailsInv t := by
  obtain ⟨outcome, field, channel, -⟩ := h
  cases e with
  | bufferOverflow => exact detailsInv_of_none field channel
  | malformedJob f => exact ⟨fun other => absurd outcome other, fun _ => channel⟩
  | transportFailure c => exact ⟨fun _ => field, fun other => absurd outcome other⟩

/-! ## A block without a job -/

/-- No job is valid, and the controller waits for one. -/
structure NoJob (s : State) : Prop where
  idle : s.ctrlState = .idle
  job : s.jobValid = false
  mid : s.midValid = false

/-- Without a job the invariant speaks of the buffer, the share, the details and the inputs only. -/
theorem blockInv_of_noJob {t : State} (params : t.params.wf) (rx : RxInv t) (noJob : NoJob t)
    (noShare : t.shareNonce = none ∧ t.shareHash = none) (details : DetailsInv t)
    (noHook : t.params.cancelHook = .absent → t.cancel = false) : BlockInv t := by
  obtain ⟨idle, job, mid⟩ := noJob
  exact {
    params := params
    rx := rx
    mid_job valid := absurd valid (by rw [mid]; nofun)
    job_written valid := absurd valid (by rw [job]; nofun)
    ingest_clear _ := job
    search_data valid := absurd valid (by rw [mid]; nofun)
    ctrl_mid ctrl := absurd idle ctrl
    ctrl_rx ctrl := absurd idle ctrl
    err_field := details.field
    err_channel := details.channel
    outcome_open ctrl := absurd idle ctrl
    share_absent _ := noShare
    share_held found := absurd (idle.symm.trans found) nofun
    none_below ctrl := absurd ctrl (by rw [idle]; nofun)
    none_at_all exhausted := absurd (idle.symm.trans exhausted) nofun
    cancel_hook := noHook }

/-- Settles O3: after reset there is no job and the buffer is empty. -/
theorem invariantHoldsAtReset : Obligations.InvariantHoldsAtReset := by
  intro p admitted
  exact blockInv_of_noJob admitted (rxInv_of_empty admitted rfl rfl nofun) ⟨rfl, rfl, rfl⟩ ⟨rfl, rfl⟩
    (detailsInv_of_none rfl rfl) fun _ => rfl

theorem BlockInv.after_reset {s : State} (inv : BlockInv s) (a : Abandoned) : BlockInv (resetEvent a s) :=
  blockInv_of_noJob inv.params (rxInv_of_empty inv.params rfl rfl nofun) ⟨rfl, rfl, rfl⟩ ⟨rfl, rfl⟩
    (detailsInv_of_none rfl rfl) inv.cancel_hook

theorem BlockInv.no_share_of_idle {s : State} (inv : BlockInv s) (idle : s.ctrlState = .idle) :
    s.shareNonce = none ∧ s.shareHash = none :=
  inv.share_absent (by rw [idle]; nofun)

theorem BlockInv.raiseError_of_noJob {s : State} (inv : BlockInv s) (noJob : NoJob s) (e : BlockError) :
    BlockInv (raiseError e s) :=
  blockInv_of_noJob inv.params (inv.rx.emptied inv.params rfl rfl rfl) ⟨rfl, noJob.job, noJob.mid⟩
    (inv.no_share_of_idle noJob.idle) (raised_raiseError e s).details inv.cancel_hook

/-- A byte is stored or overflows the buffer (R172, R222). -/
theorem BlockInv.ingestByte_of_noJob {s : State} (inv : BlockInv s) (noJob : NoJob s)
    (incomplete : frameComplete s = some false) (b : Byte) : BlockInv (ingestByte b s) := by
  obtain ⟨idle, job, mid⟩ := noJob
  have noShare := inv.no_share_of_idle idle
  obtain ⟨stored, room⟩ | ⟨overflow, -⟩ := ingestByte_cases b s
  · have rx : RxInv (storeRx b s) := inv.rx.stored inv.params incomplete room rfl rfl rfl
    rw [stored]
    exact blockInv_of_noJob inv.params rx ⟨idle, job, mid⟩ noShare ⟨inv.err_field, inv.err_channel⟩ inv.cancel_hook
  · have rx := inv.rx.overflowed (b := b) inv.params incomplete
    rw [overflow]
    exact blockInv_of_noJob inv.params rx ⟨rfl, job, mid⟩ noShare (raised_raiseError _ _).details inv.cancel_hook

theorem BlockInv.mid_clear {s : State} (inv : BlockInv s) (noJob : s.jobValid = false) : s.midValid = false := by
  cases mid : s.midValid with
  | false => rfl
  | true => exact absurd (inv.mid_job mid) (by rw [noJob]; nofun)

theorem BlockInv.noJob_of_frameComplete {s : State} (inv : BlockInv s) (idle : s.ctrlState = .idle)
    (complete : frameComplete s = some true) : NoJob s := by
  have noJob := inv.ingest_clear (rxCount_ne_zero_of_frameComplete complete)
  exact ⟨idle, noJob, inv.mid_clear noJob⟩

/-- While a frame is being received there is no job, whether this byte begins it or not (R172). -/
theorem BlockInv.beginIngestion_clears {s : State} (inv : BlockInv s) :
    beginIngestion s = { s with jobValid := false, midValid := false } := by
  by_cases empty : s.rxCount = 0
  · exact if_pos empty
  · have noJob := inv.ingest_clear empty
    rw [beginIngestion_eq, if_neg empty, if_neg empty, noJob, inv.mid_clear noJob]

/-- The state in which `RX_BYTE` uses the transport's answer. -/
theorem BlockInv.ingesting {s : State} (inv : BlockInv s) (idle : s.ctrlState = .idle) (r : List RxAnswer) (n : Nat) :
    BlockInv { s with jobValid := false, midValid := false, rx := r, rxConsumed := n } :=
  blockInv_of_noJob inv.params (inv.rx.congr rfl rfl rfl) ⟨idle, rfl, rfl⟩ (inv.no_share_of_idle idle)
    ⟨inv.err_field, inv.err_channel⟩ inv.cancel_hook

theorem BlockInv.after_failed_read {s : State} (inv : BlockInv s) (idle : s.ctrlState = .idle) (r : List RxAnswer) :
    BlockInv (raiseError (.transportFailure .rx) { beginIngestion s with rx := r }) := by
  rw [inv.beginIngestion_clears]
  exact (inv.ingesting idle r s.rxConsumed).raiseError_of_noJob ⟨idle, rfl, rfl⟩ _

theorem BlockInv.after_read_byte {s : State} (inv : BlockInv s) (idle : s.ctrlState = .idle)
    (incomplete : frameComplete s = some false) (b : Byte) (r : List RxAnswer) (n : Nat) :
    BlockInv (ingestByte b { beginIngestion s with rx := r, rxConsumed := n }) := by
  rw [inv.beginIngestion_clears]
  exact (inv.ingesting idle r n).ingestByte_of_noJob ⟨idle, rfl, rfl⟩ incomplete b

/-! ## A block with a job -/

/-- A job stands with its search registers, no byte of the next frame has arrived, and the inputs are admitted. -/
structure JobReady (s : State) (hdr : Bytes 80) (tgt : Bytes 32) : Prop where
  params : s.params.wf
  rx : RxInv s
  job_valid : s.jobValid = true
  mid_valid : s.midValid = true
  job : ActiveJob s hdr tgt
  data : SearchData s hdr
  empty : s.rxCount = 0
  no_hook : s.params.cancelHook = .absent → s.cancel = false

/-- What the search of this job has got to: in each controller state the share held and the nonces ruled out (R29, R146,
R150). -/
def SearchProgress (hdr : Bytes 80) (tgt : Bytes 32) (s : State) : Prop :=
  match s.ctrlState with
  | .idle | .midstatePrepared => s.shareNonce = none ∧ s.shareHash = none
  | .searching => (s.shareNonce = none ∧ s.shareHash = none) ∧ NoMatchBelow hdr tgt s.nonce.toNat
  | .found => (s.shareNonce = some s.nonce ∧ s.shareHash = some (doubleHash (headerWithNonce hdr s.nonce)) ∧
      meetsTarget (doubleHash (headerWithNonce hdr s.nonce)) tgt = true) ∧ NoMatchBelow hdr tgt s.nonce.toNat
  | .exhausted => (s.shareNonce = none ∧ s.shareHash = none) ∧ s.nonce = lastNonce ∧ NoMatchBelow hdr tgt (2 ^ 32)

theorem SearchProgress.share_absent {hdr : Bytes 80} {tgt : Bytes 32} {s : State} (h : SearchProgress hdr tgt s)
    (notFound : s.ctrlState ≠ .found) : s.shareNonce = none ∧ s.shareHash = none := by
  unfold SearchProgress at h
  split at h
  · exact h
  · exact h
  · exact h.1
  · rename_i found; exact absurd found notFound
  · exact h.1

theorem SearchProgress.share_held {hdr : Bytes 80} {tgt : Bytes 32} {s : State} (h : SearchProgress hdr tgt s)
    (found : s.ctrlState = .found) : s.shareNonce = some s.nonce ∧
      s.shareHash = some (doubleHash (headerWithNonce hdr s.nonce)) ∧
      meetsTarget (doubleHash (headerWithNonce hdr s.nonce)) tgt = true := by
  rw [SearchProgress, found] at h
  exact h.1

theorem SearchProgress.none_below {hdr : Bytes 80} {tgt : Bytes 32} {s : State} (h : SearchProgress hdr tgt s)
    (ctrl : s.ctrlState = .searching ∨ s.ctrlState = .found) : NoMatchBelow hdr tgt s.nonce.toNat := by
  obtain searching | found := ctrl
  · rw [SearchProgress, searching] at h; exact h.2
  · rw [SearchProgress, found] at h; exact h.2

theorem SearchProgress.none_at_all {hdr : Bytes 80} {tgt : Bytes 32} {s : State} (h : SearchProgress hdr tgt s)
    (exhausted : s.ctrlState = .exhausted) : s.nonce = lastNonce ∧ NoMatchBelow hdr tgt (2 ^ 32) := by
  rw [SearchProgress, exhausted] at h
  exact h.2

/-- With a job the invariant speaks besides of the details, the outcome and the search's progress. -/
theorem JobReady.blockInv {t : State} {hdr : Bytes 80} {tgt : Bytes 32} (ready : JobReady t hdr tgt)
    (details : DetailsInv t) (outcome : t.ctrlState ≠ .idle → t.lastOutcome = .none)
    (progress : SearchProgress hdr tgt t) : BlockInv t := by
  have same : ∀ {hdr' tgt'}, ActiveJob t hdr' tgt' → hdr = hdr' ∧ tgt = tgt' := ready.job.unique
  exact {
    params := ready.params
    rx := ready.rx
    mid_job _ := ready.job_valid
    job_written _ := ⟨hdr, tgt, ready.job⟩
    ingest_clear begun := absurd ready.empty begun
    search_data _ := ⟨hdr, tgt, ready.job, ready.data⟩
    ctrl_mid _ := ready.mid_valid
    ctrl_rx _ := ready.empty
    err_field := details.field
    err_channel := details.channel
    outcome_open := outcome
    share_absent := progress.share_absent
    share_held found _ _ job := by obtain ⟨rfl, rfl⟩ := same job; exact progress.share_held found
    none_below ctrl _ _ job := by obtain ⟨rfl, rfl⟩ := same job; exact progress.none_below ctrl
    none_at_all exhausted :=
      ⟨(progress.none_at_all exhausted).1, fun _ _ job => by
        obtain ⟨rfl, rfl⟩ := same job; exact (progress.none_at_all exhausted).2⟩
    cancel_hook := ready.no_hook }

theorem BlockInv.jobReady {s : State} (inv : BlockInv s) (notIdle : s.ctrlState ≠ .idle) :
    ∃ hdr tgt, JobReady s hdr tgt := by
  have mid := inv.ctrl_mid notIdle
  obtain ⟨hdr, tgt, job, data⟩ := inv.search_data mid
  exact ⟨hdr, tgt, inv.params, inv.rx, inv.mid_job mid, mid, job, data, inv.ctrl_rx notIdle, inv.cancel_hook⟩

/-- The elements `JobReady` speaks of are the same in both states. -/
structure SameReady (s t : State) : Prop where
  params : t.params = s.params
  cancel : t.cancel = s.cancel
  rxBuf : t.rxBuf = s.rxBuf
  rxCount : t.rxCount = s.rxCount
  jobValid : t.jobValid = s.jobValid
  midValid : t.midValid = s.midValid
  jobHeader : t.jobHeader = s.jobHeader
  jobTarget : t.jobTarget = s.jobTarget
  midstate : t.midstate = s.midstate
  tail : t.tail = s.tail

theorem JobReady.congr {s t : State} {hdr : Bytes 80} {tgt : Bytes 32} (ready : JobReady s hdr tgt)
    (same : SameReady s t) : JobReady t hdr tgt := by
  obtain ⟨params, cancel, rxBuf, rxCount, jobValid, midValid, jobHeader, jobTarget, midstate, tail⟩ := same
  obtain ⟨wf, rx, job_valid, mid_valid, ⟨header, target⟩, ⟨mid, T, written, slices⟩, empty, no_hook⟩ := ready
  exact ⟨params ▸ wf, rx.congr rxBuf rxCount params, jobValid.trans job_valid, midValid.trans mid_valid,
    ⟨jobHeader.trans header, jobTarget.trans target⟩, ⟨midstate.trans mid, T, tail.trans written, slices⟩,
    rxCount.trans empty, by rwa [params, cancel]⟩

/-! ## The steps of a job cycle -/

/-- An accepted job stands, with the midstate and tail `PREP_MIDSTATE` builds (R185, R143). -/
theorem BlockInv.after_accept {s : State} (inv : BlockInv s) (idle : s.ctrlState = .idle) (hdr : Bytes 80)
    (tgt : Bytes 32) : BlockInv (acceptJob hdr tgt s) := by
  have ready : JobReady (acceptJob hdr tgt s) hdr tgt :=
    ⟨inv.params, inv.rx.emptied inv.params rfl rfl rfl, rfl, rfl, ⟨rfl, rfl⟩,
      ⟨rfl, _, rfl, blk2_front hdr, blk2_back hdr⟩, rfl, inv.cancel_hook⟩
  exact ready.blockInv (detailsInv_of_none rfl rfl) (fun _ => rfl) (inv.no_share_of_idle idle)

theorem BlockInv.after_start {s : State} (inv : BlockInv s) (prepared : s.ctrlState = .midstatePrepared) :
    BlockInv { s with nonce := 0, ctrlState := .searching } := by
  have notIdle : s.ctrlState ≠ .idle := by rw [prepared]; nofun
  obtain ⟨hdr, tgt, ready⟩ := inv.jobReady notIdle
  have progress : SearchProgress hdr tgt { s with nonce := 0, ctrlState := .searching } :=
    ⟨inv.share_absent (by rw [prepared]; nofun), fun m below => absurd below (Nat.not_lt_zero _)⟩
  have ready' := ready.congr (t := { s with nonce := 0, ctrlState := .searching })
    ⟨rfl, rfl, rfl, rfl, rfl, rfl, rfl, rfl, rfl, rfl⟩
  exact ready'.blockInv ⟨inv.err_field, inv.err_channel⟩ (fun _ => inv.outcome_open notIdle) progress

theorem endTrial_sameReady (d : Bytes 32) (hit : Bool) (s : State) : SameReady s (endTrial d hit s) := by
  obtain ⟨⟨header, target, -⟩, ⟨params, cancel, -⟩, mid, tail, buf, count, job, midValid, -⟩ := endTrial_frame d hit s
  exact ⟨params, cancel, buf, count, job, midValid, header, target, mid, tail⟩

/-- The digest of the nonce at hand adds it to the share or to the nonces ruled out (R147, R150). -/
theorem endTrial_progress {hdr : Bytes 80} {tgt : Bytes 32} {s : State} (searching : s.ctrlState = .searching)
    (noShare : s.shareNonce = none ∧ s.shareHash = none) (below : NoMatchBelow hdr tgt s.nonce.toNat) :
    SearchProgress hdr tgt (endTrial (doubleHash (headerWithNonce hdr s.nonce))
      (meetsTarget (doubleHash (headerWithNonce hdr s.nonce)) tgt) s) := by
  cases hit : meetsTarget (doubleHash (headerWithNonce hdr s.nonce)) tgt with
  | true => exact ⟨⟨rfl, rfl, hit⟩, below⟩
  | false =>
    have failed := noMatchBelow_succ below hit
    by_cases last : s.nonce = lastNonce
    · rw [endTrial_of_last _ last]
      rw [last] at failed
      exact ⟨noShare, last, failed⟩
    · rw [endTrial_of_not_last _ last, SearchProgress, searching]
      rw [← toNat_succ_of_ne_lastNonce last] at failed
      exact ⟨noShare, failed⟩

theorem BlockInv.after_endTrial {s : State} {hdr : Bytes 80} {tgt : Bytes 32} (inv : BlockInv s)
    (searching : s.ctrlState = .searching) (ready : JobReady s hdr tgt) :
    BlockInv (endTrial (doubleHash (headerWithNonce hdr s.nonce))
      (meetsTarget (doubleHash (headerWithNonce hdr s.nonce)) tgt) s) := by
  have notIdle : s.ctrlState ≠ .idle := by rw [searching]; nofun
  have none := inv.no_error_details notIdle
  have progress := endTrial_progress searching (inv.share_absent (by rw [searching]; nofun))
    (inv.none_below (.inl searching) hdr tgt ready.job)
  obtain ⟨-, -, -, -, -, -, -, -, outcome, field, channel⟩ := endTrial_frame (doubleHash (headerWithNonce hdr s.nonce))
    (meetsTarget (doubleHash (headerWithNonce hdr s.nonce)) tgt) s
  exact (ready.congr (endTrial_sameReady _ _ s)).blockInv
    (detailsInv_of_none (field.trans none.1) (channel.trans none.2))
    (fun _ => outcome.trans (inv.outcome_open notIdle)) progress

/-- The nonce a trial writes into the tail leaves it the header's (R147, R45). -/
theorem BlockInv.with_nonce_in_tail {s : State} {T : Bytes 64} (inv : BlockInv s) (written : s.tail = some T)
    (n : Word) : BlockInv { s with tail := some (setTailNonce T n) } :=
  { inv with
    rx := inv.rx.congr rfl rfl rfl
    search_data mid := by
      obtain ⟨hdr, tgt, job, midstate, T', written', front, back⟩ := inv.search_data mid
      obtain rfl : T = T' := Option.some.inj (written.symm.trans written')
      exact ⟨hdr, tgt, job, midstate, _, rfl, (setTailNonce_front T n).trans front,
        (setTailNonce_back T n).trans back⟩ }

/-- The trial's digest is the double hash of the header with the nonce (R149), so it rules the nonce out or finds it. -/
theorem BlockInv.after_trial {s : State} {T : Bytes 64} {mid : HashState} {tgt : Bytes 32} (inv : BlockInv s)
    (searching : s.ctrlState = .searching) (hTail : s.tail = some T) (hMid : s.midstate = some mid)
    (hTgt : s.jobTarget = some tgt) :
    BlockInv (endTrial (trialDigest mid (setTailNonce T s.nonce) s.nonce)
      (meetsTarget (trialDigest mid (setTailNonce T s.nonce) s.nonce) tgt)
      { s with tail := some (setTailNonce T s.nonce) }) := by
  have inv' := inv.with_nonce_in_tail hTail s.nonce
  obtain ⟨hdr, tgt', ready⟩ := inv'.jobReady (by rw [searching]; nofun)
  obtain rfl : tgt = tgt' := Option.some.inj (hTgt.symm.trans ready.job.2)
  obtain ⟨midstate, T', written, front, back⟩ := ready.data
  obtain rfl : setTailNonce T s.nonce = T' := Option.some.inj written
  obtain rfl : mid = compress h0 (blk1 hdr) := Option.some.inj (hMid.symm.trans midstate)
  rw [trialDigest_eq_doubleHash s.nonce front back]
  exact inv'.after_endTrial searching ready

/-- A job cycle's end in `IDLE` leaves the job and drops the share (R151 to R153). -/
theorem BlockInv.cycle_end {s t : State} (inv : BlockInv s) (notIdle : s.ctrlState ≠ .idle)
    (same : SameReady s t) (idle : t.ctrlState = .idle) (noShare : t.shareNonce = none ∧ t.shareHash = none)
    (details : DetailsInv t) : BlockInv t := by
  obtain ⟨hdr, tgt, ready⟩ := inv.jobReady notIdle
  refine (ready.congr same).blockInv details (absurd idle) ?_
  rw [SearchProgress, idle]
  exact noShare

theorem BlockInv.after_emission {s : State} (inv : BlockInv s) (found : s.ctrlState = .found) (ok : Bool)
    (answers : List TxAnswer) (log : List TxRecord) :
    BlockInv (endEmission ok { s with txAnswers := answers, txLog := log }) := by
  have notIdle : s.ctrlState ≠ .idle := by rw [found]; nofun
  have none := inv.no_error_details notIdle
  have empty := inv.ctrl_rx notIdle
  cases ok with
  | true =>
    exact inv.cycle_end notIdle ⟨rfl, rfl, rfl, rfl, rfl, rfl, rfl, rfl, rfl, rfl⟩ rfl ⟨rfl, rfl⟩
      (detailsInv_of_none none.1 none.2)
  | false =>
    exact inv.cycle_end notIdle ⟨rfl, rfl, rfl, empty.symm, rfl, rfl, rfl, rfl, rfl, rfl⟩ rfl ⟨rfl, rfl⟩
      (raised_raiseError _ _).details

/-- `REPORT_EXHAUSTED` and `CANCEL_SEARCH` end the cycle without a share (R152, R153). -/
theorem BlockInv.end_without_share {s : State} (inv : BlockInv s) (notIdle : s.ctrlState ≠ .idle)
    (notFound : s.ctrlState ≠ .found) (o : LastOutcome) : BlockInv { s with lastOutcome := o, ctrlState := .idle } := by
  have none := inv.no_error_details notIdle
  exact inv.cycle_end notIdle ⟨rfl, rfl, rfl, rfl, rfl, rfl, rfl, rfl, rfl, rfl⟩ rfl (inv.share_absent notFound)
    (detailsInv_of_none none.1 none.2)

/-! ## Every step -/

theorem BlockInv.after_effect {s t : State} (inv : BlockInv s) (e : Effect s t) : BlockInv t := by
  cases e with
  | answered r => exact inv.congr (answer_block r s) rfl inv.cancel_hook
  | offered as => exact inv.congr (by simp only [SameBlock, offerRx, and_self]) rfl inv.cancel_hook
  | waitsRx | waitsTx => exact inv
  | readFails r sel => exact inv.after_failed_read (state_of_select sel) r
  | readsByte b r sel => exact inv.after_read_byte (state_of_select sel) (frameComplete_of_rxByte sel) b r _
  | malformed F f sel =>
    exact inv.raiseError_of_noJob
      (inv.noJob_of_frameComplete (state_of_select sel) (frameComplete_of_frameParse sel)) _
  | accepted F hdr tgt sel => exact inv.after_accept (state_of_select sel) hdr tgt
  | started sel => exact inv.after_start (state_of_select sel)
  | tried T mid tgt sel tail midstate target => exact inv.after_trial (state_of_select sel) tail midstate target
  | emitted n h a r sel => exact inv.after_emission (state_of_select sel) _ r _
  | reported sel =>
    have exhausted : s.ctrlState = .exhausted := state_of_select sel
    exact inv.end_without_share (by rw [exhausted]; nofun) (by rw [exhausted]; nofun) _
  | cancelled sel =>
    have searching : s.ctrlState = .searching := state_of_select sel
    exact inv.end_without_share (by rw [searching]; nofun) (by rw [searching]; nofun) _

theorem BlockInv.after_drive {s : State} (inv : BlockInv s) (level : Bool) : BlockInv (driveCancel level s) := by
  refine inv.congr (by simp only [SameBlock, driveCancel, and_self]) rfl fun absent => ?_
  rw [driveCancel_of_absent absent]
  exact inv.cancel_hook absent

/-- Settles O4: what an operation does keeps the invariant, and so does each turn of the surroundings. -/
theorem everyStepKeepsTheInvariant : Obligations.EveryStepKeepsTheInvariant := by
  intro s t inv run
  have inv := inv.with_schedule s.schedule.tail
  cases step_effect run with
  | ran e => exact inv.after_effect e
  | reset a => exact inv.after_reset a
  | drove level => exact inv.after_drive level
  | offeredRx a => exact inv.after_effect (.offered [a])
  | offeredTx a => exact inv.congr (by simp only [SameBlock, offerTx, and_self]) rfl inv.cancel_hook

/-! ## No step reads an unwritten element (R258) -/

theorem BlockInv.guarded_ne_fault {s : State} {c : CtrlStep} {body : Host.Outcome State Fault Refusal} {f : Fault}
    (inv : BlockInv s) (bodySafe : selectStep s = some c → body ≠ .fault f) : guarded c s body ≠ .fault f := by
  intro faults
  obtain unreadable | ⟨sel, bodyFaults⟩ := guarded_fault faults
  · obtain ⟨d, sel⟩ := inv.selectable
    rw [unreadable] at sel
    cases sel
  · exact bodySafe sel bodyFaults

theorem BlockInv.execRxByte_ne_fault {s : State} (inv : BlockInv s) (f : Fault) : execRxByte s ≠ .fault f :=
  inv.guarded_ne_fault fun _ => by split <;> nofun

theorem BlockInv.receivedFrame_isSome {s : State} (inv : BlockInv s) : ∃ F, receivedFrame s = some F :=
  Memory.readFrom_isSome _ _ _ fun i _ below => inv.rx.written i (by omega)

theorem BlockInv.execFrameParse_ne_fault {s : State} (inv : BlockInv s) (f : Fault) :
    execFrameParse s ≠ .fault f := by
  refine inv.guarded_ne_fault fun _ => ?_
  obtain ⟨F, received⟩ := inv.receivedFrame_isSome
  simp only [received]
  split <;> nofun

theorem BlockInv.execTrial_ne_fault {s : State} (inv : BlockInv s) (f : Fault) : execTrial s ≠ .fault f := by
  refine inv.guarded_ne_fault fun sel => ?_
  have searching : s.ctrlState = .searching := state_of_select sel
  obtain ⟨hdr, tgt, ⟨-, target⟩, midstate, T, tail, -⟩ := inv.search_data (inv.ctrl_mid (by rw [searching]; nofun))
  simp only [tail, midstate, target]
  nofun

theorem BlockInv.emitHeldShare_ne_fault {s : State} (inv : BlockInv s) (found : s.ctrlState = .found) (f : Fault) :
    emitHeldShare s ≠ .fault f := by
  obtain ⟨n, h, nonce, hash⟩ := inv.share_of_found found
  simp only [emitHeldShare, nonce, hash]
  split <;> nofun

theorem BlockInv.execShareFrame_ne_fault {s : State} (inv : BlockInv s) (n : Word) (h : Bytes 32) (f : Fault) :
    execShareFrame n h s ≠ .fault f := by
  refine inv.guarded_ne_fault fun sel => ?_
  have found : s.ctrlState = .found := state_of_select sel
  obtain ⟨m, k, nonce, hash⟩ := inv.share_of_found found
  simp only [nonce, hash]
  split
  · exact inv.emitHeldShare_ne_fault found f
  · nofun

/-- The operations that read no state element cannot fault; the others find theirs written. -/
theorem BlockInv.exec_ne_fault {s : State} (inv : BlockInv s) (i : Instr) (f : Fault) : exec i s ≠ .fault f := by
  cases i with
  | rxByte => exact inv.execRxByte_ne_fault f
  | frameParse => exact inv.execFrameParse_ne_fault f
  | trial => exact inv.execTrial_ne_fault f
  | emitShare => exact inv.guarded_ne_fault fun sel => inv.emitHeldShare_ne_fault (state_of_select sel) f
  | shareFrame n h => exact inv.execShareFrame_ne_fault n h f
  | startSearch | reportExhausted | cancelSearch => exact inv.guarded_ne_fault nofun
  | hexDecode C n =>
    rw [exec, execHexDecode]
    split
    · split <;> nofun
    · nofun
  | jobParse F => rw [exec, execJobParse]; split <;> nofun
  | statusRead k => rw [exec, execStatusRead]; split <;> nofun
  | sha256Ref M => rw [exec, execSha256Ref]; split <;> nofun
  | shareDecodeRef T => rw [exec, execShareDecodeRef]; split <;> nofun
  | compress | hashHeader | hash32 | doubleHash | meetsTarget | prepMidstate | trialDigest | shareEncode | jobFrame =>
    nofun

theorem BlockInv.controllerTurn_ne_fault {s : State} (inv : BlockInv s) (f : Fault) : controllerTurn s ≠ .fault f := by
  obtain ⟨c, sel⟩ := inv.selectable
  simp only [controllerTurn, fetchStep, sel]
  exact inv.exec_ne_fault _ f

theorem BlockInv.commandTurn_ne_fault {s : State} (inv : BlockInv s) (bs : List Byte) (f : Fault) :
    commandTurn bs s ≠ .fault f := by
  unfold commandTurn
  split
  · exact inv.exec_ne_fault _ f
  · nofun

/-- Settles O5: under the invariant the controller has a step, and every element an operation reads is written. -/
theorem noStepReadsAnUnwrittenElement : Obligations.NoStepReadsAnUnwrittenElement := by
  intro s inv f
  cases hs : s.schedule with
  | nil => rw [step_of_schedule_nil hs]; exact inv.controllerTurn_ne_fault f
  | cons turn rest =>
    rw [step_of_schedule_cons hs]
    have inv := inv.with_schedule rest
    cases turn with
    | controller => exact inv.controllerTurn_ne_fault f
    | command bs => exact inv.commandTurn_ne_fault bs f
    | reset | driveCancel | rxAnswer | txAnswer => nofun

end Sys2Proof.Machine
end

section
/-! PROOFS. The encodings of 30_encoding.md: decoding and encoding are inverse to each other (R71, R80, R81, log 1), the
decoder gives well-formed operations only, and a reserved OPID is refused (R72). -/

namespace Sys2Proof

open Machine

/-! ## Operands (R71, log 1) -/

theorem decode_of_operands {op : Opid} {operands rest : List Byte} {i : Instr}
    (read : readOperands op operands = some (i, rest)) (check : checkOperands i = .ok ()) :
    decode (opidCode op :: operands) = .ok (i, rest) := by
  have ne := opidCode_ne_brace op
  simp only [decode, if_neg (not_header_of_ne _ operands ne), if_neg (not_nonce_of_ne _ operands ne), opidOf_code,
    read, check]

theorem checkOperands_statusRead_iff {k : Nat} : checkOperands (.statusRead k) = .ok () ↔ k ≤ 2 := by
  rw [checkOperands]
  split
  · exact iff_of_true rfl ‹_›
  · exact iff_of_false nofun ‹_›

theorem checkOperands_sha256Ref_iff {M : List Byte} : checkOperands (.sha256Ref M) = .ok () ↔ M.length < 2 ^ 61 := by
  rw [checkOperands]
  split
  · exact iff_of_true rfl ‹_›
  · exact iff_of_false nofun ‹_›

theorem wellFormed_hexDecode_iff {C : List Byte} {n : Nat} :
    WellFormed (.hexDecode C n) = true ↔ C.length = 2 * n ∧ n < 2 ^ 32 := by
  rw [WellFormed, Bool.and_eq_true, beq_iff_eq, decide_eq_true_iff]

/-- What is read as operands is what the encoder writes behind the OPID, and has the shape `WellFormed` asks for. -/
theorem readOperands_sound {op : Opid} {operands rest : List Byte} {i : Instr}
    (read : readOperands op operands = some (i, rest)) (check : checkOperands i = .ok ()) :
    encode i ++ rest = opidCode op :: operands ∧ WellFormed i = true := by
  cases op <;> simp only [readOperands, Option.pure_def, Option.bind_eq_bind, Option.bind_eq_some_iff,
    Option.some.injEq, Prod.mk.injEq, Prod.exists] at read
  case rxByte | frameParse | startSearch | trial | emitShare | reportExhausted | cancelSearch =>
    obtain ⟨rfl, rfl⟩ := read
    exact ⟨rfl, rfl⟩
  case hashHeader | hash32 | doubleHash | prepMidstate =>
    obtain ⟨B, _, h, rfl, rfl⟩ := read
    rw [takeBytes_eq_some h]
    exact ⟨rfl, rfl⟩
  case compress =>
    obtain ⟨S, _, h₁, B, _, h₂, rfl, rfl⟩ := read
    rw [takeState_eq_some h₁, takeBytes_eq_some h₂, ← List.append_assoc]
    exact ⟨rfl, rfl⟩
  case meetsTarget =>
    obtain ⟨hash, _, h₁, target, _, h₂, rfl, rfl⟩ := read
    rw [takeBytes_eq_some h₁, takeBytes_eq_some h₂, ← List.append_assoc]
    exact ⟨rfl, rfl⟩
  case trialDigest =>
    obtain ⟨S, _, h₁, tail, _, h₂, n, _, h₃, rfl, rfl⟩ := read
    rw [takeState_eq_some h₁, takeBytes_eq_some h₂, takeWord_eq_some h₃, ← List.append_assoc, ← List.append_assoc]
    exact ⟨rfl, rfl⟩
  case shareEncode =>
    obtain ⟨n, _, h₁, hash, _, h₂, rfl, rfl⟩ := read
    rw [takeWord_eq_some h₁, takeBytes_eq_some h₂, ← List.append_assoc]
    exact ⟨rfl, rfl⟩
  case hexDecode =>
    obtain ⟨n, _, h₁, C, _, h₂, rfl, rfl⟩ := read
    obtain ⟨bound, rfl⟩ := takeNat_eq_some h₁
    obtain ⟨len, rfl⟩ := takeList_eq_some h₂
    rw [← List.append_assoc]
    exact ⟨rfl, wellFormed_hexDecode_iff.mpr ⟨len, bound⟩⟩
  case jobParse =>
    obtain ⟨n, _, h₁, F, _, h₂, rfl, rfl⟩ := read
    obtain ⟨bound, rfl⟩ := takeNat_eq_some h₁
    obtain ⟨rfl, rfl⟩ := takeList_eq_some h₂
    rw [← List.append_assoc]
    exact ⟨rfl, decide_eq_true bound⟩
  case statusRead =>
    obtain ⟨n, _, h₁, rfl, rfl⟩ := read
    obtain ⟨bound, rfl⟩ := takeNat_eq_some h₁
    exact ⟨rfl, decide_eq_true (checkOperands_statusRead_iff.mp check)⟩
  case sha256Ref =>
    obtain ⟨n, _, h₁, M, _, h₂, rfl, rfl⟩ := read
    obtain ⟨bound, rfl⟩ := takeNat_eq_some h₁
    obtain ⟨rfl, rfl⟩ := takeList_eq_some h₂
    rw [← List.append_assoc]
    exact ⟨rfl, decide_eq_true (checkOperands_sha256Ref_iff.mp check)⟩
  case shareDecodeRef =>
    obtain ⟨n, _, h₁, T, _, h₂, rfl, rfl⟩ := read
    obtain ⟨bound, rfl⟩ := takeNat_eq_some h₁
    obtain ⟨rfl, rfl⟩ := takeList_eq_some h₂
    rw [← List.append_assoc]
    exact ⟨rfl, decide_eq_true bound⟩

/-! ## The job frame (R80) -/

theorem slice_slice (F : List Byte) {lo n i k : Nat} (h : i + k ≤ n) :
    slice (slice F lo n) i k = slice F (lo + i) k := by
  rw [slice, slice, slice, List.drop_take, List.drop_drop, List.take_take, Nat.min_eq_left (by omega)]

theorem decode_of_headerMarker {bs : List Byte} (h : slice bs 0 11 = headerMarker) : decode bs = decodeJobFrame bs :=
  if_pos h

/-- `JOB_FRAME`'s text decodes, whatever follows it. -/
theorem decodeJobFrame_jobFrameText {hh : Bytes 160} {th : Bytes 64} (digits : hh.toList.all isHexDigit = true)
    (digits' : th.toList.all isHexDigit = true) (rest : List Byte) :
    decodeJobFrame (jobFrameText hh th ++ rest) = .ok (.jobFrame hh th, rest) := by
  obtain ⟨marker, header, closed, marker', target, closed', ended⟩ := jobFrameText_slices hh th rest
  have ending : slice (jobFrameText hh th ++ rest) 247 2 = [quote, rbrace] := by
    rw [slice_split _ 247 1 1, closed', ended]; rfl
  have left : (jobFrameText hh th ++ rest).drop 249 = rest := List.drop_left' (jobFrameText_length hh th)
  simp [decodeJobFrame, header, target, ofList?_toList, marker, digits, closed, marker', digits', ending, left]

/-- Only `JOB_FRAME`'s text decodes as a job frame, and its digits are hex digits. -/
theorem decodeJobFrame_sound {bs rest : List Byte} {i : Instr} (h : decodeJobFrame bs = .ok (i, rest)) :
    encode i ++ rest = bs ∧ WellFormed i = true := by
  unfold decodeJobFrame at h
  split at h
  · cases h
  · rename_i hh header
    split at h
    · cases h
    · rename_i headerPart
      obtain ⟨marker, digits, closed⟩ := not_not.mp headerPart
      split at h
      · cases h
      · rename_i th target
        split at h
        · rename_i targetPart
          obtain ⟨marker', digits', ending⟩ := targetPart
          cases h
          have closed' : slice bs 247 1 = [quote] := by rw [← slice_slice bs (n := 2) (i := 0) (by decide), ending]; rfl
          have ended : slice bs 248 1 = [rbrace] := by rw [← slice_slice bs (n := 2) (i := 1) (by decide), ending]; rfl
          have shape : slice bs 0 249 = jobFrameText hh th := slice_eq_jobFrameText marker (ofList?_eq_some.mp header)
            closed marker' (ofList?_eq_some.mp target) closed' ended
          refine ⟨?_, Bool.and_eq_true_iff.mpr ⟨digits, digits'⟩⟩
          rw [encode, ← shape, slice_zero_drop]
        · cases h

/-! ## Lowercase hex text (R81, R202, R203) -/

theorem lower_cons {c : Byte} {r : List Byte} (h : (c :: r).all isLowerHexDigit = true) :
    isLowerHexDigit c = true ∧ r.all isLowerHexDigit = true := by
  rwa [List.all_cons, Bool.and_eq_true] at h

/-- Lowercase pairs are what their bytes print as. -/
theorem hashHex_of_hexDecodePairs : ∀ {C B : List Byte}, C.all isLowerHexDigit = true → hexDecodePairs C = some B →
    hashHex B = C
  | [], B, _, h => by cases h; rfl
  | [_], B, _, h => by cases h
  | hi :: lo :: r, B, lower, h => by
    obtain ⟨lowerHi, lower⟩ := lower_cons lower
    obtain ⟨lowerLo, lower⟩ := lower_cons lower
    unfold hexDecodePairs at h
    split at h
    · rename_i v w out valueHi valueLo rest
      cases h
      have hv := hexval_lt hi v valueHi
      have hw := hexval_lt lo w valueLo
      have number : (BitVec.ofNat 8 (v * 16 + w)).toNat = v * 16 + w := Nat.mod_eq_of_lt (by omega)
      rw [hashHex, hashHex_of_hexDecodePairs lower rest, eq_hexchar_of_lower lowerHi valueHi,
        eq_hexchar_of_lower lowerLo valueLo, number, show (v * 16 + w) / 16 = v by omega,
        show (v * 16 + w) % 16 = w by omega]
    · cases h

theorem quotient_remainder_unique {P v k v' k' : Nat} (hk : k < P) (hk' : k' < P)
    (eq : v * P + k = v' * P + k') : v = v' ∧ k = k' := by
  have pos : 0 < P := Nat.zero_lt_of_lt hk
  have left : (v * P + k) / P = v ∧ (v * P + k) % P = k := (Nat.div_mod_unique pos).mpr ⟨by ring, hk⟩
  have right : (v' * P + k') / P = v' ∧ (v' * P + k') % P = k' := (Nat.div_mod_unique pos).mpr ⟨by ring, hk'⟩
  rw [← eq] at right
  exact ⟨left.1.symm.trans right.1, left.2.symm.trans right.2⟩

/-- Lowercase digits are determined by the number they write and their count. -/
theorem eq_of_hexNumber_eq {C D : List Byte} {m : Nat} (len : C.length = D.length)
    (lowerC : C.all isLowerHexDigit = true) (lowerD : D.all isLowerHexDigit = true)
    (numberC : hexNumber C = some m) (numberD : hexNumber D = some m) : C = D := by
  induction C generalizing D m with
  | nil => exact (List.length_eq_zero_iff.mp len.symm).symm
  | cons c r ih =>
    cases D with
    | nil => cases len
    | cons d q =>
      have len : r.length = q.length := Nat.succ.inj len
      obtain ⟨v, k, valueC, restC, sum⟩ := hexNumber_cons_eq_some_iff.mp numberC
      obtain ⟨w, l, valueD, restD, rfl⟩ := hexNumber_cons_eq_some_iff.mp numberD
      have hl := hexNumber_lt restD
      rw [← len] at sum hl
      obtain ⟨rfl, rfl⟩ := quotient_remainder_unique (hexNumber_lt restC) hl sum
      obtain ⟨lowerc, lowerC⟩ := lower_cons lowerC
      obtain ⟨lowerd, lowerD⟩ := lower_cons lowerD
      rw [eq_hexchar_of_lower lowerc valueC, eq_hexchar_of_lower lowerd valueD, ih len lowerC lowerD restC restD]

/-- Eight lowercase digits are `NONCE_HEX` of their number (R202). -/
theorem nonceHex_of_hexNumber {C : List Byte} {m : Nat} (len : C.length = 8) (lower : C.all isLowerHexDigit = true)
    (number : hexNumber C = some m) : nonceHex (BitVec.ofNat 32 m) = C := by
  have bound : m < 2 ^ 32 := (hexNumber_lt number).trans_eq (by rw [len]; rfl)
  have number' : hexNumber (nonceHex (BitVec.ofNat 32 m)) = some m := by
    rw [hexNumber_nonceHex, BitVec.toNat_ofNat, Nat.mod_eq_of_lt bound]
  exact eq_of_hexNumber_eq len.symm (nonceHex_lower _) lower number' number

/-! ## The share frame (R81) -/

/-- The bytes of R81's shape at the start, put together from its pieces. -/
theorem slice_eq_shareText {F : List Byte} {n : Word} {d : Bytes 32} (opening : slice F 0 10 = nonceMarker)
    (nonce : slice F 10 8 = nonceHex n) (middle : slice F 18 10 = hashMarker)
    (hash : slice F 28 64 = hashHex d.toList) (ending : slice F 92 3 = shareEnd) :
    slice F 0 95 = (shareText n d).toList := by
  simp only [slice_split F 0 92 3, slice_split F 0 28 64, slice_split F 0 18 10, slice_split F 0 10 8, Nat.zero_add,
    opening, nonce, middle, hash, ending, shareText]

/-- `SHARE_FRAME`'s text decodes, whatever follows it. -/
theorem decodeShareFrame_shareText (n : Word) (d : Bytes 32) (rest : List Byte) :
    decodeShareFrame ((shareText n d).toList ++ rest) = .ok (.shareFrame n d, rest) := by
  obtain ⟨opening, nonce, middle, hash, ending⟩ := shareText_slices n d rest
  have left : ((shareText n d).toList ++ rest).drop 95 = rest := List.drop_left' (shareText n d).length_eq
  simp [decodeShareFrame, opening, nonce, middle, hash, ending, nonceHex_lower, hashHex_lower, hexNumber_nonceHex,
    hexDecodePairs_hashHex, ofList?_toList, left]

/-- Only `SHARE_FRAME`'s text decodes as a share frame. -/
theorem decodeShareFrame_sound {bs rest : List Byte} {i : Instr} (h : decodeShareFrame bs = .ok (i, rest)) :
    encode i ++ rest = bs ∧ WellFormed i = true := by
  unfold decodeShareFrame at h
  split at h
  · rename_i shape
    obtain ⟨opening, middle, ending, lower, lower'⟩ := shape
    split at h
    · rename_i m out number pairs
      split at h
      · rename_i d sized
        cases h
        obtain rfl := ofList?_eq_some.mp sized
        have len : (slice bs 10 8).length = 8 := by
          have := congrArg List.length ending
          rw [slice_length] at this ⊢
          change _ = 3 at this
          omega
        have shape := slice_eq_shareText opening (nonceHex_of_hexNumber len lower number).symm middle
          (hashHex_of_hexDecodePairs lower' pairs).symm ending
        refine ⟨?_, rfl⟩
        rw [encode, ← shape, slice_zero_drop]
      · cases h
    · cases h
  · cases h

/-! ## The decoder and the encoder -/

theorem decode_of_nonceMarker {bs : List Byte} (h : slice bs 0 10 = nonceMarker) : decode bs = decodeShareFrame bs := by
  have noHeader : slice bs 0 11 ≠ headerMarker := by
    intro header
    rw [← slice_slice bs (n := 11) (lo := 0) (i := 0) (by decide), header] at h
    exact absurd h (by decide)
  exact (if_neg noHeader).trans (if_pos h)

/-- The operand readers read what the encoder writes, and each frame is known by its marker. -/
theorem decode_encode {i : Instr} (wf : WellFormed i = true) (rest : List Byte) :
    decode (encode i ++ rest) = .ok (i, rest) := by
  cases i with
  | hashHeader | hash32 | doubleHash | prepMidstate | meetsTarget =>
    exact decode_of_operands (by simp [readOperands, takeBytes_append]) rfl
  | compress => exact decode_of_operands (by simp [readOperands, takeState_append, takeBytes_append]) rfl
  | trialDigest =>
    exact decode_of_operands (by simp [readOperands, takeState_append, takeBytes_append, takeWord_append]) rfl
  | shareEncode => exact decode_of_operands (by simp [readOperands, takeBytes_append, takeWord_append]) rfl
  | rxByte | frameParse | startSearch | trial | emitShare | reportExhausted | cancelSearch =>
    exact decode_of_operands rfl rfl
  | hexDecode C n =>
    obtain ⟨len, bound⟩ := wellFormed_hexDecode_iff.mp wf
    have chars : takeList (2 * n) (C ++ rest) = some (C, rest) := len ▸ takeList_append C rest
    exact decode_of_operands (by simp [readOperands, takeNat_append 4 n _ bound, chars]) rfl
  | jobParse F =>
    have bound : F.length < 256 ^ 2 := of_decide_eq_true wf
    exact decode_of_operands (by simp [readOperands, takeNat_append 2 _ _ bound, takeList_append]) rfl
  | shareDecodeRef T =>
    have bound : T.length < 256 ^ 4 := of_decide_eq_true wf
    exact decode_of_operands (by simp [readOperands, takeNat_append 4 _ _ bound, takeList_append]) rfl
  | sha256Ref M =>
    have short : M.length < 2 ^ 61 := of_decide_eq_true wf
    have bound : M.length < 256 ^ 8 := short.trans (by decide)
    exact decode_of_operands (by simp [readOperands, takeNat_append 8 _ _ bound, takeList_append])
      (checkOperands_sha256Ref_iff.mpr short)
  | statusRead k =>
    have low : k ≤ 2 := of_decide_eq_true wf
    have bound : k < 256 ^ 1 := low.trans_lt (by decide)
    exact decode_of_operands (by simp [readOperands, takeNat_append 1 _ _ bound]) (checkOperands_statusRead_iff.mpr low)
  | jobFrame hh th =>
    obtain ⟨digits, digits'⟩ := Bool.and_eq_true_iff.mp wf
    obtain ⟨marker, -⟩ := jobFrameText_slices hh th rest
    exact (decode_of_headerMarker marker).trans (decodeJobFrame_jobFrameText digits digits' rest)
  | shareFrame n d =>
    obtain ⟨opening, -⟩ := shareText_slices n d rest
    exact (decode_of_nonceMarker opening).trans (decodeShareFrame_shareText n d rest)

/-- What decodes is a frame, or an OPID with its operands; each is what the encoder writes. -/
theorem decode_sound {bs rest : List Byte} {i : Instr} (h : decode bs = .ok (i, rest)) :
    encode i ++ rest = bs ∧ WellFormed i = true := by
  unfold decode at h
  split at h
  · exact decodeJobFrame_sound h
  · split at h
    · exact decodeShareFrame_sound h
    · split at h
      · cases h
      · split at h
        · cases h
        · rename_i op names
          split at h
          · cases h
          · rename_i read
            split at h
            · rename_i check
              cases h
              obtain rfl := opidCode_of_opidOf _ op names
              exact readOperands_sound read check
            · cases h

/-- Settles O12: see `decode_encode`. -/
theorem decodeOfEncodeIsTheOperation : Obligations.DecodeOfEncodeIsTheOperation :=
  fun _ rest wf => decode_encode wf rest

/-- Settles O13: see `decode_sound`. -/
theorem encodeOfDecodeIsTheBytes : Obligations.EncodeOfDecodeIsTheBytes := by
  intro bs rest i h
  obtain ⟨bytes, -⟩ := decode_sound h
  exact bytes

/-- Settles O14: see `decode_sound`. -/
theorem decodedOperationsAreWellFormed : Obligations.DecodedOperationsAreWellFormed := by
  intro bs rest i h
  obtain ⟨-, wf⟩ := decode_sound h
  exact wf

theorem decodeTableWord_eq_some {nbits w : Nat} {i : Instr} {rest : List Byte}
    (h : decode (layoutWord nbits w) = .ok (i, rest)) : decodeTableWord nbits w = some i := by
  rw [decodeTableWord, h]

theorem decodeTableWord_eq_none {nbits w : Nat} {e : DecodeError} (h : decode (layoutWord nbits w) = .error e) :
    decodeTableWord nbits w = none := by
  rw [decodeTableWord, h]

/-- Settles O11: each word is what its operation encodes to, and `{` alone is no OPID. -/
theorem someWordsDecodeAsTheTableSays : Obligations.SomeWordsDecodeAsTheTableSays := by
  refine ⟨decode_encode (i := .startSearch) rfl [], decode_encode (i := .statusRead 2) rfl [],
    decode_encode (i := .hash32 ⟨List.replicate 32 0xFF#8, rfl⟩) rfl [],
    decode_encode (i := .hexDecode [0x46#8, 0x66#8] 1) rfl [],
    decodeTableWord_eq_some (decode_encode (i := .cancelSearch) rfl _),
    decodeTableWord_eq_none (e := .reservedOpid 0x7B#8) rfl⟩

/-! ## Reserved OPIDs (R72) -/

/-- R72's ranges. -/
def ReservedOpid (b : Byte) : Prop :=
  b = 0x00#8 ∨ (0x0B ≤ b.toNat ∧ b.toNat ≤ 0x0F) ∨ (0x17 ≤ b.toNat ∧ b.toNat ≤ 0x1F) ∨
    (0x21 ≤ b.toNat ∧ b.toNat ≤ 0xEF) ∨ 0xF2 ≤ b.toNat

theorem opidCode_not_reserved (op : Opid) : ¬ReservedOpid (opidCode op) := by
  unfold ReservedOpid
  cases op <;> decide

theorem opidOf_of_reserved {b : Byte} (reserved : ReservedOpid b) : opidOf b = none := by
  cases names : opidOf b with
  | none => rfl
  | some op =>
    obtain rfl := opidCode_of_opidOf b op names
    exact absurd reserved (opidCode_not_reserved op)

/-- Settles O10: no OPID lies in R72's ranges. -/
theorem reservedOpidsAreRefused : Obligations.ReservedOpidsAreRefused := by
  intro s b r rest reserved noHeader noNonce hs
  have error : decode (b :: r) = .error (.reservedOpid b) := by
    simp only [decode, if_neg noHeader, if_neg noNonce, opidOf_of_reserved reserved]
  rw [step_of_schedule_cons hs]
  simp only [takeTurn, commandTurn, fetchCommand, error]

end Sys2Proof
end
